-- ==== Sys2Proof/Word.lean ====
section
/-! DEFINITION. The word types of HDTW: 64-bit register values, 64-bit command words, bytes. -/

namespace Sys2Proof

/-- A general register's value, a CSR as `CSRR` reads it, a response value: 64 bits unsigned
(spec/10_state.md R20, R27). -/
abbrev Word := BitVec 64

/-- A command word `C[63:0]` (spec/30_encoding.md R90). -/
abbrev CommandWord := BitVec 64

/-- One byte of `MEM` (spec/20_memory.md R60). -/
abbrev Byte := BitVec 8

/-- The failure length of `getVarUint`: the all-ones 64-bit value (spec/41_byte_cursor.md R170;
spec/00_scope.md R13). -/
abbrev sentinel : Word := BitVec.allOnes 64

end Sys2Proof
end

