-- ==== Sys2Proof/Syntax.lean ====
section
/-! DEFINITION. The command set: one constructor of `Instr` per row of spec/opcode_table.json, with
the operands of spec/30_encoding.md R92 and R96 in the order R96 lists them. -/

namespace Sys2Proof

/-- The general registers `x0` to `x7` (spec/10_state.md R20). -/
inductive Reg where
  | x0 | x1 | x2 | x3 | x4 | x5 | x6 | x7
deriving DecidableEq, Repr

/-- A command. `imm` is the field `imm32`, `n` the bit-count field; both are natural numbers here and
`Instr.WellFormed` says that they fit their fields. -/
inductive Instr where
  -- spec/40_common_commands.md
  | nop
  | li (rd : Reg) (imm : Nat)
  | lih (rd : Reg) (imm : Nat)
  | mov (rd rs1 : Reg)
  | csrr (rd : Reg) (imm : Nat)
  | clrerr
  -- spec/41_byte_cursor.md
  | bcSetrange (rs1 rs2 : Reg)
  | bcSeek (rs1 : Reg) (imm : Nat)
  | bcReset
  | bcGet8 (rd : Reg)
  | bcGet16 (rd : Reg)
  | bcGet32 (rd : Reg)
  | bcGet64 (rd : Reg)
  | bcGeto8 (rd rs1 : Reg) (imm : Nat)
  | bcGeto16 (rd rs1 : Reg) (imm : Nat)
  | bcGeto32 (rd rs1 : Reg) (imm : Nat)
  | bcGeto64 (rd rs1 : Reg) (imm : Nat)
  | bcPut8 (rs2 : Reg)
  | bcPut16 (rs2 : Reg)
  | bcPut32 (rs2 : Reg)
  | bcPut64 (rs2 : Reg)
  | bcPuto8 (rs2 rs1 : Reg) (imm : Nat)
  | bcPuto16 (rs2 rs1 : Reg) (imm : Nat)
  | bcPuto32 (rs2 rs1 : Reg) (imm : Nat)
  | bcPuto64 (rs2 rs1 : Reg) (imm : Nat)
  | bcGetvar (rd rd2 : Reg)
  | bcGetvaro (rd rd2 rs1 : Reg) (imm : Nat)
  | bcPutvar (rd rs2 : Reg)
  -- spec/42_bit_cursor.md
  | brOpen
  | brSeek (rs1 : Reg) (imm : Nat)
  | brNext (rd : Reg) (n : Nat)
  | brNextv (rd rs1 : Reg)
  | brHasnext (rd : Reg)
  | bwPush (rs2 : Reg) (n : Nat)
  | bwPushv (rs2 rs1 : Reg)
  | bwFlush
  -- spec/43_unpacker.md
  | unpSel (rs1 : Reg) (imm : Nat)
  | unpBase (rs1 : Reg) (imm : Nat)
  | unpCount (rs1 : Reg) (imm : Nat)
  | unpGet (rd rs1 : Reg) (imm : Nat)
  | unpHdr (rd : Reg)
  | unpAt (rd rs1 : Reg) (imm : Nat)
  | unpRun (rs1 rs2 : Reg)
  | unpRunref (rs1 rs2 : Reg)
  | unpRd (rd rs1 : Reg) (imm : Nat)
  | unpMinw (rd rs1 : Reg)
  -- spec/44_huffman.md
  | hufLoad (rs1 rs2 : Reg)
  | hufDec (rd rd2 : Reg)
  | hufAccset (rs1 : Reg) (imm : Nat)
deriving DecidableEq, Repr

end Sys2Proof
end

