-- ==== Sys2Proof/WellFormed.lean ====
section
/-! DEFINITION. Which terms of `Instr` are commands: an immediate or a bit count must fit its field
(spec/30_encoding.md R91, R100). Register operands fit by their type. -/

namespace Sys2Proof

/-- `imm32` is a 32-bit unsigned field (R91). -/
abbrev immFits (imm : Nat) : Bool := decide (imm < 2 ^ 32)

/-- `n` is a 7-bit unsigned field (R91). -/
abbrev countFits (n : Nat) : Bool := decide (n < 2 ^ 7)

/-- The check, constructor by constructor. -/
def Instr.wellFormed : Instr → Bool
  | .nop => true
  | .li _ imm => immFits imm
  | .lih _ imm => immFits imm
  | .mov _ _ => true
  | .csrr _ imm => immFits imm
  | .clrerr => true
  | .bcSetrange _ _ => true
  | .bcSeek _ imm => immFits imm
  | .bcReset => true
  | .bcGet8 _ => true
  | .bcGet16 _ => true
  | .bcGet32 _ => true
  | .bcGet64 _ => true
  | .bcGeto8 _ _ imm => immFits imm
  | .bcGeto16 _ _ imm => immFits imm
  | .bcGeto32 _ _ imm => immFits imm
  | .bcGeto64 _ _ imm => immFits imm
  | .bcPut8 _ => true
  | .bcPut16 _ => true
  | .bcPut32 _ => true
  | .bcPut64 _ => true
  | .bcPuto8 _ _ imm => immFits imm
  | .bcPuto16 _ _ imm => immFits imm
  | .bcPuto32 _ _ imm => immFits imm
  | .bcPuto64 _ _ imm => immFits imm
  | .bcGetvar _ _ => true
  | .bcGetvaro _ _ _ imm => immFits imm
  | .bcPutvar _ _ => true
  | .brOpen => true
  | .brSeek _ imm => immFits imm
  | .brNext _ n => countFits n
  | .brNextv _ _ => true
  | .brHasnext _ => true
  | .bwPush _ n => countFits n
  | .bwPushv _ _ => true
  | .bwFlush => true
  | .unpSel _ imm => immFits imm
  | .unpBase _ imm => immFits imm
  | .unpCount _ imm => immFits imm
  | .unpGet _ _ imm => immFits imm
  | .unpHdr _ => true
  | .unpAt _ _ imm => immFits imm
  | .unpRun _ _ => true
  | .unpRunref _ _ => true
  | .unpRd _ _ imm => immFits imm
  | .unpMinw _ _ => true
  | .hufLoad _ _ => true
  | .hufDec _ _ => true
  | .hufAccset _ imm => immFits imm

/-- A well-formed command: every operand fits its field (R100). -/
abbrev Instr.WellFormed (i : Instr) : Prop := i.wellFormed = true

end Sys2Proof
end

