-- ==== Sys2Proof/Decode.lean ====
section
/-! DEFINITION. The command word: fields and formats (spec/30_encoding.md R91, R92), the total strict
decoder (R93, R96, R97), the encoder, and the opcode table as masks and matches (R93, R96). -/

namespace Sys2Proof

/-! ### Fields (R91) -/

/-- `v[hi:lo]` with `width = hi - lo + 1` (spec/00_scope.md R13). -/
def bitField (v lo width : Nat) : Nat := v / 2 ^ lo % 2 ^ width

/-- The number of a register, as a register field holds it. -/
def Reg.num : Reg → Nat
  | .x0 => 0 | .x1 => 1 | .x2 => 2 | .x3 => 3 | .x4 => 4 | .x5 => 5 | .x6 => 6 | .x7 => 7

/-- The register a 3-bit field names. -/
def Reg.ofNum : Nat → Reg
  | 0 => .x0 | 1 => .x1 | 2 => .x2 | 3 => .x3 | 4 => .x4 | 5 => .x5 | 6 => .x6 | _ => .x7

/-- The fields of a command word, the same in every format (R91). `rs2` is `rd2` in formats DD and
DDSI. -/
structure Fields where
  op : Nat
  rd : Nat := 0
  rs1 : Nat := 0
  rs2 : Nat := 0
  n : Nat := 0
  z : Nat := 0
  imm : Nat := 0
deriving DecidableEq, Repr

/-- The fields of a word, cut as R91 places them. -/
def fieldsOf (c : CommandWord) : Fields :=
  { op := bitField c.toNat 56 8
    rd := bitField c.toNat 53 3
    rs1 := bitField c.toNat 50 3
    rs2 := bitField c.toNat 47 3
    n := bitField c.toNat 40 7
    z := bitField c.toNat 32 8
    imm := bitField c.toNat 0 32 }

/-- Assembly of a word from its fields (R91; `z` is 0 in every word R91 assembles and is carried here
so that `assemble` inverts `fieldsOf`). -/
def assemble (f : Fields) : CommandWord :=
  BitVec.ofNat 64 (f.op * 2 ^ 56 + f.rd * 2 ^ 53 + f.rs1 * 2 ^ 50 + f.rs2 * 2 ^ 47 + f.n * 2 ^ 40 +
    f.z * 2 ^ 32 + f.imm)

/-! ### Formats (R92) -/

/-- The formats of R92, named as there. -/
inductive Format where
  | Z | D | DI | DS | DN | DSI | DD | DDSI | DS2 | S2 | S2SI | S2N | S2S | SI | SS
deriving DecidableEq, Repr

/-- Does the format use the field `rd`? -/
def Format.usesRd : Format → Bool
  | .Z => false | .D => true | .DI => true | .DS => true | .DN => true | .DSI => true
  | .DD => true | .DDSI => true | .DS2 => true | .S2 => false | .S2SI => false | .S2N => false
  | .S2S => false | .SI => false | .SS => false

/-- Does the format use the field `rs1`? -/
def Format.usesRs1 : Format → Bool
  | .Z => false | .D => false | .DI => false | .DS => true | .DN => false | .DSI => true
  | .DD => false | .DDSI => true | .DS2 => false | .S2 => false | .S2SI => true | .S2N => false
  | .S2S => true | .SI => true | .SS => true

/-- Does the format use the field `rs2` (or `rd2`)? -/
def Format.usesRs2 : Format → Bool
  | .Z => false | .D => false | .DI => false | .DS => false | .DN => false | .DSI => false
  | .DD => true | .DDSI => true | .DS2 => true | .S2 => true | .S2SI => true | .S2N => true
  | .S2S => true | .SI => false | .SS => true

/-- Does the format use the field `n`? -/
def Format.usesN : Format → Bool
  | .Z => false | .D => false | .DI => false | .DS => false | .DN => true | .DSI => false
  | .DD => false | .DDSI => false | .DS2 => false | .S2 => false | .S2SI => false | .S2N => true
  | .S2S => false | .SI => false | .SS => false

/-- Does the format use the field `imm32`? -/
def Format.usesImm : Format → Bool
  | .Z => false | .D => false | .DI => true | .DS => false | .DN => false | .DSI => true
  | .DD => false | .DDSI => true | .DS2 => false | .S2 => false | .S2SI => true | .S2N => false
  | .S2S => false | .SI => true | .SS => false

/-- Every field the format does not use is 0 (R93 step 2, but for `z`). -/
def Format.unusedZero (fmt : Format) (f : Fields) : Bool :=
  (fmt.usesRd || f.rd == 0) && (fmt.usesRs1 || f.rs1 == 0) && (fmt.usesRs2 || f.rs2 == 0) &&
    (fmt.usesN || f.n == 0) && (fmt.usesImm || f.imm == 0)

/-! ### The decoder (R93, R96) -/

/-- Why a word is no command (R93, R97), in the order of spec/60_exceptions.md R308 (1). Every one of
them is the status `IllegalCommand`. -/
inductive DecodeError where
  /-- An opcode R96 does not assign. -/
  | reservedOpcode (op : Nat)
  /-- The reserved field `z` is not 0. -/
  | reservedFieldSet (z : Nat)
  /-- A field the command's format does not use is not 0. -/
  | unusedFieldSet (fmt : Format)
deriving DecidableEq, Repr

/-- The opcode map of R96: the format of the command that `f.op` names and the command with the fields
as operands; `none` for a reserved opcode (R97). -/
def decodeOp (f : Fields) : Option (Format × Instr) :=
  match f.op with
  | 0x00 => some (.Z, .nop)
  | 0x01 => some (.DI, .li (Reg.ofNum f.rd) f.imm)
  | 0x02 => some (.DI, .lih (Reg.ofNum f.rd) f.imm)
  | 0x03 => some (.DS, .mov (Reg.ofNum f.rd) (Reg.ofNum f.rs1))
  | 0x04 => some (.DI, .csrr (Reg.ofNum f.rd) f.imm)
  | 0x05 => some (.Z, .clrerr)
  | 0x10 => some (.SS, .bcSetrange (Reg.ofNum f.rs1) (Reg.ofNum f.rs2))
  | 0x11 => some (.SI, .bcSeek (Reg.ofNum f.rs1) f.imm)
  | 0x12 => some (.Z, .bcReset)
  | 0x18 => some (.D, .bcGet8 (Reg.ofNum f.rd))
  | 0x19 => some (.D, .bcGet16 (Reg.ofNum f.rd))
  | 0x1A => some (.D, .bcGet32 (Reg.ofNum f.rd))
  | 0x1B => some (.D, .bcGet64 (Reg.ofNum f.rd))
  | 0x1C => some (.DSI, .bcGeto8 (Reg.ofNum f.rd) (Reg.ofNum f.rs1) f.imm)
  | 0x1D => some (.DSI, .bcGeto16 (Reg.ofNum f.rd) (Reg.ofNum f.rs1) f.imm)
  | 0x1E => some (.DSI, .bcGeto32 (Reg.ofNum f.rd) (Reg.ofNum f.rs1) f.imm)
  | 0x1F => some (.DSI, .bcGeto64 (Reg.ofNum f.rd) (Reg.ofNum f.rs1) f.imm)
  | 0x20 => some (.S2, .bcPut8 (Reg.ofNum f.rs2))
  | 0x21 => some (.S2, .bcPut16 (Reg.ofNum f.rs2))
  | 0x22 => some (.S2, .bcPut32 (Reg.ofNum f.rs2))
  | 0x23 => some (.S2, .bcPut64 (Reg.ofNum f.rs2))
  | 0x24 => some (.S2SI, .bcPuto8 (Reg.ofNum f.rs2) (Reg.ofNum f.rs1) f.imm)
  | 0x25 => some (.S2SI, .bcPuto16 (Reg.ofNum f.rs2) (Reg.ofNum f.rs1) f.imm)
  | 0x26 => some (.S2SI, .bcPuto32 (Reg.ofNum f.rs2) (Reg.ofNum f.rs1) f.imm)
  | 0x27 => some (.S2SI, .bcPuto64 (Reg.ofNum f.rs2) (Reg.ofNum f.rs1) f.imm)
  | 0x28 => some (.DD, .bcGetvar (Reg.ofNum f.rd) (Reg.ofNum f.rs2))
  | 0x29 => some (.DDSI, .bcGetvaro (Reg.ofNum f.rd) (Reg.ofNum f.rs2) (Reg.ofNum f.rs1) f.imm)
  | 0x2A => some (.DS2, .bcPutvar (Reg.ofNum f.rd) (Reg.ofNum f.rs2))
  | 0x30 => some (.Z, .brOpen)
  | 0x31 => some (.SI, .brSeek (Reg.ofNum f.rs1) f.imm)
  | 0x32 => some (.DN, .brNext (Reg.ofNum f.rd) f.n)
  | 0x33 => some (.DS, .brNextv (Reg.ofNum f.rd) (Reg.ofNum f.rs1))
  | 0x34 => some (.D, .brHasnext (Reg.ofNum f.rd))
  | 0x38 => some (.S2N, .bwPush (Reg.ofNum f.rs2) f.n)
  | 0x39 => some (.S2S, .bwPushv (Reg.ofNum f.rs2) (Reg.ofNum f.rs1))
  | 0x3A => some (.Z, .bwFlush)
  | 0x40 => some (.SI, .unpSel (Reg.ofNum f.rs1) f.imm)
  | 0x41 => some (.SI, .unpBase (Reg.ofNum f.rs1) f.imm)
  | 0x42 => some (.SI, .unpCount (Reg.ofNum f.rs1) f.imm)
  | 0x43 => some (.DSI, .unpGet (Reg.ofNum f.rd) (Reg.ofNum f.rs1) f.imm)
  | 0x44 => some (.D, .unpHdr (Reg.ofNum f.rd))
  | 0x45 => some (.DSI, .unpAt (Reg.ofNum f.rd) (Reg.ofNum f.rs1) f.imm)
  | 0x46 => some (.SS, .unpRun (Reg.ofNum f.rs1) (Reg.ofNum f.rs2))
  | 0x47 => some (.SS, .unpRunref (Reg.ofNum f.rs1) (Reg.ofNum f.rs2))
  | 0x48 => some (.DSI, .unpRd (Reg.ofNum f.rd) (Reg.ofNum f.rs1) f.imm)
  | 0x49 => some (.DS, .unpMinw (Reg.ofNum f.rd) (Reg.ofNum f.rs1))
  | 0x50 => some (.SS, .hufLoad (Reg.ofNum f.rs1) (Reg.ofNum f.rs2))
  | 0x51 => some (.DD, .hufDec (Reg.ofNum f.rd) (Reg.ofNum f.rs2))
  | 0x52 => some (.SI, .hufAccset (Reg.ofNum f.rs1) f.imm)
  | _ => none

/-- The decoder, total on all `2^64` words (R93): opcode, then `z`, then the unused fields. -/
def decode (c : CommandWord) : Except DecodeError Instr :=
  match decodeOp (fieldsOf c) with
  | none => .error (.reservedOpcode (fieldsOf c).op)
  | some (fmt, i) =>
    if (fieldsOf c).z ≠ 0 then .error (.reservedFieldSet (fieldsOf c).z)
    else if fmt.unusedZero (fieldsOf c) then .ok i
    else .error (.unusedFieldSet fmt)

/-- The instruction the decoder reads from a table row's word: `w` is the one 64-bit command word, bit
0 its least significant bit; bits at `nbits` and above are 0 (R90: one length, no byte order). -/
def decodeTableWord (nbits w : Nat) : Option Instr :=
  match decode (BitVec.ofNat 64 (w % 2 ^ nbits)) with
  | .ok i => some i
  | .error _ => none

/-! ### The encoder (R91, R92, R96) -/

/-- The fields of a command's word; a field its format does not use is 0 (R92, R96). -/
def Instr.fields : Instr → Fields
  | .nop => { op := 0x00 }
  | .li rd imm => { op := 0x01, rd := rd.num, imm := imm }
  | .lih rd imm => { op := 0x02, rd := rd.num, imm := imm }
  | .mov rd rs1 => { op := 0x03, rd := rd.num, rs1 := rs1.num }
  | .csrr rd imm => { op := 0x04, rd := rd.num, imm := imm }
  | .clrerr => { op := 0x05 }
  | .bcSetrange rs1 rs2 => { op := 0x10, rs1 := rs1.num, rs2 := rs2.num }
  | .bcSeek rs1 imm => { op := 0x11, rs1 := rs1.num, imm := imm }
  | .bcReset => { op := 0x12 }
  | .bcGet8 rd => { op := 0x18, rd := rd.num }
  | .bcGet16 rd => { op := 0x19, rd := rd.num }
  | .bcGet32 rd => { op := 0x1A, rd := rd.num }
  | .bcGet64 rd => { op := 0x1B, rd := rd.num }
  | .bcGeto8 rd rs1 imm => { op := 0x1C, rd := rd.num, rs1 := rs1.num, imm := imm }
  | .bcGeto16 rd rs1 imm => { op := 0x1D, rd := rd.num, rs1 := rs1.num, imm := imm }
  | .bcGeto32 rd rs1 imm => { op := 0x1E, rd := rd.num, rs1 := rs1.num, imm := imm }
  | .bcGeto64 rd rs1 imm => { op := 0x1F, rd := rd.num, rs1 := rs1.num, imm := imm }
  | .bcPut8 rs2 => { op := 0x20, rs2 := rs2.num }
  | .bcPut16 rs2 => { op := 0x21, rs2 := rs2.num }
  | .bcPut32 rs2 => { op := 0x22, rs2 := rs2.num }
  | .bcPut64 rs2 => { op := 0x23, rs2 := rs2.num }
  | .bcPuto8 rs2 rs1 imm => { op := 0x24, rs1 := rs1.num, rs2 := rs2.num, imm := imm }
  | .bcPuto16 rs2 rs1 imm => { op := 0x25, rs1 := rs1.num, rs2 := rs2.num, imm := imm }
  | .bcPuto32 rs2 rs1 imm => { op := 0x26, rs1 := rs1.num, rs2 := rs2.num, imm := imm }
  | .bcPuto64 rs2 rs1 imm => { op := 0x27, rs1 := rs1.num, rs2 := rs2.num, imm := imm }
  | .bcGetvar rd rd2 => { op := 0x28, rd := rd.num, rs2 := rd2.num }
  | .bcGetvaro rd rd2 rs1 imm =>
      { op := 0x29, rd := rd.num, rs1 := rs1.num, rs2 := rd2.num, imm := imm }
  | .bcPutvar rd rs2 => { op := 0x2A, rd := rd.num, rs2 := rs2.num }
  | .brOpen => { op := 0x30 }
  | .brSeek rs1 imm => { op := 0x31, rs1 := rs1.num, imm := imm }
  | .brNext rd n => { op := 0x32, rd := rd.num, n := n }
  | .brNextv rd rs1 => { op := 0x33, rd := rd.num, rs1 := rs1.num }
  | .brHasnext rd => { op := 0x34, rd := rd.num }
  | .bwPush rs2 n => { op := 0x38, rs2 := rs2.num, n := n }
  | .bwPushv rs2 rs1 => { op := 0x39, rs1 := rs1.num, rs2 := rs2.num }
  | .bwFlush => { op := 0x3A }
  | .unpSel rs1 imm => { op := 0x40, rs1 := rs1.num, imm := imm }
  | .unpBase rs1 imm => { op := 0x41, rs1 := rs1.num, imm := imm }
  | .unpCount rs1 imm => { op := 0x42, rs1 := rs1.num, imm := imm }
  | .unpGet rd rs1 imm => { op := 0x43, rd := rd.num, rs1 := rs1.num, imm := imm }
  | .unpHdr rd => { op := 0x44, rd := rd.num }
  | .unpAt rd rs1 imm => { op := 0x45, rd := rd.num, rs1 := rs1.num, imm := imm }
  | .unpRun rs1 rs2 => { op := 0x46, rs1 := rs1.num, rs2 := rs2.num }
  | .unpRunref rs1 rs2 => { op := 0x47, rs1 := rs1.num, rs2 := rs2.num }
  | .unpRd rd rs1 imm => { op := 0x48, rd := rd.num, rs1 := rs1.num, imm := imm }
  | .unpMinw rd rs1 => { op := 0x49, rd := rd.num, rs1 := rs1.num }
  | .hufLoad rs1 rs2 => { op := 0x50, rs1 := rs1.num, rs2 := rs2.num }
  | .hufDec rd rd2 => { op := 0x51, rd := rd.num, rs2 := rd2.num }
  | .hufAccset rs1 imm => { op := 0x52, rs1 := rs1.num, imm := imm }

/-- The command word of a well-formed command (R91). -/
def encode (i : Instr) : CommandWord := assemble i.fields

/-! ### The opcode table as masks and matches (R93) -/

/-- `mask_K` of R93: the OR of `op`, `z` and every field the format does not use. -/
def Format.mask (fmt : Format) : CommandWord :=
  assemble
    { op := 0xFF
      rd := if fmt.usesRd then 0 else 7
      rs1 := if fmt.usesRs1 then 0 else 7
      rs2 := if fmt.usesRs2 then 0 else 7
      n := if fmt.usesN then 0 else 127
      z := 0xFF
      imm := if fmt.usesImm then 0 else 0xFFFFFFFF }

/-- `match_K` of R93: the opcode at bits 63..56. -/
def opcodeMatch (op : Nat) : CommandWord := assemble { op := op }

/-- A row of the opcode map (R96). -/
structure OpcodeRow where
  op : Nat
  mnemonic : String
  format : Format
deriving DecidableEq, Repr

/-- The word of a row's opcode under its mask (R93): the row's command is exactly the words `c` with
`c AND mask = match`. -/
def OpcodeRow.matches (r : OpcodeRow) (c : CommandWord) : Bool :=
  c &&& r.format.mask == opcodeMatch r.op

/-- The rows of R96 whose opcode's high nibble is 0 (spec/40_common_commands.md). -/
def commonRows : List OpcodeRow :=
  [⟨0x00, "NOP", .Z⟩,
   ⟨0x01, "LI", .DI⟩,
   ⟨0x02, "LIH", .DI⟩,
   ⟨0x03, "MOV", .DS⟩,
   ⟨0x04, "CSRR", .DI⟩,
   ⟨0x05, "CLRERR", .Z⟩]

/-- The rows of R96 whose opcode's high nibble is 1 (spec/41_byte_cursor.md). -/
def byteGetRows : List OpcodeRow :=
  [⟨0x10, "BC.SETRANGE", .SS⟩,
   ⟨0x11, "BC.SEEK", .SI⟩,
   ⟨0x12, "BC.RESET", .Z⟩,
   ⟨0x18, "BC.GET8", .D⟩,
   ⟨0x19, "BC.GET16", .D⟩,
   ⟨0x1A, "BC.GET32", .D⟩,
   ⟨0x1B, "BC.GET64", .D⟩,
   ⟨0x1C, "BC.GETO8", .DSI⟩,
   ⟨0x1D, "BC.GETO16", .DSI⟩,
   ⟨0x1E, "BC.GETO32", .DSI⟩,
   ⟨0x1F, "BC.GETO64", .DSI⟩]

/-- The rows of R96 whose opcode's high nibble is 2 (spec/41_byte_cursor.md). -/
def bytePutRows : List OpcodeRow :=
  [⟨0x20, "BC.PUT8", .S2⟩,
   ⟨0x21, "BC.PUT16", .S2⟩,
   ⟨0x22, "BC.PUT32", .S2⟩,
   ⟨0x23, "BC.PUT64", .S2⟩,
   ⟨0x24, "BC.PUTO8", .S2SI⟩,
   ⟨0x25, "BC.PUTO16", .S2SI⟩,
   ⟨0x26, "BC.PUTO32", .S2SI⟩,
   ⟨0x27, "BC.PUTO64", .S2SI⟩,
   ⟨0x28, "BC.GETVAR", .DD⟩,
   ⟨0x29, "BC.GETVARO", .DDSI⟩,
   ⟨0x2A, "BC.PUTVAR", .DS2⟩]

/-- The rows of R96 whose opcode's high nibble is 3 (spec/42_bit_cursor.md). -/
def bitRows : List OpcodeRow :=
  [⟨0x30, "BR.OPEN", .Z⟩,
   ⟨0x31, "BR.SEEK", .SI⟩,
   ⟨0x32, "BR.NEXT", .DN⟩,
   ⟨0x33, "BR.NEXTV", .DS⟩,
   ⟨0x34, "BR.HASNEXT", .D⟩,
   ⟨0x38, "BW.PUSH", .S2N⟩,
   ⟨0x39, "BW.PUSHV", .S2S⟩,
   ⟨0x3A, "BW.FLUSH", .Z⟩]

/-- The rows of R96 whose opcode's high nibble is 4 (spec/43_unpacker.md). -/
def unpackRows : List OpcodeRow :=
  [⟨0x40, "UNP.SEL", .SI⟩,
   ⟨0x41, "UNP.BASE", .SI⟩,
   ⟨0x42, "UNP.COUNT", .SI⟩,
   ⟨0x43, "UNP.GET", .DSI⟩,
   ⟨0x44, "UNP.HDR", .D⟩,
   ⟨0x45, "UNP.AT", .DSI⟩,
   ⟨0x46, "UNP.RUN", .SS⟩,
   ⟨0x47, "UNP.RUNREF", .SS⟩,
   ⟨0x48, "UNP.RD", .DSI⟩,
   ⟨0x49, "UNP.MINW", .DS⟩]

/-- The rows of R96 whose opcode's high nibble is 5 (spec/44_huffman.md). -/
def huffmanRows : List OpcodeRow :=
  [⟨0x50, "HUF.LOAD", .SS⟩,
   ⟨0x51, "HUF.DEC", .DD⟩,
   ⟨0x52, "HUF.ACCSET", .SI⟩]

/-- The opcode map of R96. -/
def opcodeMap : List OpcodeRow :=
  List.flatten [commonRows, byteGetRows, bytePutRows, bitRows, unpackRows, huffmanRows]

end Sys2Proof
end

