-- ==== Sys2Proof/Config.lean ====
section
/-! DEFINITION. What an implementation of HDTW fixes: the capacities the spec leaves open
(spec/00_scope.md R11), the quantities the document fixes (R10; spec/93_implementation_defined.md
U12 asks for them as named constants in one place), and the byte and bit orders (R11, U17). -/

namespace Sys2Proof

/-- The four OPEN capacities of spec/00_scope.md R11, readable as CSRs 16 to 19. -/
structure Capacities where
  /-- `MEM_SIZE`, the number of bytes of `MEM` (CSR 16 `CAP_MEM`). -/
  memSize : Nat
  /-- `UBUF_N`, the number of entries of `UBUF` (CSR 17 `CAP_UBUF`). -/
  ubufN : Nat
  /-- `HUF_MAX_NODES`, the number of entries of `HN` (CSR 18 `CAP_HN`). -/
  maxNodes : Nat
  /-- `HUF_MAX_LEAVES`, the number of entries of `HL` (CSR 19 `CAP_HL`). -/
  maxLeaves : Nat
deriving DecidableEq, Repr

/-- The values R11 allows. The bounds below `2^32` are DEDUCED from the 32-bit width that
spec/10_state.md R28 gives CSRs 17, 18 and 19 (log 5, safe). -/
abbrev Capacities.Legal (c : Capacities) : Prop :=
  (1 ≤ c.memSize ∧ c.memSize ≤ 2 ^ 48) ∧ (1 ≤ c.ubufN ∧ c.ubufN < 2 ^ 32) ∧
    (3 ≤ c.maxNodes ∧ c.maxNodes < 2 ^ 32) ∧ (1 ≤ c.maxLeaves ∧ c.maxLeaves < 2 ^ 32)

namespace Config

/-- The capacities of the machine `State.reset` describes: DESIGN CHOICE (log 4, unsafe), the
parameters under which spec/95_test_vectors.md states its vectors. No statement rests on these
numbers: a state carries its own capacities. -/
def capacities : Capacities :=
  { memSize := 256, ubufN := 4, maxNodes := 5, maxLeaves := 3 }

/-- What a byte of `MEM` that nothing has written reads as: DESIGN CHOICE (log 6, unsafe), the spec
leaves the power-up content open (spec/93_implementation_defined.md U8). -/
def unlistedByte : Byte := 0

/-- `VAR_MAX_BYTES`: a varint has 1 to 10 bytes (R10). -/
@[simp] abbrev varMaxBytes : Nat := 10

/-- `BITS_MAX`: a bit transfer moves 1 to 64 bits (R10). -/
@[simp] abbrev bitsMax : Nat := 64

/-- `LANES`: unpacker widths 1 to 32 (R10). -/
@[simp] abbrev lanes : Nat := 32

/-- `2 ^ ID_BITS`: an ID is a 32-bit unsigned integer (R10). -/
@[simp] abbrev idLimit : Nat := 2 ^ 32

/-- `LEAF_VALUE_BYTES`: size of a leaf record's `value` (R10). -/
@[simp] abbrev leafValueBytes : Nat := 4

/-- `LEAF_CLEN_BYTES`: size of a leaf record's `codeLength` (R10). -/
@[simp] abbrev leafClenBytes : Nat := 3

/-- The stride of the leaf table, 7 bytes (R10; spec/44_huffman.md R262). -/
@[simp] abbrev leafStride : Nat := leafValueBytes + leafClenBytes

/-- The longest code word the one-byte `bitLength` can name: 255 bits (spec/44_huffman.md R275). -/
@[simp] abbrev walkMax : Nat := 255

/-- The least number of node records `HUF.LOAD` accepts (spec/44_huffman.md R270 step 2). -/
@[simp] abbrev minNodes : Nat := 3

/-- Free values: what entry `k` of `HN` holds after the `c`-th `HUF.LOAD` that left no tree
(spec/44_huffman.md R272: unspecified; log 8). No body: nothing constrains them. -/
opaque freeNode : (c k : Nat) → BitVec 40

/-- Free values: what entry `k` of `HL` holds after the `c`-th `HUF.LOAD` that left no tree (log 8). -/
opaque freeLeaf : (c k : Nat) → BitVec 56

end Config

/-- The two orders a fixed-width integer could have in memory. -/
inductive ByteOrder where
  | little
  | big
deriving DecidableEq, Repr

/-- `BYTE_ORDER`: little-endian (spec/00_scope.md R11; spec/20_memory.md R64). -/
abbrev Config.byteOrder : ByteOrder := .little

/-- The weight, in bytes, of the byte at offset `i` of a `k`-byte integer: `i` for little-endian
(spec/20_memory.md R64). -/
def Config.byteWeight (k i : Nat) : Nat :=
  match Config.byteOrder with
  | .little => i
  | .big => k - 1 - i

/-- `BIT_ORDER`, most significant bit first: stream bit `j` of a byte is its bit `7 - j`
(spec/20_memory.md R66). The writer's byte assembly (spec/42_bit_cursor.md R199, R201) is the same
order written as division. -/
def Config.streamBit (j : Nat) : Nat := 7 - j

end Sys2Proof
end

