-- ==== Sys2Proof/Machine/State.lean ====
section
/-! DEFINITION. The state of HDTW as plain data (spec/10_state.md, spec/70_reset_and_hazards.md R330),
the reasons a step can stop, and the state after reset. -/

namespace Sys2Proof.Machine

/-- The status a command ends with (spec/60_exceptions.md R300); codes 6 to 15 are never returned. -/
inductive Status where
  /-- Code 0, success. -/
  | ok
  /-- Code 1 (R301). -/
  | corruptData
  /-- Code 2 (R302). -/
  | outOfBounds
  /-- Code 3 (R309). -/
  | unsupportedFeature
  /-- Code 4, allocated and never raised (R303). -/
  | unimplementedOperation
  /-- Code 5 (R304). -/
  | illegalCommand
deriving DecidableEq, Repr

/-- `Resp(status, val, val2)` (spec/00_scope.md R6). -/
structure Response where
  status : Status
  val : Word
  val2 : Word
deriving DecidableEq, Repr

/-- What the host does at the ports, between commands or to give one (spec/00_scope.md R5, R7;
spec/70_reset_and_hazards.md R330). A host read of `MEM` changes nothing and is no event (log 16). -/
inductive HostEvent where
  /-- `Issue(C)`: the host presents the command word `C`. -/
  | issue (c : CommandWord)
  /-- The host writes one byte of `MEM`. -/
  | write (addr : Nat) (b : Byte)
  /-- The host applies `Reset`. -/
  | reset
deriving DecidableEq, Repr

/-- `x1` to `x7`. `x0` has no storage: it is hardwired to zero (spec/10_state.md R20, R21). -/
structure RegFile where
  x1 : Word
  x2 : Word
  x3 : Word
  x4 : Word
  x5 : Word
  x6 : Word
  x7 : Word
deriving DecidableEq, Repr

/-- An entry of `HN`, the node RAM (spec/10_state.md R37). -/
structure NodeEntry where
  /-- The stored bit-length; 0 for a node that is not terminal. -/
  bl : BitVec 8
  /-- The node number of the child for bit 0 (`bl = 0`), or a leaf index (`bl ≠ 0`). -/
  ptr : BitVec 32
deriving DecidableEq, Repr

/-- An entry of `HL`, the leaf RAM (spec/10_state.md R37). -/
structure LeafEntry where
  value : BitVec 32
  clen : BitVec 24
deriving DecidableEq, Repr

/-- `MEM` (spec/20_memory.md R60): address and byte pairs, addresses strictly rising, no byte equal to
what an unlisted address reads as (`Memory.wf`). -/
abbrev Memory := List Host.Cell

/-- The state. Every field but the last three is the spec's (spec/10_state.md R20 to R38); `resp`,
`input` and `draws` are the model's own (log 1, log 3, log 8). The cursor CSRs are natural numbers, as every rule computes
with them (spec/00_scope.md R12; log 9). -/
structure State where
  /-- `x1` to `x7` (R20). -/
  regs : RegFile
  /-- `SEQ`, CSR 2: commands completed (R25). -/
  seq : BitVec 64
  /-- `STATUS.ERR`: the sticky error (R26). -/
  err : Status
  /-- `ESEQ`, CSR 1: `SEQ` of the command that set `ERR` (R28). -/
  eseq : BitVec 64
  /-- `STATUS.HVALID`: a tree is loaded (R26). -/
  hvalid : Bool
  /-- `STATUS.WCNT`: number of pending writer bits (R26, R31). -/
  wcnt : BitVec 3
  /-- `WPEND`, CSR 7: the pending writer bits, right-aligned, oldest most significant (R28, R31). -/
  wpend : BitVec 7
  /-- `BASE`, CSR 3 (R28, R29). -/
  base : Nat
  /-- `LEN`, CSR 4 (R28, R29). -/
  len : Nat
  /-- `POS`, CSR 5: the Byte Cursor position, an offset (R28, R29). -/
  pos : Nat
  /-- `RBIT`, CSR 6: the bit reader's position, a bit offset (R28, R30). -/
  rbit : Nat
  /-- `UW`, CSR 8: the selected lane, 0 for none (R28, R32). -/
  uw : BitVec 6
  /-- `UREF`, CSR 9: the reference value of the current block (R28, R32). -/
  uref : BitVec 32
  /-- `UDATA`, CSR 10: offset of the packed field buffer (R28, R32). -/
  udata : Nat
  /-- `UN`, CSR 11: number of fields (R28, R32). -/
  un : BitVec 32
  /-- `UCNT`, CSR 12: number of valid entries of `UBUF` (R28, R32). -/
  ucnt : BitVec 32
  /-- `UBUF`, `UBUF_N` entries (R36). -/
  ubuf : List (BitVec 32)
  /-- `HACC`, CSR 13: the delta accumulator (R28, R33). -/
  hacc : BitVec 32
  /-- `HNN`, CSR 14: number of nodes (R28, R33). -/
  hnn : BitVec 32
  /-- `HNL`, CSR 15: number of leaf records (R28, R33). -/
  hnl : BitVec 32
  /-- `HN`, `HUF_MAX_NODES` entries (R37). -/
  hn : List NodeEntry
  /-- `HL`, `HUF_MAX_LEAVES` entries (R37). -/
  hl : List LeafEntry
  /-- `MEM` (R38). -/
  mem : Memory
  /-- CSRs 16 to 19, `CAP_MEM`, `CAP_UBUF`, `CAP_HN`, `CAP_HL`: constants that nothing writes (R28). -/
  cap : Capacities
  /-- The MODEL's own: the response last given, none before the first (log 3). -/
  resp : Option Response
  /-- The MODEL's own: the host's events not yet taken (log 1). -/
  input : List HostEvent
  /-- The MODEL's own: how often the step has taken free values, so that each time they are fresh
  (log 8). -/
  draws : Nat
deriving DecidableEq, Repr

/-- Why a step stops. No command of HDTW stops the machine: every status of R300 is a response. -/
inductive Fault where
  /-- Raised by the step that takes a host write to an address that does not exist
  (spec/20_memory.md R60). Safe: the spec gives such an access no meaning (log 11). -/
  | absentAddress (addr : Nat)
deriving DecidableEq, Repr

/-- Why an instruction is refused. -/
inductive Refusal where
  /-- Raised by the dispatch for an instruction without a meaning; no arm does so. Safe. -/
  | notModelled (mnemonic : String)
deriving DecidableEq, Repr

/-- The outcome of a command or a step. -/
abbrev Out := Host.Outcome State Fault Refusal

/-- The state right after `Reset` of a machine with the given capacities and memory, with the host's
coming events (spec/10_state.md R50; spec/70_reset_and_hazards.md R330). `UBUF`, `HN` and `HL` are
unspecified and unobservable there; zero is a value R330 allows (log 7). -/
def State.powerUp (cap : Capacities) (mem : Memory) (input : List HostEvent) : State :=
  { regs := { x1 := 0, x2 := 0, x3 := 0, x4 := 0, x5 := 0, x6 := 0, x7 := 0 }
    seq := 0
    err := .ok
    eseq := 0
    hvalid := false
    wcnt := 0
    wpend := 0
    base := 0
    len := 0
    pos := 0
    rbit := 0
    uw := 0
    uref := 0
    udata := 0
    un := 0
    ucnt := 0
    ubuf := List.replicate cap.ubufN 0
    hacc := 0
    hnn := 0
    hnl := 0
    hn := List.replicate cap.maxNodes { bl := 0, ptr := 0 }
    hl := List.replicate cap.maxLeaves { value := 0, clen := 0 }
    mem := mem
    cap := cap
    resp := none
    input := input
    draws := 0 }

/-- The machine right after reset (R50, R330), with the capacities of `Config.capacities` (log 4),
nothing listed in `MEM` (log 6) and no host event waiting (log 1). -/
def State.reset : State := State.powerUp Config.capacities [] []

end Sys2Proof.Machine
end

