-- ==== Sys2Proof/Machine/Ops.lean ====
section
/-! DEFINITION. The named operations over registers, memory and the tables: the primitives of
spec/00_scope.md R14, the varint codec (spec/41_byte_cursor.md R142, R143), the end of a command
(spec/10_state.md R25) and the fault step (spec/60_exceptions.md R305, R306). -/

namespace Sys2Proof.Machine

/-! ### General registers (spec/10_state.md R20 to R23) -/

/-- `x[i]`: `x0` reads 0 (R21). -/
def RegFile.read (f : RegFile) : Reg → Word
  | .x0 => 0
  | .x1 => f.x1
  | .x2 => f.x2
  | .x3 => f.x3
  | .x4 => f.x4
  | .x5 => f.x5
  | .x6 => f.x6
  | .x7 => f.x7

/-- `x[i] <- v`: a write to `x0` has no effect (R21). -/
def RegFile.write (f : RegFile) (r : Reg) (v : Word) : RegFile :=
  match r with
  | .x0 => f
  | .x1 => { f with x1 := v }
  | .x2 => { f with x2 := v }
  | .x3 => { f with x3 := v }
  | .x4 => { f with x4 := v }
  | .x5 => { f with x5 := v }
  | .x6 => { f with x6 := v }
  | .x7 => { f with x7 := v }

/-- `x[i]` of the state. -/
def State.reg (s : State) (r : Reg) : Word := s.regs.read r

/-- `x[i] <- v` on the state. -/
def State.setReg (s : State) (r : Reg) (v : Word) : State := { s with regs := s.regs.write r v }

/-! ### Updates of the named state elements -/

/-- `POS <- p`. -/
def State.setPos (s : State) (p : Nat) : State := { s with pos := p }

/-- `RBIT <- p`. -/
def State.setRbit (s : State) (p : Nat) : State := { s with rbit := p }

/-- The assignments of `BC.SETRANGE` (spec/41_byte_cursor.md R145): both cursors restart. -/
def State.setRange (s : State) (b l : Nat) : State :=
  { s with base := b, len := l, pos := 0, rbit := 0 }

/-- `WCNT <- c; WPEND <- p` (spec/42_bit_cursor.md R199, R201). -/
def State.setWriter (s : State) (c : Nat) (p : Nat) : State :=
  { s with wcnt := BitVec.ofNat 3 c, wpend := BitVec.ofNat 7 p }

/-- `UW <- w` (spec/43_unpacker.md R225). -/
def State.setLane (s : State) (w : Nat) : State := { s with uw := BitVec.ofNat 6 w }

/-- `UDATA <- d` (spec/43_unpacker.md R226). -/
def State.setUdata (s : State) (d : Nat) : State := { s with udata := d }

/-- `UN <- n` (spec/43_unpacker.md R227). -/
def State.setCount (s : State) (n : Nat) : State := { s with un := BitVec.ofNat 32 n }

/-- `UW <- w; UREF <- v; UDATA <- d` (spec/43_unpacker.md R229). -/
def State.setBlock (s : State) (w v d : Nat) : State :=
  { s with uw := BitVec.ofNat 6 w, uref := BitVec.ofNat 32 v, udata := d }

/-- `UBUF[k] <- vs[k]` for every `k < length vs`; `UCNT <- length vs`. Entries beyond keep their old
content (spec/43_unpacker.md R231, R240). -/
def State.setRun (s : State) (vs : List Nat) : State :=
  { s with
    ubuf := vs.map (BitVec.ofNat 32) ++ s.ubuf.drop vs.length
    ucnt := BitVec.ofNat 32 vs.length }

/-- `HACC <- a` (spec/44_huffman.md R275, R276). -/
def State.setAcc (s : State) (a : Nat) : State := { s with hacc := BitVec.ofNat 32 a }

/-- Entry `k` of `HN`, unspecified: every field free (spec/44_huffman.md R272; log 8). -/
def freeNodeEntry (c k : Nat) : NodeEntry :=
  { bl := (Config.freeNode c k).setWidth 8, ptr := (Config.freeNode c k).extractLsb' 8 32 }

/-- Entry `k` of `HL`, unspecified: every field free (spec/44_huffman.md R272; log 8). -/
def freeLeafEntry (c k : Nat) : LeafEntry :=
  { value := (Config.freeLeaf c k).setWidth 32, clen := (Config.freeLeaf c k).extractLsb' 32 24 }

/-- `HVALID <- 0; HNN <- 0; HNL <- 0` (spec/44_huffman.md R270 step 2, R272). The entries of `HN` and
`HL` are unspecified from here on: free values, fresh each time (log 8). -/
def State.clearTree (s : State) : State :=
  { s with
    hvalid := false
    hnn := 0
    hnl := 0
    hn := (List.range s.hn.length).map (freeNodeEntry s.draws)
    hl := (List.range s.hl.length).map (freeLeafEntry s.draws)
    draws := s.draws + 1 }

/-- The commit of `HUF.LOAD` (spec/44_huffman.md R270 step 6): the tables' first entries,
`HVALID <- 1; HNN <- NN; HNL <- NL`. -/
def State.setTree (s : State) (nodes : List NodeEntry) (leaves : List LeafEntry) : State :=
  { s with
    hvalid := true
    hnn := BitVec.ofNat 32 nodes.length
    hnl := BitVec.ofNat 32 leaves.length
    hn := nodes ++ s.hn.drop nodes.length
    hl := leaves ++ s.hl.drop leaves.length }

/-- `MEM` replaced. -/
def State.setMem (s : State) (m : Memory) : State := { s with mem := m }

/-- The host's events not yet taken, replaced (log 1). -/
def State.setInput (s : State) (es : List HostEvent) : State := { s with input := es }

/-! ### Memory (spec/20_memory.md R60 to R65) -/

/-- One byte of `MEM`. -/
def Memory.read : Memory → Nat → Byte
  | [], _ => Config.unlistedByte
  | (a, b) :: t, addr => if addr = a then b else Memory.read t addr

/-- The entries of every address but `addr`. -/
def Memory.erase : Memory → Nat → Memory
  | [], _ => []
  | (a, b) :: t, addr =>
    if a = addr then Memory.erase t addr else (a, b) :: Memory.erase t addr

/-- An entry put before the first entry of a higher address. -/
def Memory.insert : Memory → Nat → Byte → Memory
  | [], addr, v => [(addr, v)]
  | (a, b) :: t, addr, v =>
    if addr < a then (addr, v) :: (a, b) :: t else (a, b) :: Memory.insert t addr v

/-- One byte stored. A byte equal to what an unlisted address reads as is not listed, so the canonical
form is kept. -/
def Memory.write (m : Memory) (addr : Nat) (v : Byte) : Memory :=
  if v = Config.unlistedByte then Memory.erase m addr
  else Memory.insert (Memory.erase m addr) addr v

/-- The canonical form from address `lo` on: addresses strictly rising and at least `lo`, no byte equal
to what an unlisted address reads as. -/
def Memory.wfFrom : Nat → Memory → Bool
  | _, [] => true
  | lo, (a, b) :: t => decide (lo ≤ a) && decide (b ≠ Config.unlistedByte) && Memory.wfFrom (a + 1) t

/-- The canonical form of `MEM`. -/
def Memory.wf (m : Memory) : Bool := Memory.wfFrom 0 m

/-- `MemWrite` (spec/00_scope.md R14): the bytes stored from `addr` up, in order. -/
def Memory.writeBytes : Memory → Nat → List Byte → Memory
  | m, _, [] => m
  | m, addr, b :: bs => Memory.writeBytes (Memory.write m addr b) (addr + 1) bs

/-- `RB(off)`: the byte of the byte range at offset `off` (spec/20_memory.md R61). Every command checks
`off < LEN` first (R62), and the range lies in `MEM` in every state that satisfies `State.Inv`. -/
def State.rb (s : State) (off : Nat) : Byte := Memory.read s.mem (s.base + off)

/-- `WB(off + i, bs[i])` for every `i`, in order. -/
def State.putBytes (s : State) (off : Nat) (bs : List Byte) : State :=
  s.setMem (Memory.writeBytes s.mem (s.base + off) bs)

/-- The part of the sum of `LE(k, off)` over the bytes `i < n` (spec/20_memory.md R64). -/
def State.leSum (s : State) (k off : Nat) : Nat → Nat
  | 0 => 0
  | i + 1 => s.leSum k off i + (s.rb (off + i)).toNat * 2 ^ (8 * Config.byteWeight k i)

/-- `LE(k, off)` (spec/20_memory.md R64). -/
def State.le (s : State) (k off : Nat) : Nat := s.leSum k off k

/-- The `k` bytes of a put of `v`: byte `i` is `(v div 2^(8i)) mod 256` (spec/20_memory.md R64). -/
def leBytes (k v : Nat) : List Byte :=
  (List.range k).map fun i => BitVec.ofNat 8 (v / 2 ^ (8 * Config.byteWeight k i) % 256)

/-! ### The bit stream (spec/20_memory.md R66, R67) -/

/-- `SBit(p)` (R66). -/
def State.sbit (s : State) (p : Nat) : Nat :=
  (s.rb (p / 8)).toNat / 2 ^ Config.streamBit (p % 8) % 2

/-- `SBits(p, n)`: `n` stream bits from `p`, the first most significant (R67). -/
def State.sbits (s : State) (p : Nat) : Nat → Nat
  | 0 => 0
  | n + 1 => s.sbits p n * 2 + s.sbit (p + n)

/-- The first `k` bytes of a string of `tot` bits, oldest bit most significant
(spec/42_bit_cursor.md R199). -/
def topBytes (buf tot k : Nat) : List Byte :=
  (List.range k).map fun i => BitVec.ofNat 8 (buf / 2 ^ (tot - 8 * (i + 1)) % 256)

/-! ### The varint codec (spec/41_byte_cursor.md R142, R143) -/

/-- The loop of `DecVar` from byte `i` with the value `v` gathered so far; `fuel` is the number of bytes
it may still look at. -/
def State.decVarLoop (s : State) (off : Nat) : Nat → Nat → Nat → Option (Nat × Nat)
  | 0, _, _ => none
  | fuel + 1, i, v =>
    if off + i ≥ s.len then none
    else if i = Config.varMaxBytes - 1 ∧ (s.rb (off + i)).toNat > 1 then none
    else if (s.rb (off + i)).toNat < 128 then
      some (v + (s.rb (off + i)).toNat % 128 * 2 ^ (7 * i), i + 1)
    else s.decVarLoop off fuel (i + 1) (v + (s.rb (off + i)).toNat % 128 * 2 ^ (7 * i))

/-- `DecVar(off)`: value and length, or `none` for `FAIL` (R142). -/
def State.decVar (s : State) (off : Nat) : Option (Nat × Nat) :=
  s.decVarLoop off Config.varMaxBytes 0 0

/-- The loop of `EncVar`, for at most `fuel` bytes. -/
def encVarLoop : Nat → Nat → List Byte
  | 0, _ => []
  | fuel + 1, v =>
    if v / 128 > 0 then BitVec.ofNat 8 (v % 128 + 128) :: encVarLoop fuel (v / 128)
    else [BitVec.ofNat 8 (v % 128)]

/-- `EncVar(v)` for `v < 2^64`: the minimal encoding, 1 to 10 bytes (R143). -/
def encVar (v : Nat) : List Byte := encVarLoop Config.varMaxBytes v

/-- `bitlen(m)` (spec/00_scope.md R12). -/
def bitlen (m : Nat) : Nat := if m = 0 then 0 else Nat.log2 m + 1

/-! ### The end of a command -/

/-- The common end of every command (spec/10_state.md R25; spec/00_scope.md R6): `SEQ` advances and the
response is given. -/
def State.finish (s : State) (st : Status) (v v2 : Word) : State :=
  { s with seq := s.seq + 1, resp := some { status := st, val := v, val2 := v2 } }

/-- `resp(v, v2)`: the command ends with status 0. -/
def complete (s : State) (v v2 : Word) : Out := .next (s.finish .ok v v2)

/-- The sticky error (spec/60_exceptions.md R306): only the first fault is recorded, with the value of
`SEQ` before the increment. -/
def State.recordError (s : State) (st : Status) : State :=
  if s.err = .ok then { s with err := st, eseq := s.seq } else s

/-- TAKING A FAULT (spec/60_exceptions.md R305, R306): the one shared operation. `s` is the state with
what the rule says a fault leaves changed; `v`, `v2` is the response's value pair. -/
def raiseWith (st : Status) (v v2 : Word) (s : State) : Out :=
  .next ((s.recordError st).finish st v v2)

/-- `raise <Name>` (spec/00_scope.md R14): the fault step with the response `Resp(st, 0, 0)` (R305). -/
def raise (st : Status) (s : State) : Out := raiseWith st 0 0 s

/-- The counterpart of a return from a fault (spec/60_exceptions.md R311; spec/40_common_commands.md
R125): `ERR <- 0; ESEQ <- 0`. -/
def State.acknowledge (s : State) : State := { s with err := .ok, eseq := 0 }

end Sys2Proof.Machine
end

