-- ==== Sys2Proof/Machine/Flags.lean ====
section
/-! DEFINITION. The status codes (spec/60_exceptions.md R300), the `STATUS` word and the CSRs as `CSRR`
reads them (spec/10_state.md R26 to R28). HDTW has no arithmetic condition codes (R26). -/

namespace Sys2Proof.Machine

/-- The 4-bit code of a status (spec/60_exceptions.md R300). -/
def Status.code : Status → Nat
  | .ok => 0
  | .corruptData => 1
  | .outOfBounds => 2
  | .unsupportedFeature => 3
  | .unimplementedOperation => 4
  | .illegalCommand => 5

/-- CSR 0, `STATUS`: `ERR + 16·HVALID + 32·WCNT` (spec/10_state.md R26; spec/40_common_commands.md
R124). -/
def State.statusWord (s : State) : Word :=
  BitVec.ofNat 64 (s.err.code + 16 * s.hvalid.toNat + 32 * s.wcnt.toNat)

/-- `CSR[k]`, zero-extended to 64 bits (spec/10_state.md R27, R28); `none` for a reserved number. -/
def State.csr (s : State) : Nat → Option Word
  | 0 => some s.statusWord
  | 1 => some s.eseq
  | 2 => some s.seq
  | 3 => some (BitVec.ofNat 64 s.base)
  | 4 => some (BitVec.ofNat 64 s.len)
  | 5 => some (BitVec.ofNat 64 s.pos)
  | 6 => some (BitVec.ofNat 64 s.rbit)
  | 7 => some (s.wpend.zeroExtend 64)
  | 8 => some (s.uw.zeroExtend 64)
  | 9 => some (s.uref.zeroExtend 64)
  | 10 => some (BitVec.ofNat 64 s.udata)
  | 11 => some (s.un.zeroExtend 64)
  | 12 => some (s.ucnt.zeroExtend 64)
  | 13 => some (s.hacc.zeroExtend 64)
  | 14 => some (s.hnn.zeroExtend 64)
  | 15 => some (s.hnl.zeroExtend 64)
  | 16 => some (BitVec.ofNat 64 s.cap.memSize)
  | 17 => some (BitVec.ofNat 64 s.cap.ubufN)
  | 18 => some (BitVec.ofNat 64 s.cap.maxNodes)
  | 19 => some (BitVec.ofNat 64 s.cap.maxLeaves)
  | _ => none

end Sys2Proof.Machine
end

