-- ==== Sys2Proof/Machine/Operands.lean ====
section
/-! DEFINITION. The operand forms (spec/30_encoding.md R94, R95) and the addressing modes
(spec/40_common_commands.md R128). -/

namespace Sys2Proof.Machine

/-- `E = x[rs1] + imm32`, an exact sum of naturals, never truncated (spec/30_encoding.md R94). -/
def State.effective (s : State) (rs1 : Reg) (imm : Nat) : Nat := (s.reg rs1).toNat + imm

/-- A register operand as a natural number: a base, a length, a count, a value (R95). -/
def State.regNat (s : State) (r : Reg) : Nat := (s.reg r).toNat

/-- A bit count that a transfer accepts: 1 to 64 (spec/30_encoding.md R95; spec/42_bit_cursor.md
R193). -/
abbrev validCount (n : Nat) : Prop := 1 ≤ n ∧ n ≤ Config.bitsMax

/-- Are `k` bytes at offset `off` inside the byte range? Evaluated in the naturals
(spec/41_byte_cursor.md R141; spec/20_memory.md R62). -/
abbrev State.fits (s : State) (off k : Nat) : Prop := off + k ≤ s.len

/-- Are `n` bits at bit offset `p` inside the byte range? -/
abbrev State.bitsFit (s : State) (p n : Nat) : Prop := p + n ≤ 8 * s.len

/-- The bit offset of field `idx` of the packed buffer (spec/43_unpacker.md R221). -/
def State.fieldBit (s : State) (idx : Nat) : Nat := 8 * s.udata + idx * s.uw.toNat

/-- `Field(idx)`: `UW` stream bits (spec/43_unpacker.md R221). -/
def State.field (s : State) (idx : Nat) : Nat := s.sbits (s.fieldBit idx) s.uw.toNat

/-- The entry of `HN` at a node number (spec/10_state.md R37). A node number outside the table occurs in
no state that satisfies `State.Inv`; it reads as the all-zero entry (log 10). -/
def State.node (s : State) (k : Nat) : NodeEntry := s.hn.getD k { bl := 0, ptr := 0 }

/-- The entry of `HL` at a leaf index (spec/10_state.md R37), likewise. -/
def State.leaf (s : State) (j : Nat) : LeafEntry := s.hl.getD j { value := 0, clen := 0 }

/-- The entry of `UBUF` at an index (spec/10_state.md R36), likewise. -/
def State.bufEntry (s : State) (k : Nat) : BitVec 32 := s.ubuf.getD k 0

end Sys2Proof.Machine
end

