-- ==== Sys2Proof/Machine/Common.lean ====
section
/-! DEFINITION. The common commands (spec/40_common_commands.md R120 to R125). -/

namespace Sys2Proof.Machine

/-- `NOP` (R120): nothing but the end of a command. -/
def execNop (s : State) : Out := complete s 0 0

/-- `x[rd] <- v; resp(v)`, the end of the commands that deliver one value. -/
def deliver (rd : Reg) (v : Word) (s : State) : Out := complete (s.setReg rd v) v 0

/-- `LI rd, imm32` (R121). -/
def execLi (rd : Reg) (imm : Nat) (s : State) : Out := deliver rd (BitVec.ofNat 64 imm) s

/-- `LIH rd, imm32` (R122): the lower 32 bits are kept. -/
def execLih (rd : Reg) (imm : Nat) (s : State) : Out :=
  deliver rd (BitVec.ofNat 64 (imm * 2 ^ 32 + s.regNat rd % 2 ^ 32)) s

/-- `MOV rd, rs1` (R123). -/
def execMov (rd rs1 : Reg) (s : State) : Out := deliver rd (s.reg rs1) s

/-- `CSRR rd, imm32` (R124): a reserved CSR number raises `IllegalCommand`. -/
def execCsrr (rd : Reg) (imm : Nat) (s : State) : Out :=
  match s.csr imm with
  | some v => deliver rd v s
  | none => raise .illegalCommand s

/-- `CLRERR` (R125; spec/60_exceptions.md R311). -/
def execClrerr (s : State) : Out := complete s.acknowledge 0 0

end Sys2Proof.Machine
end

