-- ==== Sys2Proof/Machine/BitCursor.lean ====
section
/-! DEFINITION. The Bit Cursor commands, reader and writer (spec/42_bit_cursor.md R194 to R201). -/

namespace Sys2Proof.Machine

/-! ### Reader -/

/-- `BR.OPEN` (R194). -/
def execBrOpen (s : State) : Out := complete (s.setRbit (8 * s.pos)) 0 0

/-- `BR.SEEK rs1, imm32` (R195). -/
def execBrSeek (rs1 : Reg) (imm : Nat) (s : State) : Out :=
  if s.effective rs1 imm ≤ 8 * s.len then complete (s.setRbit (s.effective rs1 imm)) 0 0
  else raise .outOfBounds s

/-- `nextBits(n)` (R196): the count is checked before the bounds. -/
def nextBits (rd : Reg) (n : Nat) (s : State) : Out :=
  if validCount n then
    if s.bitsFit s.rbit n then
      deliver rd (BitVec.ofNat 64 (s.sbits s.rbit n)) (s.setRbit (s.rbit + n))
    else raise .outOfBounds s
  else raise .unsupportedFeature s

/-- `BR.NEXT rd, n` (R196). -/
def execBrNext (rd : Reg) (n : Nat) (s : State) : Out := nextBits rd n s

/-- `BR.NEXTV rd, rs1` (R197): the count is the full 64-bit register. -/
def execBrNextv (rd rs1 : Reg) (s : State) : Out := nextBits rd (s.regNat rs1) s

/-- `BR.HASNEXT rd` (R198). -/
def execBrHasnext (rd : Reg) (s : State) : Out :=
  deliver rd (if s.rbit < 8 * s.len then 1 else 0) s

/-! ### Writer -/

/-- The bit string a push makes of the pending bits and the `n` new ones: `WPEND·2^n + v mod 2^n`
(R199). -/
def State.pushed (s : State) (v n : Nat) : Nat := s.wpend.toNat * 2 ^ n + v % 2 ^ n

/-- The number of bits of that string, `tot` of R199. -/
def State.pushedBits (s : State) (n : Nat) : Nat := s.wcnt.toNat + n

/-- The effect of a push that fits: the complete bytes stored at `POS`, `POS` advanced, the remaining
bits pending (R199). -/
def State.push (s : State) (v n : Nat) : State :=
  ((s.putBytes s.pos (topBytes (s.pushed v n) (s.pushedBits n) (s.pushedBits n / 8))).setPos
    (s.pos + s.pushedBits n / 8)).setWriter (s.pushedBits n % 8)
      (s.pushed v n % 2 ^ (s.pushedBits n % 8))

/-- `pushBits(v, n)` (R199): the count is checked before the bounds. -/
def pushBits (v n : Nat) (s : State) : Out :=
  if validCount n then
    if s.fits s.pos (s.pushedBits n / 8) then complete (s.push v n) 0 0
    else raise .outOfBounds s
  else raise .unsupportedFeature s

/-- `BW.PUSH rs2, n` (R199). -/
def execBwPush (rs2 : Reg) (n : Nat) (s : State) : Out := pushBits (s.regNat rs2) n s

/-- `BW.PUSHV rs2, rs1` (R200): the count is the full 64-bit register. -/
def execBwPushv (rs2 rs1 : Reg) (s : State) : Out := pushBits (s.regNat rs2) (s.regNat rs1) s

/-- The byte `BW.FLUSH` writes: the pending bits at the top, zeros below (R201). -/
def State.flushByte (s : State) : Byte :=
  BitVec.ofNat 8 (s.wpend.toNat * 2 ^ (8 - s.wcnt.toNat))

/-- `BW.FLUSH` (R201). -/
def execBwFlush (s : State) : Out :=
  if s.wcnt = 0 then complete s 0 0
  else if s.fits s.pos 1 then
    complete (((s.putBytes s.pos [s.flushByte]).setPos (s.pos + 1)).setWriter 0 0) 0 0
  else raise .outOfBounds s

end Sys2Proof.Machine
end

