-- ==== Sys2Proof/Machine/ByteCursor.lean ====
section
/-! DEFINITION. The Byte Cursor commands (spec/41_byte_cursor.md R145 to R172). -/

namespace Sys2Proof.Machine

/-! ### Range and position -/

/-- `BC.SETRANGE rs1, rs2` (R145). -/
def execBcSetrange (rs1 rs2 : Reg) (s : State) : Out :=
  if s.regNat rs1 + s.regNat rs2 ≤ s.cap.memSize then
    complete (s.setRange (s.regNat rs1) (s.regNat rs2)) 0 0
  else raise .outOfBounds s

/-- `BC.SEEK rs1, imm32` (R146). -/
def execBcSeek (rs1 : Reg) (imm : Nat) (s : State) : Out :=
  if s.effective rs1 imm ≤ s.len then complete (s.setPos (s.effective rs1 imm)) 0 0
  else raise .outOfBounds s

/-- `BC.RESET` (R147). -/
def execBcReset (s : State) : Out := complete (s.setPos 0) 0 0

/-! ### Fixed-width get -/

/-- A get of `k` bytes at the current position (R141, R150 to R153). -/
def getHere (k : Nat) (rd : Reg) (s : State) : Out :=
  if s.fits s.pos k then
    deliver rd (BitVec.ofNat 64 (s.le k s.pos)) (s.setPos (s.pos + k))
  else raise .outOfBounds s

/-- A get of `k` bytes at an explicit offset (R141, R154 to R157). -/
def getAt (k : Nat) (rd rs1 : Reg) (imm : Nat) (s : State) : Out :=
  if s.fits (s.effective rs1 imm) k then
    deliver rd (BitVec.ofNat 64 (s.le k (s.effective rs1 imm))) s
  else raise .outOfBounds s

/-- `BC.GET8 rd` (R150). -/
def execBcGet8 (rd : Reg) (s : State) : Out := getHere 1 rd s

/-- `BC.GET16 rd` (R151). -/
def execBcGet16 (rd : Reg) (s : State) : Out := getHere 2 rd s

/-- `BC.GET32 rd` (R152). -/
def execBcGet32 (rd : Reg) (s : State) : Out := getHere 4 rd s

/-- `BC.GET64 rd` (R153). -/
def execBcGet64 (rd : Reg) (s : State) : Out := getHere 8 rd s

/-- `BC.GETO8 rd, rs1, imm32` (R154). -/
def execBcGeto8 (rd rs1 : Reg) (imm : Nat) (s : State) : Out := getAt 1 rd rs1 imm s

/-- `BC.GETO16 rd, rs1, imm32` (R155). -/
def execBcGeto16 (rd rs1 : Reg) (imm : Nat) (s : State) : Out := getAt 2 rd rs1 imm s

/-- `BC.GETO32 rd, rs1, imm32` (R156). -/
def execBcGeto32 (rd rs1 : Reg) (imm : Nat) (s : State) : Out := getAt 4 rd rs1 imm s

/-- `BC.GETO64 rd, rs1, imm32` (R157). -/
def execBcGeto64 (rd rs1 : Reg) (imm : Nat) (s : State) : Out := getAt 8 rd rs1 imm s

/-! ### Fixed-width put -/

/-- A put of the low `k` bytes of `x[rs2]` at the current position (R141, R160 to R163). -/
def putHere (k : Nat) (rs2 : Reg) (s : State) : Out :=
  if s.fits s.pos k then
    complete ((s.putBytes s.pos (leBytes k (s.regNat rs2))).setPos (s.pos + k)) 0 0
  else raise .outOfBounds s

/-- A put of the low `k` bytes of `x[rs2]` at an explicit offset (R141, R164 to R167). -/
def putAt (k : Nat) (rs2 rs1 : Reg) (imm : Nat) (s : State) : Out :=
  if s.fits (s.effective rs1 imm) k then
    complete (s.putBytes (s.effective rs1 imm) (leBytes k (s.regNat rs2))) 0 0
  else raise .outOfBounds s

/-- `BC.PUT8 rs2` (R160). -/
def execBcPut8 (rs2 : Reg) (s : State) : Out := putHere 1 rs2 s

/-- `BC.PUT16 rs2` (R161). -/
def execBcPut16 (rs2 : Reg) (s : State) : Out := putHere 2 rs2 s

/-- `BC.PUT32 rs2` (R162). -/
def execBcPut32 (rs2 : Reg) (s : State) : Out := putHere 4 rs2 s

/-- `BC.PUT64 rs2` (R163). -/
def execBcPut64 (rs2 : Reg) (s : State) : Out := putHere 8 rs2 s

/-- `BC.PUTO8 rs2, rs1, imm32` (R164). -/
def execBcPuto8 (rs2 rs1 : Reg) (imm : Nat) (s : State) : Out := putAt 1 rs2 rs1 imm s

/-- `BC.PUTO16 rs2, rs1, imm32` (R165). -/
def execBcPuto16 (rs2 rs1 : Reg) (imm : Nat) (s : State) : Out := putAt 2 rs2 rs1 imm s

/-- `BC.PUTO32 rs2, rs1, imm32` (R166). -/
def execBcPuto32 (rs2 rs1 : Reg) (imm : Nat) (s : State) : Out := putAt 4 rs2 rs1 imm s

/-- `BC.PUTO64 rs2, rs1, imm32` (R167). -/
def execBcPuto64 (rs2 rs1 : Reg) (imm : Nat) (s : State) : Out := putAt 8 rs2 rs1 imm s

/-! ### Variable length -/

/-- `x[rd] <- v; x[rd2] <- l`, in that order (spec/10_state.md R23), and `resp(v, l)`. -/
def deliverPair (rd rd2 : Reg) (v l : Nat) (s : State) : Out :=
  complete ((s.setReg rd (BitVec.ofNat 64 v)).setReg rd2 (BitVec.ofNat 64 l)) (BitVec.ofNat 64 v)
    (BitVec.ofNat 64 l)

/-- The failure of `getVarUint` (R170): the sentinel in `x[rd2]` and in the response. -/
def failVar (rd2 : Reg) (s : State) : Out :=
  raiseWith .corruptData 0 sentinel (s.setReg rd2 sentinel)

/-- `BC.GETVAR rd, rd2` (R170). -/
def execBcGetvar (rd rd2 : Reg) (s : State) : Out :=
  match s.decVar s.pos with
  | none => failVar rd2 s
  | some (v, l) => deliverPair rd rd2 v l (s.setPos (s.pos + l))

/-- `BC.GETVARO rd, rd2, rs1, imm32` (R171). -/
def execBcGetvaro (rd rd2 rs1 : Reg) (imm : Nat) (s : State) : Out :=
  match s.decVar (s.effective rs1 imm) with
  | none => failVar rd2 s
  | some (v, l) => deliverPair rd rd2 v l s

/-- `BC.PUTVAR rd, rs2` (R172). -/
def execBcPutvar (rd rs2 : Reg) (s : State) : Out :=
  if s.fits s.pos (encVar (s.regNat rs2)).length then
    deliver rd (BitVec.ofNat 64 (encVar (s.regNat rs2)).length)
      ((s.putBytes s.pos (encVar (s.regNat rs2))).setPos (s.pos + (encVar (s.regNat rs2)).length))
  else raise .outOfBounds s

end Sys2Proof.Machine
end

