-- ==== Sys2Proof/Machine/Huffman.lean ====
section
/-! DEFINITION. The Huffman decode tree walker commands (spec/44_huffman.md R270, R275, R276). -/

namespace Sys2Proof.Machine

/-! ### Construction (R261 to R265, R270) -/

/-- A node record as it lies in the table (R261): its offset `S[k]` from the start of the table, its
`bitLength` and its `initialChildPtr`. -/
structure NodeRecord where
  start : Nat
  bl : Byte
  ptr : Nat
deriving DecidableEq, Repr

/-- Step 3 of R270: `count` node records from offset `o` of the table at `t`; the records and the offset
after them, or `none` where a check fails. -/
def State.nodeRecords (s : State) (t : Nat) : Nat → Nat → Option (List NodeRecord × Nat)
  | 0, o => some ([], o)
  | count + 1, o =>
    if t + o < s.len then
      match s.decVar (t + o + 1) with
      | none => none
      | some (p, l) =>
        if p < Config.idLimit then
          match s.nodeRecords t count (o + 1 + l) with
          | none => none
          | some (rs, oEnd) => some ({ start := o, bl := s.rb (t + o), ptr := p } :: rs, oEnd)
        else none
    else none

/-- Step 4 of R270: leaf record `j` of the leaf table at offset `lt` (R262). -/
def State.leafRecord (s : State) (lt j : Nat) : LeafEntry :=
  { value := BitVec.ofNat 32 (s.le Config.leafValueBytes (lt + Config.leafStride * j))
    clen :=
      BitVec.ofNat 24
        (s.le Config.leafClenBytes (lt + Config.leafStride * j + Config.leafValueBytes)) }

/-- The node number of the record that starts at offset `p` (R264). -/
def recordAt : List NodeRecord → Nat → Option Nat
  | [], _ => none
  | r :: rs, p => if r.start = p then some 0 else (recordAt rs p).map (· + 1)

/-- Step 5 of R270 for one record: the pointer of a non-terminal node becomes the node number of its
child for bit 0, which is not the root and has a successor; a terminal node names a leaf record with its
own bit-length. -/
def resolveNode (recs : List NodeRecord) (leaves : List LeafEntry) (r : NodeRecord) :
    Option NodeEntry :=
  if r.bl = 0 then
    match recordAt recs r.ptr with
    | none => none
    | some c =>
      if 1 ≤ c ∧ c + 1 < recs.length then some { bl := 0, ptr := BitVec.ofNat 32 c } else none
  else
    match leaves[r.ptr]? with
    | none => none
    | some e =>
      if e.clen.toNat = r.bl.toNat then some { bl := r.bl, ptr := BitVec.ofNat 32 r.ptr } else none

/-- Step 5 of R270 for a list of records, in order. -/
def resolveNodes (recs : List NodeRecord) (leaves : List LeafEntry) :
    List NodeRecord → Option (List NodeEntry)
  | [] => some []
  | r :: rs =>
    match resolveNode recs leaves r with
    | none => none
    | some e =>
      match resolveNodes recs leaves rs with
      | none => none
      | some es => some (e :: es)

/-- A deserialized node table: the entries of `HN` and `HL`, and the offset of the first byte after the
table (R263). -/
structure Table where
  nodes : List NodeEntry
  leaves : List LeafEntry
  after : Nat
deriving DecidableEq, Repr

/-- The root is never terminal (R270 step 5). -/
def rootNonTerminal : List NodeRecord → Bool
  | [] => false
  | r :: _ => r.bl == 0

/-- Steps 2 to 5 of R270 but for the clearing of the old tree: the table of `nn` node and `nl` leaf
records at `POS`, or `none`, where every failing check raises `CorruptData`. -/
def State.readTable (s : State) (nn nl : Nat) : Option Table :=
  if Config.minNodes ≤ nn then
    match s.nodeRecords s.pos nn 0 with
    | none => none
    | some (recs, l) =>
      if s.pos + l + Config.leafStride * nl ≤ s.len then
        if rootNonTerminal recs then
          match resolveNodes recs ((List.range nl).map (s.leafRecord (s.pos + l))) recs with
          | none => none
          | some nodes =>
            some
              { nodes := nodes
                leaves := (List.range nl).map (s.leafRecord (s.pos + l))
                after := s.pos + l + Config.leafStride * nl }
        else none
      else none
  else none

/-- `HUF.LOAD rs1, rs2` (R270): a failure of the capacity check changes nothing, any later one leaves no
tree (R272). -/
def execHufLoad (rs1 rs2 : Reg) (s : State) : Out :=
  if s.regNat rs1 ≤ s.cap.maxNodes ∧ s.regNat rs2 ≤ s.cap.maxLeaves then
    match s.readTable (s.regNat rs1) (s.regNat rs2) with
    | none => raise .corruptData s.clearTree
    | some t => complete ((s.setTree t.nodes t.leaves).setPos t.after) 0 0
  else raise .unsupportedFeature s

/-! ### Decode (R275) -/

/-- Where a walk ended: the terminal node and the number of bits consumed. -/
structure WalkEnd where
  node : Nat
  bits : Nat
deriving DecidableEq, Repr

/-- The loop of R275 from node `cur` with `cnt` bits consumed from bit offset `p0`; `none` where a check
fails. `fuel` is the number of bits it may still consume. -/
def State.walk (s : State) (p0 : Nat) : Nat → Nat → Nat → Option WalkEnd
  | 0, _, _ => none
  | fuel + 1, cur, cnt =>
    if p0 + cnt < 8 * s.len then
      if (s.node ((s.node cur).ptr.toNat + s.sbit (p0 + cnt))).bl.toNat = cnt + 1 then
        some { node := (s.node cur).ptr.toNat + s.sbit (p0 + cnt), bits := cnt + 1 }
      else if (s.node ((s.node cur).ptr.toNat + s.sbit (p0 + cnt))).bl = 0 ∧
          cnt + 1 < Config.walkMax then
        s.walk p0 fuel ((s.node cur).ptr.toNat + s.sbit (p0 + cnt)) (cnt + 1)
      else none
    else none

/-- The walk of one symbol: from the root, no bit consumed, at `RBIT` (R266, R275). -/
def State.decodeSymbol (s : State) : Option WalkEnd := s.walk s.rbit Config.walkMax 0 0

/-- The decoded value of a walk: the `value` of the leaf record the terminal node names (R265). -/
def State.symbolValue (s : State) (w : WalkEnd) : Nat :=
  (s.leaf (s.node w.node).ptr.toNat).value.toNat

/-- `HUF.DEC rd, rd2` (R275). -/
def execHufDec (rd rd2 : Reg) (s : State) : Out :=
  if s.hvalid then
    match s.decodeSymbol with
    | none => raise .corruptData s
    | some w =>
      if s.hacc.toNat + s.symbolValue w < Config.idLimit then
        deliverPair rd rd2 (s.symbolValue w) w.bits
          ((s.setRbit (s.rbit + w.bits)).setAcc (s.hacc.toNat + s.symbolValue w))
      else raise .corruptData s
  else raise .illegalCommand s

/-- `HUF.ACCSET rs1, imm32` (R276). -/
def execHufAccset (rs1 : Reg) (imm : Nat) (s : State) : Out :=
  if s.effective rs1 imm < Config.idLimit then complete (s.setAcc (s.effective rs1 imm)) 0 0
  else raise .outOfBounds s

end Sys2Proof.Machine
end

