-- ==== Sys2Proof/Machine/Unpacker.lean ====
section
/-! DEFINITION. The Fixed-Width Unpacker array and frame-of-reference commands
(spec/43_unpacker.md R225 to R234). -/

namespace Sys2Proof.Machine

/-! ### Set-up -/

/-- A lane width: 1 to 32 (R220). -/
abbrev validLane (w : Nat) : Prop := 1 ≤ w ∧ w ≤ Config.lanes

/-- `UNP.SEL rs1, imm32` (R225). -/
def execUnpSel (rs1 : Reg) (imm : Nat) (s : State) : Out :=
  if validLane (s.effective rs1 imm) then complete (s.setLane (s.effective rs1 imm)) 0 0
  else raise .unsupportedFeature s

/-- `UNP.BASE rs1, imm32` (R226). -/
def execUnpBase (rs1 : Reg) (imm : Nat) (s : State) : Out :=
  if s.effective rs1 imm ≤ s.len then complete (s.setUdata (s.effective rs1 imm)) 0 0
  else raise .outOfBounds s

/-- `UNP.COUNT rs1, imm32` (R227). -/
def execUnpCount (rs1 : Reg) (imm : Nat) (s : State) : Out :=
  if s.effective rs1 imm < 2 ^ 32 then complete (s.setCount (s.effective rs1 imm)) 0 0
  else raise .outOfBounds s

/-- The payload size of a block of `UN` fields of width `w`: `ceil(UN·w / 8)` bytes (R223, R229;
`ceil` as in spec/00_scope.md R12). -/
def State.payload (s : State) (w : Nat) : Nat := (s.un.toNat * w + 8 - 1) / 8

/-- `UNP.HDR rd` (R229): the checks in the written order. -/
def execUnpHdr (rd : Reg) (s : State) : Out :=
  if s.pos < s.len then
    if validLane (s.rb s.pos).toNat then
      match s.decVar (s.pos + 1) with
      | none => raise .corruptData s
      | some (v, l) =>
        if v < Config.idLimit then
          if s.fits s.pos (1 + l + s.payload (s.rb s.pos).toNat) then
            deliver rd (BitVec.ofNat 64 (1 + l + s.payload (s.rb s.pos).toNat))
              ((s.setBlock (s.rb s.pos).toNat v (s.pos + 1 + l)).setPos
                (s.pos + 1 + l + s.payload (s.rb s.pos).toNat))
          else raise .corruptData s
        else raise .corruptData s
    else raise .unsupportedFeature s
  else raise .corruptData s

/-! ### Single fields -/

/-- The three checks of a single-field command and the field (R228), then `use` on it. -/
def withField (idx : Nat) (s : State) (use : Nat → Out) : Out :=
  if s.uw = 0 then raise .unsupportedFeature s
  else if s.un.toNat ≤ idx then raise .outOfBounds s
  else if s.fieldBit (idx + 1) ≤ 8 * s.len then use (s.field idx)
  else raise .corruptData s

/-- `UNP.GET rd, rs1, imm32` (R228). -/
def execUnpGet (rd rs1 : Reg) (imm : Nat) (s : State) : Out :=
  withField (s.effective rs1 imm) s fun f => deliver rd (BitVec.ofNat 64 f) s

/-- `UNP.AT rd, rs1, imm32` (R230): a sum that is not a 32-bit ID raises `CorruptData`. -/
def execUnpAt (rd rs1 : Reg) (imm : Nat) (s : State) : Out :=
  withField (s.effective rs1 imm) s fun f =>
    if s.uref.toNat + f < Config.idLimit then deliver rd (BitVec.ofNat 64 (s.uref.toNat + f)) s
    else raise .corruptData s

/-! ### Runs -/

/-- The fields `first .. first + count - 1` (R231). -/
def State.fields (s : State) (first count : Nat) : List Nat :=
  (List.range count).map fun k => s.field (first + k)

/-- The checks of a run command and its fields (R231), then `use` on them. -/
def withRun (first count : Nat) (s : State) (use : List Nat → Out) : Out :=
  if s.uw = 0 then raise .unsupportedFeature s
  else if s.cap.ubufN < count then raise .outOfBounds s
  else if s.un.toNat < first + count then raise .outOfBounds s
  else if count = 0 ∨ s.fieldBit (first + count) ≤ 8 * s.len then use (s.fields first count)
  else raise .corruptData s

/-- `UNP.RUN rs1, rs2` (R231). -/
def execUnpRun (rs1 rs2 : Reg) (s : State) : Out :=
  withRun (s.regNat rs1) (s.regNat rs2) s fun fs => complete (s.setRun fs) 0 0

/-- `UNP.RUNREF rs1, rs2` (R232): all sums are checked before any entry is written. -/
def execUnpRunref (rs1 rs2 : Reg) (s : State) : Out :=
  withRun (s.regNat rs1) (s.regNat rs2) s fun fs =>
    if ∀ f ∈ fs, s.uref.toNat + f < Config.idLimit then
      complete (s.setRun (fs.map fun f => s.uref.toNat + f)) 0 0
    else raise .corruptData s

/-- `UNP.RD rd, rs1, imm32` (R233). -/
def execUnpRd (rd rs1 : Reg) (imm : Nat) (s : State) : Out :=
  if s.effective rs1 imm < s.ucnt.toNat then
    deliver rd ((s.bufEntry (s.effective rs1 imm)).zeroExtend 64) s
  else raise .outOfBounds s

/-! ### Encode-side helper -/

/-- `UNP.MINW rd, rs1` (R234, R235): `max(1, bitlen(m))`. -/
def execUnpMinw (rd rs1 : Reg) (s : State) : Out :=
  if s.regNat rs1 < Config.idLimit then
    deliver rd (BitVec.ofNat 64 (max 1 (bitlen (s.regNat rs1)))) s
  else raise .unsupportedFeature s

end Sys2Proof.Machine
end

