-- ==== Sys2Proof/Machine/Dispatch.lean ====
section
/-! DEFINITION. The dispatch: one arm per command (spec/30_encoding.md R96), each one call of its
meaning. -/

namespace Sys2Proof.Machine

/-- The meaning of a command, from the state before it to the state after its response. -/
def exec (i : Instr) (s : State) : Host.Outcome State Fault Refusal :=
  match i with
  | .nop => Sys2Proof.Machine.execNop s
  | .li rd imm => Sys2Proof.Machine.execLi rd imm s
  | .lih rd imm => Sys2Proof.Machine.execLih rd imm s
  | .mov rd rs1 => Sys2Proof.Machine.execMov rd rs1 s
  | .csrr rd imm => Sys2Proof.Machine.execCsrr rd imm s
  | .clrerr => Sys2Proof.Machine.execClrerr s
  | .bcSetrange rs1 rs2 => Sys2Proof.Machine.execBcSetrange rs1 rs2 s
  | .bcSeek rs1 imm => Sys2Proof.Machine.execBcSeek rs1 imm s
  | .bcReset => Sys2Proof.Machine.execBcReset s
  | .bcGet8 rd => Sys2Proof.Machine.execBcGet8 rd s
  | .bcGet16 rd => Sys2Proof.Machine.execBcGet16 rd s
  | .bcGet32 rd => Sys2Proof.Machine.execBcGet32 rd s
  | .bcGet64 rd => Sys2Proof.Machine.execBcGet64 rd s
  | .bcGeto8 rd rs1 imm => Sys2Proof.Machine.execBcGeto8 rd rs1 imm s
  | .bcGeto16 rd rs1 imm => Sys2Proof.Machine.execBcGeto16 rd rs1 imm s
  | .bcGeto32 rd rs1 imm => Sys2Proof.Machine.execBcGeto32 rd rs1 imm s
  | .bcGeto64 rd rs1 imm => Sys2Proof.Machine.execBcGeto64 rd rs1 imm s
  | .bcPut8 rs2 => Sys2Proof.Machine.execBcPut8 rs2 s
  | .bcPut16 rs2 => Sys2Proof.Machine.execBcPut16 rs2 s
  | .bcPut32 rs2 => Sys2Proof.Machine.execBcPut32 rs2 s
  | .bcPut64 rs2 => Sys2Proof.Machine.execBcPut64 rs2 s
  | .bcPuto8 rs2 rs1 imm => Sys2Proof.Machine.execBcPuto8 rs2 rs1 imm s
  | .bcPuto16 rs2 rs1 imm => Sys2Proof.Machine.execBcPuto16 rs2 rs1 imm s
  | .bcPuto32 rs2 rs1 imm => Sys2Proof.Machine.execBcPuto32 rs2 rs1 imm s
  | .bcPuto64 rs2 rs1 imm => Sys2Proof.Machine.execBcPuto64 rs2 rs1 imm s
  | .bcGetvar rd rd2 => Sys2Proof.Machine.execBcGetvar rd rd2 s
  | .bcGetvaro rd rd2 rs1 imm => Sys2Proof.Machine.execBcGetvaro rd rd2 rs1 imm s
  | .bcPutvar rd rs2 => Sys2Proof.Machine.execBcPutvar rd rs2 s
  | .brOpen => Sys2Proof.Machine.execBrOpen s
  | .brSeek rs1 imm => Sys2Proof.Machine.execBrSeek rs1 imm s
  | .brNext rd n => Sys2Proof.Machine.execBrNext rd n s
  | .brNextv rd rs1 => Sys2Proof.Machine.execBrNextv rd rs1 s
  | .brHasnext rd => Sys2Proof.Machine.execBrHasnext rd s
  | .bwPush rs2 n => Sys2Proof.Machine.execBwPush rs2 n s
  | .bwPushv rs2 rs1 => Sys2Proof.Machine.execBwPushv rs2 rs1 s
  | .bwFlush => Sys2Proof.Machine.execBwFlush s
  | .unpSel rs1 imm => Sys2Proof.Machine.execUnpSel rs1 imm s
  | .unpBase rs1 imm => Sys2Proof.Machine.execUnpBase rs1 imm s
  | .unpCount rs1 imm => Sys2Proof.Machine.execUnpCount rs1 imm s
  | .unpGet rd rs1 imm => Sys2Proof.Machine.execUnpGet rd rs1 imm s
  | .unpHdr rd => Sys2Proof.Machine.execUnpHdr rd s
  | .unpAt rd rs1 imm => Sys2Proof.Machine.execUnpAt rd rs1 imm s
  | .unpRun rs1 rs2 => Sys2Proof.Machine.execUnpRun rs1 rs2 s
  | .unpRunref rs1 rs2 => Sys2Proof.Machine.execUnpRunref rs1 rs2 s
  | .unpRd rd rs1 imm => Sys2Proof.Machine.execUnpRd rd rs1 imm s
  | .unpMinw rd rs1 => Sys2Proof.Machine.execUnpMinw rd rs1 s
  | .hufLoad rs1 rs2 => Sys2Proof.Machine.execHufLoad rs1 rs2 s
  | .hufDec rd rd2 => Sys2Proof.Machine.execHufDec rd rd2 s
  | .hufAccset rs1 imm => Sys2Proof.Machine.execHufAccset rs1 imm s

end Sys2Proof.Machine
end

