-- ==== Sys2Proof/Machine/Port.lean ====
section
/-! DEFINITION. What HDTW does with one event at its ports: a command word, a host access to `MEM`, a
`Reset` (spec/00_scope.md R5 to R7; spec/70_reset_and_hazards.md R330). -/

namespace Sys2Proof.Machine

/-- `Issue(C)` (R5): the word is decoded and its command executed; a word that is no command ends with
`IllegalCommand` (spec/30_encoding.md R93; spec/60_exceptions.md R304). -/
def issueWord (c : CommandWord) (s : State) : Out :=
  match decode c with
  | .ok i => exec i s
  | .error _ => raise .illegalCommand s

/-- The host writes a byte of `MEM` between commands (R7); an address at or beyond `MEM_SIZE` does not
exist (spec/20_memory.md R60; log 11). -/
def hostWrite (addr : Nat) (b : Byte) (s : State) : Out :=
  if addr < s.cap.memSize then .next (s.setMem (Memory.write s.mem addr b))
  else .fault (.absentAddress addr)

/-- `Reset` (spec/10_state.md R50; spec/70_reset_and_hazards.md R330): `MEM` and the capacities are not
changed; the response latch is emptied and the host's later events stand (log 18). The tables are
unspecified, and R330 allows zero (log 7). -/
def hostReset (s : State) : Out :=
  .next { State.powerUp s.cap s.mem s.input with draws := s.draws }

/-- Between commands HDTW is idle and holds all its state (spec/60_exceptions.md R322; log 2). -/
def idle (s : State) : Out := .next s

/-- The event at the head of the host's list, taken. -/
def takeEvent (e : HostEvent) (s : State) : Out :=
  match e with
  | .issue c => issueWord c s
  | .write addr b => hostWrite addr b s
  | .reset => hostReset s

/-- The command word of a table row, put where the next step takes its command from: at the head of the
host's events. -/
def presentWord (s : State) (nbits w : Nat) : State :=
  s.setInput (.issue (BitVec.ofNat 64 (w % 2 ^ nbits)) :: s.input)

end Sys2Proof.Machine
end

