-- ==== Sys2Proof/Machine/Step.lean ====
section
/-! DEFINITION. One step: the next event of the host's list, whole (spec/00_scope.md R5;
spec/20_memory.md R72: host accesses and whole commands, totally ordered). -/

namespace Sys2Proof.Machine

/-- One step. HDTW has no program counter and no fetch (spec/10_state.md R24): the command comes from
the command port. -/
def step (s : State) : Host.Outcome State Fault Refusal :=
  match s.input with
  | [] => idle s
  | e :: es => takeEvent e (s.setInput es)

/-- `s` with the command word of a table row presented next on the command port. -/
def State.withFetchWord (s : State) (nbits w : Nat) : State := presentWord s nbits w

end Sys2Proof.Machine
end

