-- ==== Sys2Proof/Machine/Assembler.lean ====
section
/-! DEFINITION. The assembler's side of the command set: mnemonics, the text of a command, the reader of
a line of text (spec/30_encoding.md R96, R100) and the pseudo-commands (R101). The hardware never sees
it. -/

namespace Sys2Proof.Machine

/-- A register's name (R100). -/
def regText : Reg → String
  | .x0 => "x0" | .x1 => "x1" | .x2 => "x2" | .x3 => "x3"
  | .x4 => "x4" | .x5 => "x5" | .x6 => "x6" | .x7 => "x7"

/-- A mnemonic and its operands, separated by commas (R100). -/
def commandText (mnemonic : String) (operands : List String) : String :=
  match operands with
  | [] => mnemonic
  | _ => mnemonic ++ " " ++ String.intercalate ", " operands

/-- The mnemonic of a command, as R96 spells it. -/
def mnemonicOf : Instr → String
  | .nop => "NOP"
  | .li _ _ => "LI"
  | .lih _ _ => "LIH"
  | .mov _ _ => "MOV"
  | .csrr _ _ => "CSRR"
  | .clrerr => "CLRERR"
  | .bcSetrange _ _ => "BC.SETRANGE"
  | .bcSeek _ _ => "BC.SEEK"
  | .bcReset => "BC.RESET"
  | .bcGet8 _ => "BC.GET8"
  | .bcGet16 _ => "BC.GET16"
  | .bcGet32 _ => "BC.GET32"
  | .bcGet64 _ => "BC.GET64"
  | .bcGeto8 _ _ _ => "BC.GETO8"
  | .bcGeto16 _ _ _ => "BC.GETO16"
  | .bcGeto32 _ _ _ => "BC.GETO32"
  | .bcGeto64 _ _ _ => "BC.GETO64"
  | .bcPut8 _ => "BC.PUT8"
  | .bcPut16 _ => "BC.PUT16"
  | .bcPut32 _ => "BC.PUT32"
  | .bcPut64 _ => "BC.PUT64"
  | .bcPuto8 _ _ _ => "BC.PUTO8"
  | .bcPuto16 _ _ _ => "BC.PUTO16"
  | .bcPuto32 _ _ _ => "BC.PUTO32"
  | .bcPuto64 _ _ _ => "BC.PUTO64"
  | .bcGetvar _ _ => "BC.GETVAR"
  | .bcGetvaro _ _ _ _ => "BC.GETVARO"
  | .bcPutvar _ _ => "BC.PUTVAR"
  | .brOpen => "BR.OPEN"
  | .brSeek _ _ => "BR.SEEK"
  | .brNext _ _ => "BR.NEXT"
  | .brNextv _ _ => "BR.NEXTV"
  | .brHasnext _ => "BR.HASNEXT"
  | .bwPush _ _ => "BW.PUSH"
  | .bwPushv _ _ => "BW.PUSHV"
  | .bwFlush => "BW.FLUSH"
  | .unpSel _ _ => "UNP.SEL"
  | .unpBase _ _ => "UNP.BASE"
  | .unpCount _ _ => "UNP.COUNT"
  | .unpGet _ _ _ => "UNP.GET"
  | .unpHdr _ => "UNP.HDR"
  | .unpAt _ _ _ => "UNP.AT"
  | .unpRun _ _ => "UNP.RUN"
  | .unpRunref _ _ => "UNP.RUNREF"
  | .unpRd _ _ _ => "UNP.RD"
  | .unpMinw _ _ => "UNP.MINW"
  | .hufLoad _ _ => "HUF.LOAD"
  | .hufDec _ _ => "HUF.DEC"
  | .hufAccset _ _ => "HUF.ACCSET"

/-- The operands of a command as text, in the order R96 lists them; numbers in decimal (R100). -/
def operandTexts : Instr → List String
  | .nop | .clrerr | .bcReset | .brOpen | .bwFlush => []
  | .li rd imm | .lih rd imm | .csrr rd imm => [regText rd, Nat.repr imm]
  | .mov rd rs1 | .brNextv rd rs1 | .unpMinw rd rs1 => [regText rd, regText rs1]
  | .bcSetrange rs1 rs2 | .unpRun rs1 rs2 | .unpRunref rs1 rs2 | .hufLoad rs1 rs2 =>
      [regText rs1, regText rs2]
  | .bcSeek rs1 imm | .brSeek rs1 imm | .unpSel rs1 imm | .unpBase rs1 imm | .unpCount rs1 imm
  | .hufAccset rs1 imm => [regText rs1, Nat.repr imm]
  | .bcGet8 r | .bcGet16 r | .bcGet32 r | .bcGet64 r | .bcPut8 r | .bcPut16 r | .bcPut32 r
  | .bcPut64 r | .brHasnext r | .unpHdr r => [regText r]
  | .bcGeto8 rd rs1 imm | .bcGeto16 rd rs1 imm | .bcGeto32 rd rs1 imm | .bcGeto64 rd rs1 imm
  | .unpGet rd rs1 imm | .unpAt rd rs1 imm | .unpRd rd rs1 imm =>
      [regText rd, regText rs1, Nat.repr imm]
  | .bcPuto8 rs2 rs1 imm | .bcPuto16 rs2 rs1 imm | .bcPuto32 rs2 rs1 imm | .bcPuto64 rs2 rs1 imm =>
      [regText rs2, regText rs1, Nat.repr imm]
  | .bcGetvar rd rd2 | .hufDec rd rd2 => [regText rd, regText rd2]
  | .bcGetvaro rd rd2 rs1 imm => [regText rd, regText rd2, regText rs1, Nat.repr imm]
  | .bcPutvar rd rs2 => [regText rd, regText rs2]
  | .brNext rd n => [regText rd, Nat.repr n]
  | .bwPush rs2 n => [regText rs2, Nat.repr n]
  | .bwPushv rs2 rs1 => [regText rs2, regText rs1]

/-- The text of a command (R100). -/
def asmText (i : Instr) : String := commandText (mnemonicOf i) (operandTexts i)

/-- The pseudo-commands (R101). -/
inductive Pseudo where
  | li64 (rd : Reg) (imm64 : Nat)
  | rdstat (rd : Reg)
  | bcTell (rd : Reg)
  | bcSize (rd : Reg)
  | brTell (rd : Reg)
  | hufAcc (rd : Reg)
  | hufAccrst
  | unpCounti (k : Nat)
deriving DecidableEq, Repr

/-- The expansion of a pseudo-command (R101). -/
def expandPseudo : Pseudo → List Instr
  | .li64 rd imm64 => [.li rd (imm64 % 2 ^ 32), .lih rd (imm64 / 2 ^ 32)]
  | .rdstat rd => [.csrr rd 0]
  | .bcTell rd => [.csrr rd 5]
  | .bcSize rd => [.csrr rd 4]
  | .brTell rd => [.csrr rd 6]
  | .hufAcc rd => [.csrr rd 13]
  | .hufAccrst => [.hufAccset .x0 0]
  | .unpCounti k => [.unpCount .x0 k]

/-! ### Reading a line (R100) -/

/-- The operand places of a command line. -/
inductive Place where
  | rd | rs1 | rs2 | n | imm
deriving DecidableEq, Repr

/-- The operands of a format in the order R96 lists them; `rs2` is `rd2` in formats DD and DDSI. -/
def formatPlaces : Format → List Place
  | .Z => []
  | .D => [.rd]
  | .DI => [.rd, .imm]
  | .DS => [.rd, .rs1]
  | .DN => [.rd, .n]
  | .DSI => [.rd, .rs1, .imm]
  | .DD => [.rd, .rs2]
  | .DDSI => [.rd, .rs2, .rs1, .imm]
  | .DS2 => [.rd, .rs2]
  | .S2 => [.rs2]
  | .S2SI => [.rs2, .rs1, .imm]
  | .S2N => [.rs2, .n]
  | .S2S => [.rs2, .rs1]
  | .SI => [.rs1, .imm]
  | .SS => [.rs1, .rs2]

/-- The digits of a number in base `b`, `v` being the value of the digits before. -/
def readDigits (b v : Nat) : List Char → Option Nat
  | [] => some v
  | c :: cs =>
    let d :=
      if '0' ≤ c ∧ c ≤ '9' then c.toNat - '0'.toNat
      else if 'a' ≤ c ∧ c ≤ 'f' then c.toNat - 'a'.toNat + 10
      else if 'A' ≤ c ∧ c ≤ 'F' then c.toNat - 'A'.toNat + 10
      else b
    if d < b then readDigits b (v * b + d) cs else none

/-- An unsigned number, decimal or `0x` and hexadecimal digits. -/
def readNumber : List Char → Option Nat
  | [] => none
  | '0' :: 'x' :: c :: cs => readDigits 16 0 (c :: cs)
  | cs => readDigits 10 0 cs

/-- The number of a register `x0` to `x7`. -/
def readRegister : List Char → Option Nat
  | ['x', c] => if '0' ≤ c ∧ c ≤ '7' then some (c.toNat - '0'.toNat) else none
  | _ => none

/-- A number below `limit`: an operand must fit its field. -/
def readBelow (limit : Nat) (cs : List Char) : Option Nat :=
  match readNumber cs with
  | none => none
  | some v => if v < limit then some v else none

/-- One operand put into its field. -/
def readOperand (f : Fields) (p : Place) (cs : List Char) : Option Fields :=
  match p with
  | .rd => (readRegister cs).map fun v => { f with rd := v }
  | .rs1 => (readRegister cs).map fun v => { f with rs1 := v }
  | .rs2 => (readRegister cs).map fun v => { f with rs2 := v }
  | .n => (readBelow (2 ^ 7) cs).map fun v => { f with n := v }
  | .imm => (readBelow (2 ^ 32) cs).map fun v => { f with imm := v }

/-- All operands, exactly as many as the format has. -/
def readOperands (f : Fields) : List Place → List (List Char) → Option Fields
  | [], [] => some f
  | p :: ps, t :: ts =>
    match readOperand f p t with
    | none => none
    | some f' => readOperands f' ps ts
  | _, _ => none

/-- A blank: space, tab or carriage return. -/
def isBlank (c : Char) : Bool := c == ' ' || c == '\t' || c == '\r'

/-- Text without the blanks at its ends. -/
def trimBlanks (cs : List Char) : List Char :=
  ((cs.dropWhile isBlank).reverse.dropWhile isBlank).reverse

/-- The parts of a text between its commas, blanks at their ends dropped; `cur` is the current part,
reversed. -/
def commaParts (cur : List Char) : List Char → List (List Char)
  | [] => [trimBlanks cur.reverse]
  | c :: cs => if c == ',' then trimBlanks cur.reverse :: commaParts [] cs else commaParts (c :: cur) cs

/-- The row of R96 with a mnemonic. -/
def rowNamed (m : List Char) : List OpcodeRow → Option OpcodeRow
  | [] => none
  | r :: rs => if r.mnemonic.toList = m then some r else rowNamed m rs

/-- A command from its mnemonic and operand texts. -/
def readCommand (m : List Char) (ops : List (List Char)) : Option Instr :=
  match rowNamed m opcodeMap with
  | none => none
  | some r =>
    match readOperands { op := r.op } (formatPlaces r.format) ops with
    | none => none
    | some f => (decodeOp f).map Prod.snd

/-- A pseudo-command from its mnemonic and operand texts (R101). -/
def readPseudo (m : List Char) (ops : List (List Char)) : Option Pseudo :=
  if m = "LI64".toList then
    match ops with
    | [r, v] =>
      match readRegister r, readBelow (2 ^ 64) v with
      | some k, some x => some (.li64 (Reg.ofNum k) x)
      | _, _ => none
    | _ => none
  else if m = "HUF.ACCRST".toList then
    match ops with
    | [] => some .hufAccrst
    | _ => none
  else if m = "UNP.COUNTI".toList then
    match ops with
    | [v] => (readBelow (2 ^ 32) v).map .unpCounti
    | _ => none
  else
    match ops with
    | [r] =>
      match readRegister r with
      | none => none
      | some k =>
        if m = "RDSTAT".toList then some (.rdstat (Reg.ofNum k))
        else if m = "BC.TELL".toList then some (.bcTell (Reg.ofNum k))
        else if m = "BC.SIZE".toList then some (.bcSize (Reg.ofNum k))
        else if m = "BR.TELL".toList then some (.brTell (Reg.ofNum k))
        else if m = "HUF.ACC".toList then some (.hufAcc (Reg.ofNum k))
        else none
    | _ => none

/-- The commands of one line (R100, R101): none for a blank line or a comment, one for a command, the
expansion for a pseudo-command; `none` where the line is no line of the assembler. -/
def readLine (line : List Char) : Option (List Instr) :=
  let text := trimBlanks (line.takeWhile (· != '#'))
  let m := text.takeWhile (fun c => !isBlank c)
  let rest := trimBlanks (text.dropWhile (fun c => !isBlank c))
  let ops := if rest.isEmpty then [] else commaParts [] rest
  if text.isEmpty then some []
  else
    match readCommand m ops with
    | some i => some [i]
    | none => (readPseudo m ops).map expandPseudo

end Sys2Proof.Machine
end

