-- ==== Sys2Proof/Safety.lean ====
section
/-! DEFINITION. The terms the statements use: the invariant of spec/10_state.md R28 and R45 and of
spec/44_huffman.md R271, the state after a success and after a fault, what memory holds, the sums and
the table of spec/20_memory.md and spec/44_huffman.md as the rules write them, and the columns of the
tables of spec/10_state.md R28 and spec/60_exceptions.md R310. Nothing here is used by the machine. -/

namespace Sys2Proof.Machine

/-! ### The invariant (spec/10_state.md R28, R45; spec/44_huffman.md R271) -/

/-- The byte range lies in `MEM` and the cursors in the byte range (R28, rows 3 to 6). -/
abbrev State.CursorInv (s : State) : Prop :=
  s.base + s.len ≤ s.cap.memSize ∧ s.pos ≤ s.len ∧ s.rbit ≤ 8 * s.len

/-- Fewer than 8 writer bits are pending and `WPEND` holds no others (R28, row 7; R31). -/
abbrev State.WriterInv (s : State) : Prop := s.wpend.toNat < 2 ^ s.wcnt.toNat

/-- The sticky error (R28, rows 0 and 1): `ERR` never holds 4, `ESEQ` is 0 while `ERR` is 0. -/
abbrev State.ErrorInv (s : State) : Prop :=
  s.err ≠ .unimplementedOperation ∧ (s.err = .ok → s.eseq = 0)

/-- The unpacker (R28, rows 8, 10 and 12; R36). `UDATA` is at most `MEM_SIZE`, which is the bound
`< 2^48` of R28 but for `MEM_SIZE = 2^48` (log 9). -/
abbrev State.UnpackerInv (s : State) : Prop :=
  s.uw.toNat ≤ 32 ∧ s.udata ≤ s.cap.memSize ∧ s.ucnt.toNat ≤ s.cap.ubufN ∧
    s.ubuf.length = s.cap.ubufN

/-- The tables have their capacities' sizes (spec/10_state.md R37). -/
abbrev State.TableSizes (s : State) : Prop :=
  s.hn.length = s.cap.maxNodes ∧ s.hl.length = s.cap.maxLeaves

/-- The entry of node `k` points inside the valid entries (R271): a non-terminal node to two nodes that
are not the root, a terminal node to a leaf record of its own length. -/
abbrev State.NodeInv (s : State) (k : Nat) : Prop :=
  if (s.node k).bl = 0 then 1 ≤ (s.node k).ptr.toNat ∧ (s.node k).ptr.toNat + 1 < s.hnn.toNat
  else (s.node k).ptr.toNat < s.hnl.toNat ∧
    (s.leaf (s.node k).ptr.toNat).clen.toNat = (s.node k).bl.toNat

/-- What a loaded tree satisfies (R271). -/
abbrev State.LoadedTree (s : State) : Prop :=
  (3 ≤ s.hnn.toNat ∧ s.hnn.toNat ≤ s.cap.maxNodes) ∧ s.hnl.toNat ≤ s.cap.maxLeaves ∧
    (s.node 0).bl = 0 ∧ ∀ k < s.hnn.toNat, s.NodeInv k

/-- The tree invariant (R28, rows 14 and 15; R271). -/
abbrev State.TreeInv (s : State) : Prop :=
  s.TableSizes ∧ (s.hvalid = true → s.LoadedTree) ∧ (s.hvalid = false → s.hnn = 0 ∧ s.hnl = 0)

/-- `MEM` is canonical and lists no address that does not exist (spec/20_memory.md R60). -/
abbrev State.MemInv (s : State) : Prop :=
  Memory.wf s.mem = true ∧ ∀ c ∈ s.mem, c.1 < s.cap.memSize

/-- Every reachable state satisfies this (spec/10_state.md R45). -/
abbrev State.Inv (s : State) : Prop :=
  s.cap.Legal ∧ s.CursorInv ∧ s.WriterInv ∧ s.ErrorInv ∧ s.UnpackerInv ∧ s.TreeInv ∧ s.MemInv

/-! ### How a command ends (spec/00_scope.md R6; spec/10_state.md R25; spec/60_exceptions.md R305) -/

/-- The state `t`, closed as a command ends that began in `s` and ends with status 0 and the response
`(0, v, v2)`. -/
abbrev okState (s t : State) (v v2 : Word) : State :=
  { t with seq := s.seq + 1, resp := some { status := .ok, val := v, val2 := v2 } }

/-- The state after a fault (R305, R306) of a command that began in `s`: nothing changes but the sticky
error, if none was recorded, `SEQ` and the response. -/
abbrev faultState (s : State) (st : Status) : State :=
  { s with
    err := if s.err = .ok then st else s.err
    eseq := if s.err = .ok then s.seq else s.eseq
    seq := s.seq + 1
    resp := some { status := st, val := 0, val2 := 0 } }

/-- The state after a fault of a varint command (spec/41_byte_cursor.md R170): as `faultState`, with the
sentinel in `x[rd2]` and in the response. -/
abbrev varFaultState (s : State) (rd2 : Reg) : State :=
  { faultState s .corruptData with
    regs := s.regs.write rd2 sentinel
    resp := some { status := .corruptData, val := 0, val2 := sentinel } }

/-- The response of a state has this status. -/
abbrev State.Ended (t : State) (st : Status) : Prop := ∃ v v2, t.resp = some ⟨st, v, v2⟩

/-! ### Words and memory -/

/-- The assembly formula of spec/30_encoding.md R91. -/
def wordOf (op rd rs1 rs2 n imm : Nat) : CommandWord :=
  BitVec.ofNat 64
    (op * 2 ^ 56 + rd * 2 ^ 53 + rs1 * 2 ^ 50 + rs2 * 2 ^ 47 + n * 2 ^ 40 + imm)

/-- `m'` is `m` with the `k` bytes `f 0 .. f (k-1)` stored from address `a`, and every other byte as it
was. -/
abbrev StoredAt (m m' : Memory) (a k : Nat) (f : Nat → Byte) : Prop :=
  (∀ i < k, Memory.read m' (a + i) = f i) ∧
    ∀ b, (b < a ∨ a + k ≤ b) → Memory.read m' b = Memory.read m b

/-- `LE(k, off)` as the sum of spec/20_memory.md R64. -/
def State.leSpec (s : State) (k off : Nat) : Nat :=
  ∑ i ∈ Finset.range k, (Memory.read s.mem (s.base + off + i)).toNat * 2 ^ (8 * i)

/-- `SBit(p)` as spec/20_memory.md R66 writes it. -/
def State.bitSpec (s : State) (p : Nat) : Nat :=
  (Memory.read s.mem (s.base + p / 8)).toNat / 2 ^ (7 - p % 8) % 2

/-- `SBits(p, n)` as the sum of spec/20_memory.md R67. -/
def State.bitsSpec (s : State) (p n : Nat) : Nat :=
  ∑ i ∈ Finset.range n, s.bitSpec (p + i) * 2 ^ (n - 1 - i)

/-- `Field(idx)` of spec/43_unpacker.md R221. -/
def State.fieldSpec (s : State) (idx : Nat) : Nat :=
  s.bitsSpec (8 * s.udata + idx * s.uw.toNat) s.uw.toNat

/-- The conditions of spec/41_byte_cursor.md R142 under which `DecVar(off)` is `(v, l)`. -/
abbrev State.VarintAt (s : State) (off v l : Nat) : Prop :=
  1 ≤ l ∧ l ≤ 10 ∧ off + l ≤ s.len ∧
    (∀ i < l - 1, 128 ≤ (Memory.read s.mem (s.base + off + i)).toNat) ∧
    (Memory.read s.mem (s.base + off + (l - 1))).toNat < 128 ∧
    (l = 10 → (Memory.read s.mem (s.base + off + 9)).toNat ≤ 1) ∧
    v = ∑ i ∈ Finset.range l, (Memory.read s.mem (s.base + off + i)).toNat % 128 * 2 ^ (7 * i)

/-- The value of CSR `k` by spec/10_state.md R28, as a number. -/
def State.csrSpec (s : State) : Nat → Nat
  | 0 => s.err.code + 16 * (if s.hvalid then 1 else 0) + 32 * s.wcnt.toNat
  | 1 => s.eseq.toNat
  | 2 => s.seq.toNat
  | 3 => s.base
  | 4 => s.len
  | 5 => s.pos
  | 6 => s.rbit
  | 7 => s.wpend.toNat
  | 8 => s.uw.toNat
  | 9 => s.uref.toNat
  | 10 => s.udata
  | 11 => s.un.toNat
  | 12 => s.ucnt.toNat
  | 13 => s.hacc.toNat
  | 14 => s.hnn.toNat
  | 15 => s.hnl.toNat
  | 16 => s.cap.memSize
  | 17 => s.cap.ubufN
  | 18 => s.cap.maxNodes
  | _ => s.cap.maxLeaves

/-! ### The node table and the walk (spec/44_huffman.md R263 to R265, R270, R275) -/

/-- A legal node table of `nn` node records and `nl` leaf records lies at `POS` (R270, steps 2 to 5):
record `k` starts at offset `S k` of the table and holds `bl k` and the pointer `p k`; the leaf records
follow the node records. -/
abbrev State.TableAt (s : State) (nn nl : Nat) (S bl p : Nat → Nat) : Prop :=
  3 ≤ nn ∧ S 0 = 0 ∧
    (∀ k < nn, s.pos + S k < s.len ∧
      bl k = (Memory.read s.mem (s.base + (s.pos + S k))).toNat ∧ p k < 2 ^ 32 ∧
      ∃ l, s.VarintAt (s.pos + S k + 1) (p k) l ∧ S (k + 1) = S k + 1 + l) ∧
    s.pos + S nn + 7 * nl ≤ s.len ∧ bl 0 = 0 ∧
    ∀ k < nn,
      (bl k = 0 → ∃ c, 1 ≤ c ∧ c + 1 < nn ∧ S c = p k) ∧
      (bl k ≠ 0 → p k < nl ∧ s.leSpec 3 (s.pos + S nn + 7 * p k + 4) = bl k)

/-- The tree the tables of `t` hold is the table at `POS` of `s` (R264, R265, R270): a non-terminal
node's pointer is the number of the record its serialized pointer named. -/
abbrev State.HoldsTable (t s : State) (nn nl : Nat) (S bl p : Nat → Nat) : Prop :=
  (∀ k < nn, (t.node k).bl.toNat = bl k ∧
    (bl k = 0 → (t.node k).ptr.toNat < nn ∧ S (t.node k).ptr.toNat = p k) ∧
    (bl k ≠ 0 → (t.node k).ptr.toNat = p k)) ∧
    ∀ j < nl, (t.leaf j).value.toNat = s.leSpec 4 (s.pos + S nn + 7 * j) ∧
      (t.leaf j).clen.toNat = s.leSpec 3 (s.pos + S nn + 7 * j + 4)

/-- The node a walk from the root stands on after `i` bits of the stream at `RBIT` (R275). -/
def State.pathNode (s : State) : Nat → Nat
  | 0 => 0
  | i + 1 => (s.node (s.pathNode i)).ptr.toNat + s.bitSpec (s.rbit + i)

/-- The walk at `RBIT` reaches after exactly `cnt` bits, all in the range, a node whose bit-length is
`cnt`, and only non-terminal nodes before (R266, R275). -/
abbrev State.WalkEndsAt (s : State) (cnt : Nat) : Prop :=
  (1 ≤ cnt ∧ cnt ≤ 255) ∧ s.rbit + cnt ≤ 8 * s.len ∧
    (∀ i < cnt, 1 ≤ i → (s.node (s.pathNode i)).bl = 0) ∧
    (s.node (s.pathNode cnt)).bl.toNat = cnt

/-- The value such a walk yields (R265). -/
abbrev State.walkValue (s : State) (cnt : Nat) : Nat :=
  (s.leaf (s.node (s.pathNode cnt)).ptr.toNat).value.toNat

/-- The bits `path` lead from node `cur` down the tree through non-terminal nodes to node `last`. -/
def State.pathLeads (s : State) : Nat → List Bool → Nat → Prop
  | cur, [], last => cur = last
  | cur, b :: bs, last =>
    (s.node cur).bl = 0 ∧ s.pathLeads ((s.node cur).ptr.toNat + b.toNat) bs last

/-- `path` is the code word of leaf record `j`: it leads from the root to a terminal node at its own
depth that names `j` (spec/44_huffman.md R278). -/
abbrev State.CodeWord (s : State) (path : List Bool) (j : Nat) : Prop :=
  path ≠ [] ∧ path.length ≤ 255 ∧ ∃ last, s.pathLeads 0 path last ∧
    (s.node last).bl.toNat = path.length ∧ (s.node last).ptr.toNat = j

/-- The stream bits from bit offset `p` are `bs`, all inside the byte range. -/
abbrev State.StreamIs (s : State) (p : Nat) (bs : List Bool) : Prop :=
  p + bs.length ≤ 8 * s.len ∧ ∀ i (h : i < bs.length), s.bitSpec (p + i) = (bs[i]).toNat

/-! ### Sequences of commands -/

/-- A command that ends with status 0, as a partial function. -/
def okExec (i : Instr) (s : State) : Option State :=
  match exec i s with
  | .next t =>
    match t.resp with
    | some { status := .ok, .. } => some t
    | _ => none
  | _ => none

/-- `BW.PUSH` of the value and the count of every pair, in order, the values brought in `x1`, without
fault. -/
def pushAll : List (Nat × Nat) → State → Option State
  | [], s => some s
  | (v, n) :: ps, s =>
    match okExec (.bwPush .x1 n) (s.setReg .x1 (BitVec.ofNat 64 v)) with
    | some t => pushAll ps t
    | none => none

/-- `BR.NEXT` with every count, in order, without fault: the values read. -/
def readAll : List Nat → State → Option (List Nat)
  | [], _ => some []
  | n :: ns, s =>
    match okExec (.brNext .x1 n) s with
    | some t => (readAll ns t).map ((t.reg .x1).toNat :: ·)
    | none => none

/-- `HUF.DEC x1, x2`, `m` times without fault: the values decoded and the state after. -/
def decodeAll : Nat → State → Option (List Nat × State)
  | 0, s => some ([], s)
  | m + 1, s =>
    match okExec (.hufDec .x1 .x2) s with
    | some t => (decodeAll m t).map fun (vs, u) => ((t.reg .x1).toNat :: vs, u)
    | none => none

/-- `k` steps of the machine. -/
def runSteps : Nat → State → Out
  | 0, s => .next s
  | k + 1, s =>
    match step s with
    | .next t => runSteps k t
    | o => o

end Sys2Proof.Machine

/-! ### The columns of the spec's tables -/

namespace Sys2Proof

open Machine

/-- The commands that spec/10_state.md R28 names as writers of `POS`. -/
def Instr.writesPos : Instr → Bool
  | .bcSetrange _ _ | .bcSeek _ _ | .bcReset => true
  | .bcGet8 _ | .bcGet16 _ | .bcGet32 _ | .bcGet64 _ => true
  | .bcPut8 _ | .bcPut16 _ | .bcPut32 _ | .bcPut64 _ => true
  | .bcGetvar _ _ | .bcPutvar _ _ => true
  | .bwPush _ _ | .bwPushv _ _ | .bwFlush => true
  | .unpHdr _ | .hufLoad _ _ => true
  | _ => false

/-- The commands that R28 names as writers of `RBIT`. -/
def Instr.writesRbit : Instr → Bool
  | .bcSetrange _ _ | .brOpen | .brSeek _ _ | .brNext _ _ | .brNextv _ _ | .hufDec _ _ => true
  | _ => false

/-- The commands that R26 and R28 name as writers of `WCNT` and `WPEND`. -/
def Instr.writesWriter : Instr → Bool
  | .bwPush _ _ | .bwPushv _ _ | .bwFlush => true
  | _ => false

/-- The commands that store to `MEM` (spec/20_memory.md R69, column "bytes written"). -/
def Instr.writesMem : Instr → Bool
  | .bcPut8 _ | .bcPut16 _ | .bcPut32 _ | .bcPut64 _ => true
  | .bcPuto8 _ _ _ | .bcPuto16 _ _ _ | .bcPuto32 _ _ _ | .bcPuto64 _ _ _ => true
  | .bcPutvar _ _ | .bwPush _ _ | .bwPushv _ _ | .bwFlush => true
  | _ => false

/-- The destination registers of a command: `rd`, and `rd2` where it has one (spec/30_encoding.md
R92). -/
def Instr.destinations : Instr → List Reg
  | .li rd _ | .lih rd _ | .mov rd _ | .csrr rd _ => [rd]
  | .bcGet8 rd | .bcGet16 rd | .bcGet32 rd | .bcGet64 rd => [rd]
  | .bcGeto8 rd _ _ | .bcGeto16 rd _ _ | .bcGeto32 rd _ _ | .bcGeto64 rd _ _ => [rd]
  | .bcGetvar rd rd2 | .bcGetvaro rd rd2 _ _ | .hufDec rd rd2 => [rd, rd2]
  | .bcPutvar rd _ | .brNext rd _ | .brNextv rd _ | .brHasnext rd => [rd]
  | .unpGet rd _ _ | .unpHdr rd | .unpAt rd _ _ | .unpRd rd _ _ | .unpMinw rd _ => [rd]
  | _ => []

/-- The statuses a command may end with, 0 apart (spec/60_exceptions.md R310). -/
def Instr.mayRaise : Instr → List Status
  | .nop | .li _ _ | .lih _ _ | .mov _ _ | .clrerr => []
  | .csrr _ _ => [.illegalCommand]
  | .bcSetrange _ _ | .bcSeek _ _ => [.outOfBounds]
  | .bcReset => []
  | .bcGet8 _ | .bcGet16 _ | .bcGet32 _ | .bcGet64 _ => [.outOfBounds]
  | .bcGeto8 _ _ _ | .bcGeto16 _ _ _ | .bcGeto32 _ _ _ | .bcGeto64 _ _ _ => [.outOfBounds]
  | .bcPut8 _ | .bcPut16 _ | .bcPut32 _ | .bcPut64 _ => [.outOfBounds]
  | .bcPuto8 _ _ _ | .bcPuto16 _ _ _ | .bcPuto32 _ _ _ | .bcPuto64 _ _ _ => [.outOfBounds]
  | .bcPutvar _ _ => [.outOfBounds]
  | .bcGetvar _ _ | .bcGetvaro _ _ _ _ => [.corruptData]
  | .brOpen | .brHasnext _ => []
  | .brSeek _ _ => [.outOfBounds]
  | .brNext _ _ | .brNextv _ _ | .bwPush _ _ | .bwPushv _ _ => [.outOfBounds, .unsupportedFeature]
  | .bwFlush => [.outOfBounds]
  | .unpSel _ _ | .unpMinw _ _ => [.unsupportedFeature]
  | .unpBase _ _ | .unpCount _ _ | .unpRd _ _ _ => [.outOfBounds]
  | .unpHdr _ => [.corruptData, .unsupportedFeature]
  | .unpGet _ _ _ | .unpAt _ _ _ | .unpRun _ _ | .unpRunref _ _ =>
      [.corruptData, .outOfBounds, .unsupportedFeature]
  | .hufLoad _ _ => [.corruptData, .unsupportedFeature]
  | .hufDec _ _ => [.corruptData, .illegalCommand]
  | .hufAccset _ _ => [.outOfBounds]

end Sys2Proof
end

