-- ==== Sys2Proof/Certificates/Slice0/Obligations.lean ====
section
/-! DEFINITION. The statements for the provers. Each docstring names the rule of spec/ it formalises;
OBLIGATIONS.json lists them with their tiers. Statements hold for every state, every capacity and every
content of `MEM`; where a statement needs an invariant it says so. -/

open Sys2Proof Sys2Proof.Machine

/-! ### Encoding (spec/30_encoding.md) -/

/-- R91 to R93, R96: the decoder reads back every well-formed command from its word. -/
def Obligations.DecodeInvertsEncode : Prop :=
  ∀ i : Instr, i.WellFormed → decode (encode i) = .ok i

/-- R93: a word has at most one reading, no bit of it is ignored: a word that decodes is the word of the
command it decodes to. -/
def Obligations.EncodeInvertsDecode : Prop :=
  ∀ (c : CommandWord) (i : Instr), decode c = .ok i → i.WellFormed ∧ encode i = c

/-- R93: "a word `C` is command `K` exactly when `C AND mask_K = match_K`", for the rows of R96. -/
def Obligations.WordsAreMaskMatches : Prop :=
  ∀ c : CommandWord,
    ((∃ i, decode c = .ok i) ↔ ∃ r ∈ opcodeMap, r.matches c = true) ∧
    ∀ i, decode c = .ok i → ∀ r ∈ opcodeMap, (r.matches c = true ↔ r.mnemonic = mnemonicOf i)

/-- Words written out in the examples of the spec (R121, R123, R145, R154, R170, R171, R196, R199, R230,
R232, R270, R275) decode to the commands they stand for. -/
def Obligations.SpecWordsDecode : Prop :=
  decode 0x01600000000003E8 = .ok (.li .x3 1000) ∧
  decode 0x03A8000000000000 = .ok (.mov .x5 .x2) ∧
  decode 0x1005000000000000 = .ok (.bcSetrange .x1 .x2) ∧
  decode 0x1F60000000000009 = .ok (.bcGeto64 .x3 .x0 9) ∧
  decode 0x2505000000000002 = .ok (.bcPuto16 .x2 .x1 2) ∧
  decode 0x29C3800000000005 = .ok (.bcGetvaro .x6 .x7 .x0 5) ∧
  decode 0x3240030000000000 = .ok (.brNext .x2 3) ∧
  decode 0x3801C00000000000 = .ok (.bwPush .x3 64) ∧
  decode 0x45A0000000000003 = .ok (.unpAt .x5 .x0 3) ∧
  decode 0x4701000000000000 = .ok (.unpRunref .x0 .x2) ∧
  decode 0x5009800000000000 = .ok (.hufLoad .x2 .x3) ∧
  decode 0x5182800000000000 = .ok (.hufDec .x4 .x5)

/-! ### The step (spec/00_scope.md R5, R7; spec/10_state.md R50) -/

/-- R5: a step with a command word waiting runs the command the word decodes to, on the state with the
word taken from the port. -/
def Obligations.StepRunsTheDecodedCommand : Prop :=
  ∀ (s : State) (c : CommandWord) (es : List HostEvent) (i : Instr),
    s.input = .issue c :: es → decode c = .ok i → step s = exec i { s with input := es }

/-- R93, R304, R305: a word that is no command changes no state but `SEQ`, `ERR`, `ESEQ`, and answers
`IllegalCommand`. -/
def Obligations.IllegalWordsOnlyRaise : Prop :=
  ∀ (s : State) (c : CommandWord) (es : List HostEvent) (e : DecodeError),
    s.input = .issue c :: es → decode c = .error e →
      step s = .next (faultState { s with input := es } .illegalCommand)

/-- R97: a reserved opcode is illegal whatever its other bits, and of the words with opcode 0 only the
all-zero word is a command. -/
def Obligations.ReservedWordsAreIllegal : Prop :=
  ∀ c : CommandWord,
    (((fieldsOf c).op ∈ Finset.Icc 0x06 0x0F ∪ Finset.Icc 0x13 0x17 ∪ Finset.Icc 0x2B 0x2F ∪
        Finset.Icc 0x35 0x37 ∪ Finset.Icc 0x3B 0x3F ∪ Finset.Icc 0x4A 0x4F ∪ Finset.Icc 0x53 0xFF) →
      ∃ e, decode c = .error e) ∧
    ((fieldsOf c).op = 0 → c ≠ 0 → ∃ e, decode c = .error e) ∧ decode 0 = .ok .nop

/-- R7, R60, R322: what a step does when no command word waits: nothing while the host is silent; a host
write stores its one byte and changes nothing else, and stops where the address does not exist (that it
stops is the model's choice, log 11). -/
def Obligations.HostEventsBetweenCommands : Prop :=
  ∀ (s : State) (es : List HostEvent) (a : Nat) (b : Byte),
    (s.input = [] → step s = .next s) ∧
    (s.input = .write a b :: es → a < s.cap.memSize →
      ∃ t, step s = .next t ∧ t = { s with input := es, mem := t.mem } ∧
        StoredAt s.mem t.mem a 1 fun _ => b) ∧
    (s.input = .write a b :: es → s.cap.memSize ≤ a → step s = .fault (.absentAddress a))

/-- R330: the effect of `Reset` on every piece of state the spec gives a value; `MEM` and the
capacities are not changed. -/
def Obligations.ResetSetsEveryElement : Prop :=
  ∀ (s : State) (es : List HostEvent), s.input = .reset :: es →
    ∃ t, step s = .next t ∧ (∀ r, t.reg r = 0) ∧ t.seq = 0 ∧ t.eseq = 0 ∧ t.err = .ok ∧
      t.hvalid = false ∧ t.wcnt = 0 ∧ t.base = 0 ∧ t.len = 0 ∧ t.pos = 0 ∧ t.rbit = 0 ∧
      t.wpend = 0 ∧ t.uw = 0 ∧ t.uref = 0 ∧ t.udata = 0 ∧ t.un = 0 ∧ t.ucnt = 0 ∧ t.hacc = 0 ∧
      t.hnn = 0 ∧ t.hnl = 0 ∧ t.cap = s.cap ∧ t.mem = s.mem ∧ t.input = es

/-- R50: the values the spec gives for reset hold in `State.reset`. -/
def Obligations.ResetStateHoldsTheResetValues : Prop :=
  (∀ r, State.reset.reg r = 0) ∧ (∀ k < 16, State.reset.csrSpec k = 0) ∧
    State.reset.hvalid = false ∧ State.reset.err = .ok

/-! ### Invariants (spec/10_state.md R28, R45; spec/44_huffman.md R271) -/

/-- R45, R28, R271: every step keeps the invariant. (`UDATA` is bounded by `MEM_SIZE`, not by `2^48`:
log 9; the bound below `2^32` on three capacities is the model's: log 5.) -/
def Obligations.StepKeepsTheInvariant : Prop :=
  ∀ s t : State, s.Inv → step s = .next t → t.Inv

/-- The state after reset satisfies the invariant. -/
def Obligations.ResetSatisfiesTheInvariant : Prop := State.reset.Inv

/-- R45: every state reached from reset by any sequence of commands, host writes and resets, with any
legal capacities and any content of `MEM`, satisfies the invariant. -/
def Obligations.ReachableStatesSatisfyTheInvariant : Prop :=
  ∀ (cap : Capacities) (mem : Memory) (input : List HostEvent) (k : Nat) (t : State),
    cap.Legal → Memory.wf mem = true → (∀ c ∈ mem, c.1 < cap.memSize) →
      runSteps k (State.powerUp cap mem input) = .next t → t.Inv

/-- The memory keeps its canonical form (the model's representation of spec/20_memory.md R60, log 6). -/
def Obligations.MemoryStaysCanonical : Prop :=
  ∀ s t : State, Memory.wf s.mem = true → step s = .next t → Memory.wf t.mem = true

/-- R271: a `HUF.LOAD` that ends with status 0 establishes the tree invariant; no other command writes
the tree, nor a `HUF.LOAD` that fails its capacity check; `Reset` clears `HVALID`; and a walk in such a
tree never indexes outside the valid entries. -/
def Obligations.TreeInvariantStandsUntilTheNextLoad : Prop :=
  (∀ (s t : State) (rs1 rs2 : Reg), s.cap.Legal → exec (.hufLoad rs1 rs2) s = .next t →
    (t.Ended .ok → t.hvalid = true ∧ t.LoadedTree) ∧
    (s.cap.maxNodes < s.regNat rs1 ∨ s.cap.maxLeaves < s.regNat rs2 →
      t.hvalid = s.hvalid ∧ t.hnn = s.hnn ∧ t.hnl = s.hnl ∧ t.hn = s.hn ∧ t.hl = s.hl)) ∧
  (∀ (i : Instr) (s t : State), (∀ rs1 rs2, i ≠ .hufLoad rs1 rs2) → exec i s = .next t →
    t.hvalid = s.hvalid ∧ t.hnn = s.hnn ∧ t.hnl = s.hnl ∧ t.hn = s.hn ∧ t.hl = s.hl) ∧
  (∀ (s t : State) (es : List HostEvent), s.input = .reset :: es → step s = .next t →
    t.hvalid = false) ∧
  ∀ (s : State) (k b : Nat), s.LoadedTree → k < s.hnn.toNat → b < 2 →
    ((s.node k).bl = 0 → (s.node k).ptr.toNat + b < s.hnn.toNat) ∧
    ((s.node k).bl ≠ 0 → (s.node k).ptr.toNat < s.hnl.toNat)

/-! ### Rules over all commands -/

/-- R300, R6: every command is executed whole and answers with exactly one response; the host's later
events and the capacities are untouched. -/
def Obligations.EveryCommandResponds : Prop :=
  ∀ (i : Instr) (s : State), ∃ t r, exec i s = .next t ∧ t.resp = some r ∧
    r.status ≠ .unimplementedOperation ∧ t.input = s.input ∧ t.cap = s.cap

/-- R25: `SEQ` is 0 after reset and advances by one at the end of every command, whatever its status,
also of an illegal word, modulo `2^64`; `CSRR rd, 2` reads the number of commands completed before it. -/
def Obligations.SeqCountsEveryCommand : Prop :=
  State.reset.seq = 0 ∧
  (∀ (i : Instr) (s t : State), exec i s = .next t →
    t.seq.toNat = (s.seq.toNat + 1) % 2 ^ 64) ∧
  (∀ (s t : State) (c : CommandWord) (es : List HostEvent), s.input = .issue c :: es →
    step s = .next t → t.seq.toNat = (s.seq.toNat + 1) % 2 ^ 64) ∧
  (∀ (s t : State) (a : Nat) (b : Byte) (es : List HostEvent), s.input = .write a b :: es →
    step s = .next t → t.seq = s.seq) ∧
  ∀ (rd : Reg) (s : State), exec (.csrr rd 2) s =
    .next (okState s { s with regs := s.regs.write rd s.seq } s.seq 0)

/-- R305, R272: a command that raises changes no general register, no CSR, no table and no byte of `MEM`,
but the sticky error and `SEQ`, and answers `(status, 0, 0)`; the two exceptions R305 names make exactly
their own changes besides: a varint get writes the sentinel to `x[rd2]` and into the response, a
`HUF.LOAD` past its capacity check leaves no tree. A word that is no command raises in the same way.
(What `HN`, `HL` and the model's `draws` hold after such a load is left free: log 8.) -/
def Obligations.FaultsArePrecise : Prop :=
  (∀ (s : State) (c : CommandWord) (es : List HostEvent) (e : DecodeError),
    s.input = .issue c :: es → decode c = .error e →
      step s = .next (faultState { s with input := es } .illegalCommand)) ∧
  ∀ (i : Instr) (s t : State) (r : Response), exec i s = .next t → t.resp = some r →
    r.status ≠ .ok →
      ((∀ rd rd2, i ≠ .bcGetvar rd rd2) → (∀ rd rd2 rs1 imm, i ≠ .bcGetvaro rd rd2 rs1 imm) →
        (∀ rs1 rs2, i = .hufLoad rs1 rs2 →
          s.cap.maxNodes < s.regNat rs1 ∨ s.cap.maxLeaves < s.regNat rs2) →
        t = faultState s r.status) ∧
      (∀ rd rd2, i = .bcGetvar rd rd2 → t = varFaultState s rd2) ∧
      (∀ rd rd2 rs1 imm, i = .bcGetvaro rd rd2 rs1 imm → t = varFaultState s rd2) ∧
      ∀ rs1 rs2, i = .hufLoad rs1 rs2 → s.regNat rs1 ≤ s.cap.maxNodes →
        s.regNat rs2 ≤ s.cap.maxLeaves →
          t = faultState
            { s with
              hvalid := false, hnn := 0, hnl := 0, hn := t.hn, hl := t.hl, draws := t.draws }
            r.status

/-- R306: the sticky error records the first fault and the `SEQ` of its command, keeps it through later
faults, and only `CLRERR` and reset clear it. -/
def Obligations.StickyErrorKeepsTheFirstFault : Prop :=
  (∀ (i : Instr) (s t : State) (r : Response), exec i s = .next t → t.resp = some r →
    (r.status ≠ .ok → s.err = .ok → t.err = r.status ∧ t.eseq = s.seq) ∧
    (r.status ≠ .ok → s.err ≠ .ok → t.err = s.err ∧ t.eseq = s.eseq) ∧
    (r.status = .ok → i ≠ .clrerr → t.err = s.err ∧ t.eseq = s.eseq)) ∧
  (∀ (s t : State) (c : CommandWord) (es : List HostEvent) (e : DecodeError),
    s.input = .issue c :: es → decode c = .error e → step s = .next t →
    (s.err = .ok → t.err = .illegalCommand ∧ t.eseq = s.seq) ∧
    (s.err ≠ .ok → t.err = s.err ∧ t.eseq = s.eseq)) ∧
  (∀ s : State, exec .clrerr s = .next (okState s { s with err := .ok, eseq := 0 } 0 0)) ∧
  ∀ (s t : State) (es : List HostEvent), s.input = .reset :: es → step s = .next t →
    t.err = .ok ∧ t.eseq = 0

/-- R307: a pending sticky error stops nothing: every command but `CSRR` of `STATUS` or `ESEQ` does the
same, whatever `ERR` and `ESEQ` hold. -/
def Obligations.NoCommandDependsOnTheStickyError : Prop :=
  ∀ (i : Instr) (s t u : State) (e : Status) (q : BitVec 64),
    (∀ rd imm, i = .csrr rd imm → 2 ≤ imm) → exec i s = .next t →
      exec i { s with err := e, eseq := q } = .next u → u = { t with err := u.err, eseq := u.eseq }

/-- R62: no command writes a byte of `MEM` outside `[BASE, BASE + LEN)`. -/
def Obligations.StoresStayInTheByteRange : Prop :=
  ∀ (i : Instr) (s t : State) (a : Nat), exec i s = .next t →
    (a < s.base ∨ s.base + s.len ≤ a) → Memory.read t.mem a = Memory.read s.mem a

/-- R62: no command reads a byte of `MEM` outside `[BASE, BASE + LEN)`: two states that differ only
there behave alike, and end alike inside the range. -/
def Obligations.LoadsStayInTheByteRange : Prop :=
  ∀ (i : Instr) (s t : State) (m : Memory),
    (∀ off < s.len, Memory.read m (s.base + off) = Memory.read s.mem (s.base + off)) →
      exec i s = .next t →
        ∃ m', exec i { s with mem := m } = .next { t with mem := m' } ∧
          ∀ off < s.len, Memory.read m' (s.base + off) = Memory.read t.mem (s.base + off)

/-- R28 (column "written by"), R26, R36, R37, R192: each state element is written only by the commands
named for it; `UBUF`, `HN` and `HL` only by the run commands and `HUF.LOAD`. -/
def Obligations.OnlyTheNamedCommandsWrite : Prop :=
  ∀ (i : Instr) (s t : State), exec i s = .next t →
    ((∀ rs1 rs2, i ≠ .bcSetrange rs1 rs2) → t.base = s.base ∧ t.len = s.len) ∧
    (i.writesPos = false → t.pos = s.pos) ∧
    (i.writesRbit = false → t.rbit = s.rbit) ∧
    (i.writesWriter = false → t.wcnt = s.wcnt ∧ t.wpend = s.wpend) ∧
    (i.writesMem = false → t.mem = s.mem) ∧
    ((∀ rs1 imm, i ≠ .unpSel rs1 imm) → (∀ rd, i ≠ .unpHdr rd) → t.uw = s.uw) ∧
    ((∀ rd, i ≠ .unpHdr rd) → t.uref = s.uref) ∧
    ((∀ rs1 imm, i ≠ .unpBase rs1 imm) → (∀ rd, i ≠ .unpHdr rd) → t.udata = s.udata) ∧
    ((∀ rs1 imm, i ≠ .unpCount rs1 imm) → t.un = s.un) ∧
    ((∀ rs1 rs2, i ≠ .unpRun rs1 rs2) → (∀ rs1 rs2, i ≠ .unpRunref rs1 rs2) →
      t.ucnt = s.ucnt ∧ t.ubuf = s.ubuf) ∧
    ((∀ rd rd2, i ≠ .hufDec rd rd2) → (∀ rs1 imm, i ≠ .hufAccset rs1 imm) → t.hacc = s.hacc) ∧
    ((∀ rs1 rs2, i ≠ .hufLoad rs1 rs2) →
      t.hvalid = s.hvalid ∧ t.hnn = s.hnn ∧ t.hnl = s.hnl ∧ t.hn = s.hn ∧ t.hl = s.hl) ∧
    t.cap = s.cap

/-- R21, R22, R128: a command changes no general register but its destinations, and `x0` reads 0
always. -/
def Obligations.OnlyDestinationsAreWritten : Prop :=
  ∀ (i : Instr) (s t : State) (r : Reg), exec i s = .next t →
    (r ∉ i.destinations → t.reg r = s.reg r) ∧ t.reg .x0 = 0

/-- R21, R22: a register reads as the most recent write; a write to `x0` has no effect. -/
def Obligations.RegisterReadsTheLatestWrite : Prop :=
  ∀ (f : RegFile) (r q : Reg) (v : Word),
    (f.write r v).read q = (if q = r ∧ q ≠ .x0 then v else f.read q) ∧ f.read .x0 = 0 ∧
      f.write .x0 v = f

/-- R310: the statuses each command can end with. -/
def Obligations.CommandsRaiseOnlyTheirStatuses : Prop :=
  ∀ (i : Instr) (s t : State) (r : Response), exec i s = .next t → t.resp = some r →
    r.status = .ok ∨ r.status ∈ i.mayRaise

/-! ### Common commands (spec/40_common_commands.md) -/

/-- R120, R121, R122, R123, R125: `NOP`, `LI`, `LIH`, `MOV`, `CLRERR` end with status 0 in every state
and change only what the rule says. -/
def Obligations.MovesAndNopComplete : Prop :=
  ∀ (s : State) (rd rs1 : Reg) (imm : Nat),
    (encode .nop = wordOf 0x00 0 0 0 0 0 ∧ exec .nop s = .next (okState s s 0 0) ∧
      ∀ c, (fieldsOf c).op = 0 → c ≠ 0 → ∃ e, decode c = .error e) ∧
    (encode (.li rd imm) = wordOf 0x01 rd.num 0 0 0 imm ∧
      (imm < 2 ^ 32 → ∃ v : Word, v.toNat = imm ∧
        exec (.li rd imm) s = .next (okState s { s with regs := s.regs.write rd v } v 0))) ∧
    (encode (.lih rd imm) = wordOf 0x02 rd.num 0 0 0 imm ∧
      (imm < 2 ^ 32 → ∃ v : Word, v.toNat = imm * 2 ^ 32 + (s.reg rd).toNat % 2 ^ 32 ∧
        exec (.lih rd imm) s = .next (okState s { s with regs := s.regs.write rd v } v 0))) ∧
    (encode (.mov rd rs1) = wordOf 0x03 rd.num rs1.num 0 0 0 ∧
      exec (.mov rd rs1) s =
        .next (okState s { s with regs := s.regs.write rd (s.reg rs1) } (s.reg rs1) 0)) ∧
    encode .clrerr = wordOf 0x05 0 0 0 0 0 ∧
      exec .clrerr s = .next (okState s { s with err := .ok, eseq := 0 } 0 0)

/-- R124, R27, R28: `CSRR` reads each of the 20 CSRs, zero-extended, with no side effect, and raises
`IllegalCommand` for a reserved number. -/
def Obligations.CsrrReadsEveryCsr : Prop :=
  ∀ (s : State) (rd : Reg) (imm : Nat),
    encode (.csrr rd imm) = wordOf 0x04 rd.num 0 0 0 imm ∧
    (imm ≤ 19 → exec (.csrr rd imm) s =
      .next (okState s { s with regs := s.regs.write rd (BitVec.ofNat 64 (s.csrSpec imm)) }
        (BitVec.ofNat 64 (s.csrSpec imm)) 0)) ∧
    (20 ≤ imm → exec (.csrr rd imm) s = .next (faultState s .illegalCommand))

/-- R101, R99: the pseudo-command `LI64` loads any 64-bit constant in two commands. -/
def Obligations.LoadImmediate64BuildsTheConstant : Prop :=
  ∀ (s : State) (rd : Reg) (v : Word), rd ≠ .x0 →
    ∃ i j t u, expandPseudo (.li64 rd v.toNat) = [i, j] ∧ i.WellFormed ∧ j.WellFormed ∧
      exec i s = .next t ∧ exec j t = .next u ∧ u.reg rd = v ∧
      ∀ r, r ≠ rd → u.reg r = s.reg r

/-! ### Byte Cursor (spec/41_byte_cursor.md) -/

/-- R145, R146, R147: range and position. -/
def Obligations.RangeAndPositionCommands : Prop :=
  ∀ (s : State) (rs1 rs2 : Reg) (imm : Nat),
    encode (.bcSetrange rs1 rs2) = wordOf 0x10 0 rs1.num rs2.num 0 0 ∧
    encode (.bcSeek rs1 imm) = wordOf 0x11 0 rs1.num 0 0 imm ∧
    encode .bcReset = wordOf 0x12 0 0 0 0 0 ∧
    ((s.reg rs1).toNat + (s.reg rs2).toNat ≤ s.cap.memSize →
      exec (.bcSetrange rs1 rs2) s = .next (okState s
        { s with base := (s.reg rs1).toNat, len := (s.reg rs2).toNat, pos := 0, rbit := 0 } 0 0)) ∧
    (s.cap.memSize < (s.reg rs1).toNat + (s.reg rs2).toNat →
      exec (.bcSetrange rs1 rs2) s = .next (faultState s .outOfBounds)) ∧
    ((s.reg rs1).toNat + imm ≤ s.len →
      exec (.bcSeek rs1 imm) s =
        .next (okState s { s with pos := (s.reg rs1).toNat + imm } 0 0)) ∧
    (s.len < (s.reg rs1).toNat + imm →
      exec (.bcSeek rs1 imm) s = .next (faultState s .outOfBounds)) ∧
    exec .bcReset s = .next (okState s { s with pos := 0 } 0 0)

/-- R150 to R153: a get at the current position reads `k` bytes little-endian, zero-extended, and
advances `POS`; it raises `OutOfBounds` where they do not fit. -/
def Obligations.GetsAtThePosition : Prop :=
  ∀ (s : State) (rd : Reg),
    ∀ p ∈ [(0x18, 1, Instr.bcGet8 rd), (0x19, 2, .bcGet16 rd), (0x1A, 4, .bcGet32 rd),
        (0x1B, 8, .bcGet64 rd)],
      encode p.2.2 = wordOf p.1 rd.num 0 0 0 0 ∧
      (s.pos + p.2.1 ≤ s.len → ∃ v : Word, v.toNat = s.leSpec p.2.1 s.pos ∧
        exec p.2.2 s = .next (okState s
          { s with regs := s.regs.write rd v, pos := s.pos + p.2.1 } v 0)) ∧
      (s.len < s.pos + p.2.1 → exec p.2.2 s = .next (faultState s .outOfBounds))

/-- R154 to R157: a get at the offset `E = x[rs1] + imm32`, an exact sum; `POS` is unchanged. -/
def Obligations.GetsAtAnOffset : Prop :=
  ∀ (s : State) (rd rs1 : Reg) (imm : Nat),
    ∀ p ∈ [(0x1C, 1, Instr.bcGeto8 rd rs1 imm), (0x1D, 2, .bcGeto16 rd rs1 imm),
        (0x1E, 4, .bcGeto32 rd rs1 imm), (0x1F, 8, .bcGeto64 rd rs1 imm)],
      encode p.2.2 = wordOf p.1 rd.num rs1.num 0 0 imm ∧
      ((s.reg rs1).toNat + imm + p.2.1 ≤ s.len →
        ∃ v : Word, v.toNat = s.leSpec p.2.1 ((s.reg rs1).toNat + imm) ∧
          exec p.2.2 s = .next (okState s { s with regs := s.regs.write rd v } v 0)) ∧
      (s.len < (s.reg rs1).toNat + imm + p.2.1 →
        exec p.2.2 s = .next (faultState s .outOfBounds))

/-- R160 to R163: a put at the current position stores the low `k` bytes of `x[rs2]`, least significant
first, and advances `POS`; where they do not fit nothing is written. -/
def Obligations.PutsAtThePosition : Prop :=
  ∀ (s : State) (rs2 : Reg),
    ∀ p ∈ [(0x20, 1, Instr.bcPut8 rs2), (0x21, 2, .bcPut16 rs2), (0x22, 4, .bcPut32 rs2),
        (0x23, 8, .bcPut64 rs2)],
      encode p.2.2 = wordOf p.1 0 0 rs2.num 0 0 ∧
      (s.pos + p.2.1 ≤ s.len →
        ∃ t, exec p.2.2 s = .next t ∧
          t = okState s { s with pos := s.pos + p.2.1, mem := t.mem } 0 0 ∧
          StoredAt s.mem t.mem (s.base + s.pos) p.2.1
            fun i => BitVec.ofNat 8 ((s.reg rs2).toNat / 2 ^ (8 * i) % 256)) ∧
      (s.len < s.pos + p.2.1 → exec p.2.2 s = .next (faultState s .outOfBounds))

/-- R164 to R167: a put at the offset `E = x[rs1] + imm32`; `POS` is unchanged. -/
def Obligations.PutsAtAnOffset : Prop :=
  ∀ (s : State) (rs2 rs1 : Reg) (imm : Nat),
    ∀ p ∈ [(0x24, 1, Instr.bcPuto8 rs2 rs1 imm), (0x25, 2, .bcPuto16 rs2 rs1 imm),
        (0x26, 4, .bcPuto32 rs2 rs1 imm), (0x27, 8, .bcPuto64 rs2 rs1 imm)],
      encode p.2.2 = wordOf p.1 0 rs1.num rs2.num 0 imm ∧
      ((s.reg rs1).toNat + imm + p.2.1 ≤ s.len →
        ∃ t, exec p.2.2 s = .next t ∧ t = okState s { s with mem := t.mem } 0 0 ∧
          StoredAt s.mem t.mem (s.base + ((s.reg rs1).toNat + imm)) p.2.1
            fun i => BitVec.ofNat 8 ((s.reg rs2).toNat / 2 ^ (8 * i) % 256)) ∧
      (s.len < (s.reg rs1).toNat + imm + p.2.1 →
        exec p.2.2 s = .next (faultState s .outOfBounds))

/-- R65: after a put at an offset, a get at the same offset reads the value's low bytes, and a narrower
get inside it reads the bytes in place. -/
def Obligations.GetAfterPutReadsTheBytes : Prop :=
  ∀ (s t : State) (rd rs1 rs2 : Reg) (imm : Nat),
    (exec (.bcPuto64 rs2 rs1 imm) s = .next t → t.Ended .ok →
      (∃ u, exec (.bcGeto64 rd rs1 imm) t = .next u ∧ u.resp = some ⟨.ok, s.reg rs2, 0⟩) ∧
      ∀ j < 8, ∃ u, exec (.bcGeto8 rd rs1 (imm + j)) t = .next u ∧
        u.resp = some ⟨.ok, BitVec.ofNat 64 ((s.reg rs2).toNat / 2 ^ (8 * j) % 256), 0⟩) ∧
    (exec (.bcPuto32 rs2 rs1 imm) s = .next t → t.Ended .ok →
      (∃ u, exec (.bcGeto32 rd rs1 imm) t = .next u ∧
        u.resp = some ⟨.ok, BitVec.ofNat 64 ((s.reg rs2).toNat % 2 ^ 32), 0⟩) ∧
      ∃ u, exec (.bcGeto16 rd rs1 (imm + 1)) t = .next u ∧
        u.resp = some ⟨.ok, BitVec.ofNat 64 ((s.reg rs2).toNat / 2 ^ 8 % 2 ^ 16), 0⟩)

/-- R142: `DecVar(off)` is `(v, l)` exactly where the bytes say so; it fails everywhere else, and every
value is below `2^64`. That the continuation bit is bit 7 is R142's general knowledge (log 13). -/
def Obligations.DecVarReadsTheGroups : Prop :=
  ∀ (s : State) (off : Nat),
    (∀ v l, s.decVar off = some (v, l) ↔ s.VarintAt off v l) ∧
    ∀ v l, s.VarintAt off v l → v < 2 ^ 64

/-- R143: `EncVar(v)` has `max(1, ceil(bitlen(v) / 7))` bytes; byte `i` holds group `i`, with the
continuation bit in all but the last. That the continuation bit is bit 7, of weight 128, is R142's general
knowledge (log 13). -/
def Obligations.EncVarIsMinimal : Prop :=
  ∀ v < 2 ^ 64, (encVar v).length = max 1 ((bitlen v + 6) / 7) ∧
    ∀ i < (encVar v).length, (encVar v)[i]? =
      some (BitVec.ofNat 8
        (v / 2 ^ (7 * i) % 128 + if i + 1 < (encVar v).length then 128 else 0))

/-- R144: (a) the inverse law, (b) bytes after the last byte of the value do not influence `DecVar`,
(c) the encoding of a decoded value is never longer than the bytes decoded and need not be the same. -/
def Obligations.VarintLaws : Prop :=
  (∀ (s : State) (off v : Nat), v < 2 ^ 64 → off + (encVar v).length ≤ s.len →
    (∀ i < (encVar v).length,
      some (Memory.read s.mem (s.base + off + i)) = (encVar v)[i]?) →
    s.decVar off = some (v, (encVar v).length)) ∧
  (∀ (s t : State) (off v l : Nat), s.decVar off = some (v, l) → off + l ≤ t.len →
    (∀ i < l, Memory.read t.mem (t.base + off + i) = Memory.read s.mem (s.base + off + i)) →
    t.decVar off = some (v, l)) ∧
  (∀ (s : State) (off v l : Nat), s.decVar off = some (v, l) → (encVar v).length ≤ l) ∧
  ∃ (s : State) (off v l : Nat), s.decVar off = some (v, l) ∧ (encVar v).length ≠ l

/-- R170, R171: the varint gets, with the sentinel on failure (`DecVar` as R142 has it, log 13). -/
def Obligations.VarintGets : Prop :=
  ∀ (s : State) (rd rd2 rs1 : Reg) (imm : Nat),
    encode (.bcGetvar rd rd2) = wordOf 0x28 rd.num 0 rd2.num 0 0 ∧
    encode (.bcGetvaro rd rd2 rs1 imm) = wordOf 0x29 rd.num rs1.num rd2.num 0 imm ∧
    (∀ v l, s.VarintAt s.pos v l →
      exec (.bcGetvar rd rd2) s = .next (okState s
        { s with
          regs := (s.regs.write rd (BitVec.ofNat 64 v)).write rd2 (BitVec.ofNat 64 l)
          pos := s.pos + l } (BitVec.ofNat 64 v) (BitVec.ofNat 64 l))) ∧
    ((∀ v l, ¬ s.VarintAt s.pos v l) → exec (.bcGetvar rd rd2) s = .next (varFaultState s rd2)) ∧
    (∀ v l, s.VarintAt ((s.reg rs1).toNat + imm) v l →
      exec (.bcGetvaro rd rd2 rs1 imm) s = .next (okState s
        { s with regs := (s.regs.write rd (BitVec.ofNat 64 v)).write rd2 (BitVec.ofNat 64 l) }
        (BitVec.ofNat 64 v) (BitVec.ofNat 64 l))) ∧
    ((∀ v l, ¬ s.VarintAt ((s.reg rs1).toNat + imm) v l) →
      exec (.bcGetvaro rd rd2 rs1 imm) s = .next (varFaultState s rd2))

/-- R172: `BC.PUTVAR` stores `EncVar(x[rs2])` at `POS`, or nothing. -/
def Obligations.VarintPut : Prop :=
  ∀ (s : State) (rd rs2 : Reg),
    encode (.bcPutvar rd rs2) = wordOf 0x2A rd.num 0 rs2.num 0 0 ∧
    (s.pos + (encVar (s.reg rs2).toNat).length ≤ s.len →
      ∃ t, exec (.bcPutvar rd rs2) s = .next t ∧
        t = okState s
          { s with
            regs := s.regs.write rd (BitVec.ofNat 64 (encVar (s.reg rs2).toNat).length)
            pos := s.pos + (encVar (s.reg rs2).toNat).length
            mem := t.mem } (BitVec.ofNat 64 (encVar (s.reg rs2).toNat).length) 0 ∧
        StoredAt s.mem t.mem (s.base + s.pos) (encVar (s.reg rs2).toNat).length
          fun i => (encVar (s.reg rs2).toNat).getD i 0) ∧
    (s.len < s.pos + (encVar (s.reg rs2).toNat).length →
      exec (.bcPutvar rd rs2) s = .next (faultState s .outOfBounds))

/-- R144(a) at the commands, the document's `getVarUint(putVarUint(v)) == v`: a `BC.PUTVAR` that ends
with status 0 and a `BC.GETVAR` from the position it wrote at give the value and its length back. -/
def Obligations.GetvarReadsBackPutvar : Prop :=
  ∀ (s t : State) (rd rs2 ra rb : Reg), exec (.bcPutvar rd rs2) s = .next t → t.Ended .ok →
    ∃ u, exec (.bcGetvar ra rb) { t with pos := s.pos } = .next u ∧ u.pos = t.pos ∧
      u.resp = some ⟨.ok, s.reg rs2, BitVec.ofNat 64 (encVar (s.reg rs2).toNat).length⟩

/-! ### Bit Cursor (spec/42_bit_cursor.md; spec/20_memory.md R66, R67) -/

/-- R66, R67: the multi-bit read is the sum of R67 and may be split anywhere. -/
def Obligations.BitReadsSplit : Prop :=
  ∀ (s : State) (p a b : Nat),
    s.sbits p a = s.bitsSpec p a ∧ s.bitsSpec p a < 2 ^ a ∧
    s.bitsSpec p (a + b) = s.bitsSpec p a * 2 ^ b + s.bitsSpec (p + a) b

/-- R194, R195, R198: the reader's position. -/
def Obligations.ReaderPositionCommands : Prop :=
  ∀ (s : State) (rd rs1 : Reg) (imm : Nat),
    encode .brOpen = wordOf 0x30 0 0 0 0 0 ∧
    encode (.brSeek rs1 imm) = wordOf 0x31 0 rs1.num 0 0 imm ∧
    encode (.brHasnext rd) = wordOf 0x34 rd.num 0 0 0 0 ∧
    exec .brOpen s = .next (okState s { s with rbit := 8 * s.pos } 0 0) ∧
    ((s.reg rs1).toNat + imm ≤ 8 * s.len →
      exec (.brSeek rs1 imm) s =
        .next (okState s { s with rbit := (s.reg rs1).toNat + imm } 0 0)) ∧
    (8 * s.len < (s.reg rs1).toNat + imm →
      exec (.brSeek rs1 imm) s = .next (faultState s .outOfBounds)) ∧
    (s.rbit < 8 * s.len → exec (.brHasnext rd) s =
      .next (okState s { s with regs := s.regs.write rd 1 } 1 0)) ∧
    (8 * s.len ≤ s.rbit → exec (.brHasnext rd) s =
      .next (okState s { s with regs := s.regs.write rd 0 } 0 0))

/-- R196, R197, R193, R308: `BR.NEXT` and `BR.NEXTV`; the count is checked before the bounds. -/
def Obligations.BitReads : Prop :=
  ∀ (s : State) (rd rs1 : Reg) (k : Nat),
    encode (.brNext rd k) = wordOf 0x32 rd.num 0 0 k 0 ∧
    encode (.brNextv rd rs1) = wordOf 0x33 rd.num rs1.num 0 0 0 ∧
    (∀ p a b, s.bitsSpec p a < 2 ^ a ∧
      s.bitsSpec p (a + b) = s.bitsSpec p a * 2 ^ b + s.bitsSpec (p + a) b) ∧
    ∀ p ∈ [(k, Instr.brNext rd k), ((s.reg rs1).toNat, .brNextv rd rs1)],
      (1 ≤ p.1 → p.1 ≤ 64 → s.rbit + p.1 ≤ 8 * s.len →
        ∃ v : Word, v.toNat = s.bitsSpec s.rbit p.1 ∧
          exec p.2 s = .next (okState s
            { s with regs := s.regs.write rd v, rbit := s.rbit + p.1 } v 0)) ∧
      (1 ≤ p.1 → p.1 ≤ 64 → 8 * s.len < s.rbit + p.1 →
        exec p.2 s = .next (faultState s .outOfBounds)) ∧
      (p.1 = 0 ∨ 65 ≤ p.1 → exec p.2 s = .next (faultState s .unsupportedFeature))

/-- R199, R200, R193: `BW.PUSH` and `BW.PUSHV`. The pending bits and the `n` new ones make a string of
`tot` bits; its complete bytes are stored at `POS`, the rest is pending. -/
def Obligations.BitPushes : Prop :=
  ∀ (s : State) (rs2 rs1 : Reg) (k : Nat),
    encode (.bwPush rs2 k) = wordOf 0x38 0 0 rs2.num k 0 ∧
    encode (.bwPushv rs2 rs1) = wordOf 0x39 0 rs1.num rs2.num 0 0 ∧
    ∀ p ∈ [(k, Instr.bwPush rs2 k), ((s.reg rs1).toNat, .bwPushv rs2 rs1)],
      ∀ tot buf : Nat, tot = s.wcnt.toNat + p.1 →
        buf = s.wpend.toNat * 2 ^ p.1 + (s.reg rs2).toNat % 2 ^ p.1 →
        (1 ≤ p.1 → p.1 ≤ 64 → s.pos + tot / 8 ≤ s.len →
          ∃ t, exec p.2 s = .next t ∧
            t = okState s { s with pos := s.pos + tot / 8, wcnt := t.wcnt, wpend := t.wpend,
                                   mem := t.mem } 0 0 ∧
            t.wcnt.toNat = tot % 8 ∧ t.wpend.toNat = buf % 2 ^ (tot % 8) ∧
            StoredAt s.mem t.mem (s.base + s.pos) (tot / 8)
              fun i => BitVec.ofNat 8 (buf / 2 ^ (tot - 8 * (i + 1)) % 256)) ∧
        (1 ≤ p.1 → p.1 ≤ 64 → s.len < s.pos + tot / 8 →
          exec p.2 s = .next (faultState s .outOfBounds)) ∧
        (p.1 = 0 ∨ 65 ≤ p.1 → exec p.2 s = .next (faultState s .unsupportedFeature))

/-- R201: `BW.FLUSH` writes the pending bits at the top of a byte with zeros below; with nothing pending
it writes nothing. -/
def Obligations.FlushPadsWithZeros : Prop :=
  ∀ s : State, encode .bwFlush = wordOf 0x3A 0 0 0 0 0 ∧
    (s.wcnt = 0 → exec .bwFlush s = .next (okState s s 0 0)) ∧
    (s.wcnt ≠ 0 → s.pos + 1 ≤ s.len →
      ∃ t, exec .bwFlush s = .next t ∧
        t = okState s { s with pos := s.pos + 1, wcnt := 0, wpend := 0, mem := t.mem } 0 0 ∧
        StoredAt s.mem t.mem (s.base + s.pos) 1
          fun _ => BitVec.ofNat 8 (s.wpend.toNat * 2 ^ (8 - s.wcnt.toNat))) ∧
    (s.wcnt ≠ 0 → s.len < s.pos + 1 → exec .bwFlush s = .next (faultState s .outOfBounds))

/-- R202: what is pushed and flushed is read back, count by count; the bytes depend only on the
concatenated bit string, and the padding up to the byte boundary is zero. -/
def Obligations.WriterReaderRoundTrip : Prop :=
  ∀ (ps : List (Nat × Nat)) (s t u : State), s.WriterInv → s.wcnt = 0 →
    (∀ q ∈ ps, 1 ≤ q.2 ∧ q.2 ≤ 64 ∧ q.1 < 2 ^ q.2) →
    pushAll ps s = some t → okExec .bwFlush t = some u →
      u.pos = s.pos + ((ps.map Prod.snd).sum + 8 - 1) / 8 ∧
      readAll (ps.map Prod.snd) { u with rbit := 8 * s.pos } = some (ps.map Prod.fst) ∧
      u.bitsSpec (8 * s.pos) (ps.map Prod.snd).sum =
        ps.foldl (fun acc q => acc * 2 ^ q.2 + q.1) 0 ∧
      ∀ j, 8 * s.pos + (ps.map Prod.snd).sum ≤ j → j < 8 * u.pos → u.bitSpec j = 0

/-! ### Unpacker (spec/43_unpacker.md) -/

/-- R225, R226, R227: the set-up commands. -/
def Obligations.UnpackerSetUp : Prop :=
  ∀ (s : State) (rs1 : Reg) (imm E : Nat), E = (s.reg rs1).toNat + imm →
    encode (.unpSel rs1 imm) = wordOf 0x40 0 rs1.num 0 0 imm ∧
    encode (.unpBase rs1 imm) = wordOf 0x41 0 rs1.num 0 0 imm ∧
    encode (.unpCount rs1 imm) = wordOf 0x42 0 rs1.num 0 0 imm ∧
    (1 ≤ E → E ≤ 32 → ∃ w : BitVec 6, w.toNat = E ∧
      exec (.unpSel rs1 imm) s = .next (okState s { s with uw := w } 0 0)) ∧
    (E = 0 ∨ 33 ≤ E → exec (.unpSel rs1 imm) s = .next (faultState s .unsupportedFeature)) ∧
    (E ≤ s.len → exec (.unpBase rs1 imm) s = .next (okState s { s with udata := E } 0 0)) ∧
    (s.len < E → exec (.unpBase rs1 imm) s = .next (faultState s .outOfBounds)) ∧
    (E < 2 ^ 32 → ∃ n : BitVec 32, n.toNat = E ∧
      exec (.unpCount rs1 imm) s = .next (okState s { s with un := n } 0 0)) ∧
    (2 ^ 32 ≤ E → exec (.unpCount rs1 imm) s = .next (faultState s .outOfBounds))

/-- R229: `UNP.HDR` decodes a block header at `POS` and moves past the block, or raises the first
failing check of the written order and changes nothing (`DecVar` as R142 has it, log 13). -/
def Obligations.BlockHeader : Prop :=
  ∀ (s : State) (rd : Reg) (w : Nat), w = (Memory.read s.mem (s.base + s.pos)).toNat →
    encode (.unpHdr rd) = wordOf 0x44 rd.num 0 0 0 0 ∧
    (s.len ≤ s.pos → exec (.unpHdr rd) s = .next (faultState s .corruptData)) ∧
    (s.pos < s.len → (w = 0 ∨ 33 ≤ w) →
      exec (.unpHdr rd) s = .next (faultState s .unsupportedFeature)) ∧
    (s.pos < s.len → 1 ≤ w → w ≤ 32 → (∀ v l, ¬ s.VarintAt (s.pos + 1) v l) →
      exec (.unpHdr rd) s = .next (faultState s .corruptData)) ∧
    ∀ v l pay : Nat, s.pos < s.len → 1 ≤ w → w ≤ 32 → s.VarintAt (s.pos + 1) v l →
      pay = (s.un.toNat * w + 8 - 1) / 8 →
      (2 ^ 32 ≤ v → exec (.unpHdr rd) s = .next (faultState s .corruptData)) ∧
      (v < 2 ^ 32 → s.len < s.pos + 1 + l + pay →
        exec (.unpHdr rd) s = .next (faultState s .corruptData)) ∧
      (v < 2 ^ 32 → s.pos + 1 + l + pay ≤ s.len →
        ∃ t, exec (.unpHdr rd) s = .next t ∧
          t = okState s
            { s with
              uw := t.uw, uref := t.uref, udata := s.pos + 1 + l, pos := s.pos + 1 + l + pay
              regs := s.regs.write rd (BitVec.ofNat 64 (1 + l + pay)) }
            (BitVec.ofNat 64 (1 + l + pay)) 0 ∧
          t.uw.toNat = w ∧ t.uref.toNat = v)

/-- R228, R230, R222: `UNP.GET` and `UNP.AT`, the checks in the written order. -/
def Obligations.FieldReads : Prop :=
  ∀ (s : State) (rd rs1 : Reg) (imm E f : Nat), E = (s.reg rs1).toNat + imm →
    f = s.fieldSpec E →
    encode (.unpGet rd rs1 imm) = wordOf 0x43 rd.num rs1.num 0 0 imm ∧
    encode (.unpAt rd rs1 imm) = wordOf 0x45 rd.num rs1.num 0 0 imm ∧
    (∀ i ∈ [Instr.unpGet rd rs1 imm, .unpAt rd rs1 imm],
      (s.uw = 0 → exec i s = .next (faultState s .unsupportedFeature)) ∧
      (s.uw ≠ 0 → s.un.toNat ≤ E → exec i s = .next (faultState s .outOfBounds)) ∧
      (s.uw ≠ 0 → E < s.un.toNat → 8 * s.len < 8 * s.udata + (E + 1) * s.uw.toNat →
        exec i s = .next (faultState s .corruptData))) ∧
    (s.uw ≠ 0 → E < s.un.toNat → 8 * s.udata + (E + 1) * s.uw.toNat ≤ 8 * s.len →
      (∃ v : Word, v.toNat = f ∧
        exec (.unpGet rd rs1 imm) s =
          .next (okState s { s with regs := s.regs.write rd v } v 0)) ∧
      (s.uref.toNat + f < 2 ^ 32 → ∃ v : Word, v.toNat = s.uref.toNat + f ∧
        exec (.unpAt rd rs1 imm) s =
          .next (okState s { s with regs := s.regs.write rd v } v 0)) ∧
      (2 ^ 32 ≤ s.uref.toNat + f →
        exec (.unpAt rd rs1 imm) s = .next (faultState s .corruptData)))

/-- R231, R232: the run commands; on a fault, also of one element, no entry is written. -/
def Obligations.Runs : Prop :=
  ∀ (s : State) (rs1 rs2 : Reg) (first count : Nat), s.UnpackerInv → s.cap.ubufN < 2 ^ 32 →
    first = (s.reg rs1).toNat → count = (s.reg rs2).toNat →
    encode (.unpRun rs1 rs2) = wordOf 0x46 0 rs1.num rs2.num 0 0 ∧
    encode (.unpRunref rs1 rs2) = wordOf 0x47 0 rs1.num rs2.num 0 0 ∧
    (∀ i ∈ [Instr.unpRun rs1 rs2, .unpRunref rs1 rs2],
      (s.uw = 0 → exec i s = .next (faultState s .unsupportedFeature)) ∧
      (s.uw ≠ 0 → s.cap.ubufN < count → exec i s = .next (faultState s .outOfBounds)) ∧
      (s.uw ≠ 0 → count ≤ s.cap.ubufN → s.un.toNat < first + count →
        exec i s = .next (faultState s .outOfBounds)) ∧
      (s.uw ≠ 0 → count ≤ s.cap.ubufN → first + count ≤ s.un.toNat → 0 < count →
        8 * s.len < 8 * s.udata + (first + count) * s.uw.toNat →
        exec i s = .next (faultState s .corruptData))) ∧
    (s.uw ≠ 0 → count ≤ s.cap.ubufN → first + count ≤ s.un.toNat →
      (count = 0 ∨ 8 * s.udata + (first + count) * s.uw.toNat ≤ 8 * s.len) →
      (∃ t, exec (.unpRun rs1 rs2) s = .next t ∧
        t = okState s { s with ubuf := t.ubuf, ucnt := t.ucnt } 0 0 ∧ t.ucnt.toNat = count ∧
        (∀ k < count, (t.bufEntry k).toNat = s.fieldSpec (first + k)) ∧
        ∀ k, count ≤ k → t.bufEntry k = s.bufEntry k) ∧
      ((∀ k < count, s.uref.toNat + s.fieldSpec (first + k) < 2 ^ 32) →
        ∃ t, exec (.unpRunref rs1 rs2) s = .next t ∧
          t = okState s { s with ubuf := t.ubuf, ucnt := t.ucnt } 0 0 ∧ t.ucnt.toNat = count ∧
          (∀ k < count, (t.bufEntry k).toNat = s.uref.toNat + s.fieldSpec (first + k)) ∧
          ∀ k, count ≤ k → t.bufEntry k = s.bufEntry k) ∧
      (∀ k < count, 2 ^ 32 ≤ s.uref.toNat + s.fieldSpec (first + k) →
        exec (.unpRunref rs1 rs2) s = .next (faultState s .corruptData)))

/-- R233, R234, R235: `UNP.RD` and `UNP.MINW`; the width is the least lane that holds the delta. -/
def Obligations.EntryReadAndMinimalWidth : Prop :=
  ∀ (s : State) (rd rs1 : Reg) (imm : Nat),
    encode (.unpRd rd rs1 imm) = wordOf 0x48 rd.num rs1.num 0 0 imm ∧
    encode (.unpMinw rd rs1) = wordOf 0x49 rd.num rs1.num 0 0 0 ∧
    ((s.reg rs1).toNat + imm < s.ucnt.toNat →
      ∃ v : Word, v.toNat = (s.bufEntry ((s.reg rs1).toNat + imm)).toNat ∧
        exec (.unpRd rd rs1 imm) s =
          .next (okState s { s with regs := s.regs.write rd v } v 0)) ∧
    (s.ucnt.toNat ≤ (s.reg rs1).toNat + imm →
      exec (.unpRd rd rs1 imm) s = .next (faultState s .outOfBounds)) ∧
    ((s.reg rs1).toNat < 2 ^ 32 →
      ∃ v : Word, 1 ≤ v.toNat ∧ v.toNat ≤ 32 ∧ (s.reg rs1).toNat < 2 ^ v.toNat ∧
        (v.toNat = 1 ∨ 2 ^ (v.toNat - 1) ≤ (s.reg rs1).toNat) ∧
        exec (.unpMinw rd rs1) s =
          .next (okState s { s with regs := s.regs.write rd v } v 0)) ∧
    (2 ^ 32 ≤ (s.reg rs1).toNat →
      exec (.unpMinw rd rs1) s = .next (faultState s .unsupportedFeature))

/-- R238(b), (c), (d): a field read is a seek and a bit read; a run entry is a field; an element is a
field plus the reference. -/
def Obligations.FieldReadsAgree : Prop :=
  ∀ (s t : State) (v : Word) (idx : Nat), s.UnpackerInv → s.cap.ubufN < 2 ^ 32 →
    exec (.unpGet .x0 .x0 idx) s = .next t → t.resp = some ⟨.ok, v, 0⟩ →
      (∃ u w, exec (.brSeek .x0 (8 * s.udata + idx * s.uw.toNat)) s = .next u ∧
        exec (.brNext .x0 s.uw.toNat) u = .next w ∧ w.resp = some ⟨.ok, v, 0⟩) ∧
      (∀ (u : State) (rs1 rs2 : Reg) (k : Nat), (s.reg rs1).toNat + k = idx →
        k < (s.reg rs2).toNat → exec (.unpRun rs1 rs2) s = .next u → u.Ended .ok →
        ∃ w, exec (.unpRd .x0 .x0 k) u = .next w ∧ w.resp = some ⟨.ok, v, 0⟩) ∧
      (s.uref.toNat + v.toNat < 2 ^ 32 → ∃ u, exec (.unpAt .x0 .x0 idx) s = .next u ∧
        u.resp = some ⟨.ok, BitVec.ofNat 64 (s.uref.toNat + v.toNat), 0⟩)

/-- R238(a), the document's pack and unpack: `N` fields of width `w` pushed from a byte boundary and
flushed are read back by `UNP.GET`, and `ceil(N·w/8)` bytes were written. -/
def Obligations.PackThenUnpack : Prop :=
  ∀ (fs : List Nat) (w : Nat) (s t u : State), 1 ≤ w → w ≤ 32 → s.WriterInv → s.wcnt = 0 →
    fs.length < 2 ^ 32 → (∀ f ∈ fs, f < 2 ^ w) →
    pushAll (fs.map fun f => (f, w)) s = some t → okExec .bwFlush t = some u →
      u.pos = s.pos + (fs.length * w + 8 - 1) / 8 ∧
      ∀ i (h : i < fs.length), ∃ r,
        exec (.unpGet .x0 .x0 i) { u with uw := BitVec.ofNat 6 w, udata := s.pos,
                                          un := BitVec.ofNat 32 fs.length } = .next r ∧
        r.resp = some ⟨.ok, BitVec.ofNat 64 fs[i], 0⟩

/-! ### Huffman walker (spec/44_huffman.md) -/

/-- R270, R272: `HUF.LOAD` loads a legal table and moves past it; a table too large for the RAMs changes
nothing; any other table is corrupt and leaves no tree (`DecVar` as R142 has it, log 13; the entries of
`HN` and `HL` are free after a failure, log 8). -/
def Obligations.TableLoad : Prop :=
  ∀ (s : State) (rs1 rs2 : Reg) (nn nl : Nat), s.cap.Legal → nn = (s.reg rs1).toNat →
    nl = (s.reg rs2).toNat →
    encode (.hufLoad rs1 rs2) = wordOf 0x50 0 rs1.num rs2.num 0 0 ∧
    (s.cap.maxNodes < nn ∨ s.cap.maxLeaves < nl →
      exec (.hufLoad rs1 rs2) s = .next (faultState s .unsupportedFeature)) ∧
    (nn ≤ s.cap.maxNodes → nl ≤ s.cap.maxLeaves →
      (∀ S bl p, s.TableAt nn nl S bl p →
        ∃ t, exec (.hufLoad rs1 rs2) s = .next t ∧
          t = okState s { s with hvalid := true, hnn := t.hnn, hnl := t.hnl, hn := t.hn,
                                 hl := t.hl, pos := s.pos + S nn + 7 * nl } 0 0 ∧
          t.hnn.toNat = nn ∧ t.hnl.toNat = nl ∧ t.HoldsTable s nn nl S bl p) ∧
      ((¬ ∃ S bl p, s.TableAt nn nl S bl p) →
        ∃ t, exec (.hufLoad rs1 rs2) s = .next t ∧
          t = faultState
            { s with
              hvalid := false, hnn := 0, hnl := 0, hn := t.hn, hl := t.hl, draws := t.draws }
            .corruptData))

/-- R275: `HUF.DEC` decodes the symbol whose walk ends, and raises in the cases the rule names. -/
def Obligations.SymbolDecode : Prop :=
  ∀ (s : State) (rd rd2 : Reg),
    encode (.hufDec rd rd2) = wordOf 0x51 rd.num 0 rd2.num 0 0 ∧
    (s.hvalid = false → exec (.hufDec rd rd2) s = .next (faultState s .illegalCommand)) ∧
    (s.hvalid = true →
      (∀ cnt, s.WalkEndsAt cnt →
        (s.hacc.toNat + s.walkValue cnt < 2 ^ 32 →
          ∃ t, exec (.hufDec rd rd2) s = .next t ∧
            t = okState s
              { s with
                rbit := s.rbit + cnt, hacc := t.hacc
                regs := (s.regs.write rd (BitVec.ofNat 64 (s.walkValue cnt))).write rd2
                  (BitVec.ofNat 64 cnt) }
              (BitVec.ofNat 64 (s.walkValue cnt)) (BitVec.ofNat 64 cnt) ∧
            t.hacc.toNat = s.hacc.toNat + s.walkValue cnt) ∧
        (2 ^ 32 ≤ s.hacc.toNat + s.walkValue cnt →
          exec (.hufDec rd rd2) s = .next (faultState s .corruptData))) ∧
      ((∀ cnt, ¬ s.WalkEndsAt cnt) →
        exec (.hufDec rd rd2) s = .next (faultState s .corruptData)))

/-- R278(b), R275: in a loaded tree a successful `HUF.DEC` consumes exactly the code length, which is
the `codeLength` of the leaf record whose `value` it delivers, between 1 and 255. -/
def Obligations.DecodeConsumesTheCodeLength : Prop :=
  ∀ (s t : State) (rd rd2 : Reg) (v l : Word), s.TreeInv →
    exec (.hufDec rd rd2) s = .next t → t.resp = some ⟨.ok, v, l⟩ →
      1 ≤ l.toNat ∧ l.toNat ≤ 255 ∧ t.rbit = s.rbit + l.toNat ∧
      t.hacc.toNat = s.hacc.toNat + v.toNat ∧
      ∃ j < s.hnl.toNat, (s.leaf j).value.toNat = v.toNat ∧ (s.leaf j).clen.toNat = l.toNat

/-- R278(a): the result of `HUF.DEC` is a function of the tree, `RBIT`, `HACC` and the at most 255
stream bits from `RBIT` (which of them exist included). -/
def Obligations.DecodeDependsOnlyOnTheStream : Prop :=
  ∀ (s s' t t' : State) (rd rd2 : Reg), s'.hvalid = s.hvalid → s'.hn = s.hn → s'.hl = s.hl →
    s'.hacc = s.hacc → s'.rbit = s.rbit →
    (∀ j < 255, (s.rbit + j < 8 * s.len ↔ s.rbit + j < 8 * s'.len) ∧
      (s.rbit + j < 8 * s.len → s'.bitSpec (s.rbit + j) = s.bitSpec (s.rbit + j))) →
    exec (.hufDec rd rd2) s = .next t → exec (.hufDec rd rd2) s' = .next t' →
      t'.resp = t.resp ∧ t'.rbit = t.rbit ∧ t'.hacc = t.hacc

/-- R278(c), (d): `HUF.DEC`, issued once for each symbol, decodes a stream that is the concatenation of
code words into the values of their leaf records and advances `RBIT` by the total length and `HACC` by
the sum of the values, provided that the sums stay below `2^32`. -/
def Obligations.DecodeReproducesTheSymbols : Prop :=
  ∀ (ws : List (List Bool × Nat)) (s : State), s.hvalid = true →
    (∀ q ∈ ws, s.CodeWord q.1 q.2) → s.StreamIs s.rbit (ws.map Prod.fst).flatten →
    s.hacc.toNat + (ws.map fun q => (s.leaf q.2).value.toNat).sum < 2 ^ 32 →
      ∃ t, decodeAll ws.length s = some (ws.map fun q => (s.leaf q.2).value.toNat, t) ∧
        t.rbit = s.rbit + (ws.map fun q => q.1.length).sum ∧
        t.hacc.toNat = s.hacc.toNat + (ws.map fun q => (s.leaf q.2).value.toNat).sum

/-- R276: `HUF.ACCSET`. -/
def Obligations.AccumulatorSet : Prop :=
  ∀ (s : State) (rs1 : Reg) (imm : Nat),
    encode (.hufAccset rs1 imm) = wordOf 0x52 0 rs1.num 0 0 imm ∧
    ((s.reg rs1).toNat + imm < 2 ^ 32 → ∃ a : BitVec 32, a.toNat = (s.reg rs1).toNat + imm ∧
      exec (.hufAccset rs1 imm) s = .next (okState s { s with hacc := a } 0 0)) ∧
    (2 ^ 32 ≤ (s.reg rs1).toNat + imm →
      exec (.hufAccset rs1 imm) s = .next (faultState s .outOfBounds))
end

