-- ==== Sys2Proof/Laws/Encoding.lean ====
section
/-! SUPPORT. Fields and words (spec/30_encoding.md R91): a word is its fields, and fields that fit are
cut back out of the word they are assembled to. -/

namespace Sys2Proof

theorem Reg.num_lt (r : Reg) : r.num < 8 := by cases r <;> decide

@[simp] theorem Reg.ofNum_num (r : Reg) : Reg.ofNum r.num = r := by cases r <;> rfl

theorem Reg.num_ofNum (n : Nat) (h : n < 8) : (Reg.ofNum n).num = n := by
  interval_cases n <;> rfl

/-- Every field is within its width (R91). -/
structure Fields.Fit (f : Fields) : Prop where
  op : f.op < 2 ^ 8
  rd : f.rd < 2 ^ 3
  rs1 : f.rs1 < 2 ^ 3
  rs2 : f.rs2 < 2 ^ 3
  n : f.n < 2 ^ 7
  z : f.z < 2 ^ 8
  imm : f.imm < 2 ^ 32

theorem assemble_toNat (f : Fields) (h : f.Fit) :
    (assemble f).toNat = f.op * 2 ^ 56 + f.rd * 2 ^ 53 + f.rs1 * 2 ^ 50 + f.rs2 * 2 ^ 47 +
      f.n * 2 ^ 40 + f.z * 2 ^ 32 + f.imm := by
  obtain ⟨h1, h2, h3, h4, h5, h6, h7⟩ := h
  rw [assemble, BitVec.toNat_ofNat]
  exact Nat.mod_eq_of_lt (by omega)

theorem fieldsOf_assemble (f : Fields) (h : f.Fit) : fieldsOf (assemble f) = f := by
  have ha := assemble_toNat f h
  obtain ⟨h1, h2, h3, h4, h5, h6, h7⟩ := h
  rcases f with ⟨op, rd, rs1, rs2, n, z, imm⟩
  simp only at h1 h2 h3 h4 h5 h6 h7 ha
  simp only [fieldsOf, ha, bitField]
  congr 1 <;> omega

theorem assemble_fieldsOf (c : CommandWord) : assemble (fieldsOf c) = c := by
  apply BitVec.eq_of_toNat_eq
  have := c.isLt
  simp only [assemble, fieldsOf, bitField, BitVec.toNat_ofNat]
  omega

theorem fieldsOf_fit (c : CommandWord) : (fieldsOf c).Fit := by
  constructor <;> simp only [fieldsOf, bitField] <;> omega

/-- The fields of a well-formed command fit their places. -/
theorem Instr.fields_fit (i : Instr) (h : i.WellFormed) : i.fields.Fit := by
  cases i <;> simp [Instr.WellFormed, Instr.wellFormed, immFits, countFits] at h <;>
    constructor <;> simp [Instr.fields] <;> first | apply Reg.num_lt | omega

end Sys2Proof
end

