-- ==== Sys2Proof/Laws/State.lean ====
section
/-! SUPPORT. For every update of the state, what each field holds after it. No later proof unfolds an
update. -/

namespace Sys2Proof.Machine

/-! ### `setReg` -/

@[simp] theorem State.setReg_regs (s : State) (r : Reg) (v : Word) :
    (s.setReg r v).regs = s.regs.write r v := rfl

@[simp] theorem State.setReg_seq (s : State) (r : Reg) (v : Word) :
    (s.setReg r v).seq = s.seq := rfl

@[simp] theorem State.setReg_err (s : State) (r : Reg) (v : Word) :
    (s.setReg r v).err = s.err := rfl

@[simp] theorem State.setReg_eseq (s : State) (r : Reg) (v : Word) :
    (s.setReg r v).eseq = s.eseq := rfl

@[simp] theorem State.setReg_hvalid (s : State) (r : Reg) (v : Word) :
    (s.setReg r v).hvalid = s.hvalid := rfl

@[simp] theorem State.setReg_wcnt (s : State) (r : Reg) (v : Word) :
    (s.setReg r v).wcnt = s.wcnt := rfl

@[simp] theorem State.setReg_wpend (s : State) (r : Reg) (v : Word) :
    (s.setReg r v).wpend = s.wpend := rfl

@[simp] theorem State.setReg_base (s : State) (r : Reg) (v : Word) :
    (s.setReg r v).base = s.base := rfl

@[simp] theorem State.setReg_len (s : State) (r : Reg) (v : Word) :
    (s.setReg r v).len = s.len := rfl

@[simp] theorem State.setReg_pos (s : State) (r : Reg) (v : Word) :
    (s.setReg r v).pos = s.pos := rfl

@[simp] theorem State.setReg_rbit (s : State) (r : Reg) (v : Word) :
    (s.setReg r v).rbit = s.rbit := rfl

@[simp] theorem State.setReg_uw (s : State) (r : Reg) (v : Word) : (s.setReg r v).uw = s.uw := rfl

@[simp] theorem State.setReg_uref (s : State) (r : Reg) (v : Word) :
    (s.setReg r v).uref = s.uref := rfl

@[simp] theorem State.setReg_udata (s : State) (r : Reg) (v : Word) :
    (s.setReg r v).udata = s.udata := rfl

@[simp] theorem State.setReg_un (s : State) (r : Reg) (v : Word) : (s.setReg r v).un = s.un := rfl

@[simp] theorem State.setReg_ucnt (s : State) (r : Reg) (v : Word) :
    (s.setReg r v).ucnt = s.ucnt := rfl

@[simp] theorem State.setReg_ubuf (s : State) (r : Reg) (v : Word) :
    (s.setReg r v).ubuf = s.ubuf := rfl

@[simp] theorem State.setReg_hacc (s : State) (r : Reg) (v : Word) :
    (s.setReg r v).hacc = s.hacc := rfl

@[simp] theorem State.setReg_hnn (s : State) (r : Reg) (v : Word) :
    (s.setReg r v).hnn = s.hnn := rfl

@[simp] theorem State.setReg_hnl (s : State) (r : Reg) (v : Word) :
    (s.setReg r v).hnl = s.hnl := rfl

@[simp] theorem State.setReg_hn (s : State) (r : Reg) (v : Word) : (s.setReg r v).hn = s.hn := rfl

@[simp] theorem State.setReg_hl (s : State) (r : Reg) (v : Word) : (s.setReg r v).hl = s.hl := rfl

@[simp] theorem State.setReg_mem (s : State) (r : Reg) (v : Word) :
    (s.setReg r v).mem = s.mem := rfl

@[simp] theorem State.setReg_cap (s : State) (r : Reg) (v : Word) :
    (s.setReg r v).cap = s.cap := rfl

@[simp] theorem State.setReg_resp (s : State) (r : Reg) (v : Word) :
    (s.setReg r v).resp = s.resp := rfl

@[simp] theorem State.setReg_input (s : State) (r : Reg) (v : Word) :
    (s.setReg r v).input = s.input := rfl

@[simp] theorem State.setReg_draws (s : State) (r : Reg) (v : Word) :
    (s.setReg r v).draws = s.draws := rfl

@[simp] theorem State.setReg_rb (s : State) (r : Reg) (v : Word) (off : Nat) :
    (s.setReg r v).rb off = s.rb off := rfl


/-! ### `setPos` -/

@[simp] theorem State.setPos_regs (s : State) (p : Nat) : (s.setPos p).regs = s.regs := rfl

@[simp] theorem State.setPos_seq (s : State) (p : Nat) : (s.setPos p).seq = s.seq := rfl

@[simp] theorem State.setPos_err (s : State) (p : Nat) : (s.setPos p).err = s.err := rfl

@[simp] theorem State.setPos_eseq (s : State) (p : Nat) : (s.setPos p).eseq = s.eseq := rfl

@[simp] theorem State.setPos_hvalid (s : State) (p : Nat) : (s.setPos p).hvalid = s.hvalid := rfl

@[simp] theorem State.setPos_wcnt (s : State) (p : Nat) : (s.setPos p).wcnt = s.wcnt := rfl

@[simp] theorem State.setPos_wpend (s : State) (p : Nat) : (s.setPos p).wpend = s.wpend := rfl

@[simp] theorem State.setPos_base (s : State) (p : Nat) : (s.setPos p).base = s.base := rfl

@[simp] theorem State.setPos_len (s : State) (p : Nat) : (s.setPos p).len = s.len := rfl

@[simp] theorem State.setPos_pos (s : State) (p : Nat) : (s.setPos p).pos = p := rfl

@[simp] theorem State.setPos_rbit (s : State) (p : Nat) : (s.setPos p).rbit = s.rbit := rfl

@[simp] theorem State.setPos_uw (s : State) (p : Nat) : (s.setPos p).uw = s.uw := rfl

@[simp] theorem State.setPos_uref (s : State) (p : Nat) : (s.setPos p).uref = s.uref := rfl

@[simp] theorem State.setPos_udata (s : State) (p : Nat) : (s.setPos p).udata = s.udata := rfl

@[simp] theorem State.setPos_un (s : State) (p : Nat) : (s.setPos p).un = s.un := rfl

@[simp] theorem State.setPos_ucnt (s : State) (p : Nat) : (s.setPos p).ucnt = s.ucnt := rfl

@[simp] theorem State.setPos_ubuf (s : State) (p : Nat) : (s.setPos p).ubuf = s.ubuf := rfl

@[simp] theorem State.setPos_hacc (s : State) (p : Nat) : (s.setPos p).hacc = s.hacc := rfl

@[simp] theorem State.setPos_hnn (s : State) (p : Nat) : (s.setPos p).hnn = s.hnn := rfl

@[simp] theorem State.setPos_hnl (s : State) (p : Nat) : (s.setPos p).hnl = s.hnl := rfl

@[simp] theorem State.setPos_hn (s : State) (p : Nat) : (s.setPos p).hn = s.hn := rfl

@[simp] theorem State.setPos_hl (s : State) (p : Nat) : (s.setPos p).hl = s.hl := rfl

@[simp] theorem State.setPos_mem (s : State) (p : Nat) : (s.setPos p).mem = s.mem := rfl

@[simp] theorem State.setPos_cap (s : State) (p : Nat) : (s.setPos p).cap = s.cap := rfl

@[simp] theorem State.setPos_resp (s : State) (p : Nat) : (s.setPos p).resp = s.resp := rfl

@[simp] theorem State.setPos_input (s : State) (p : Nat) : (s.setPos p).input = s.input := rfl

@[simp] theorem State.setPos_draws (s : State) (p : Nat) : (s.setPos p).draws = s.draws := rfl

@[simp] theorem State.setPos_reg (s : State) (p : Nat) (q : Reg) :
    (s.setPos p).reg q = s.reg q := rfl

@[simp] theorem State.setPos_rb (s : State) (p : Nat) (off : Nat) :
    (s.setPos p).rb off = s.rb off := rfl


/-! ### `setRbit` -/

@[simp] theorem State.setRbit_regs (s : State) (p : Nat) : (s.setRbit p).regs = s.regs := rfl

@[simp] theorem State.setRbit_seq (s : State) (p : Nat) : (s.setRbit p).seq = s.seq := rfl

@[simp] theorem State.setRbit_err (s : State) (p : Nat) : (s.setRbit p).err = s.err := rfl

@[simp] theorem State.setRbit_eseq (s : State) (p : Nat) : (s.setRbit p).eseq = s.eseq := rfl

@[simp] theorem State.setRbit_hvalid (s : State) (p : Nat) : (s.setRbit p).hvalid = s.hvalid := rfl

@[simp] theorem State.setRbit_wcnt (s : State) (p : Nat) : (s.setRbit p).wcnt = s.wcnt := rfl

@[simp] theorem State.setRbit_wpend (s : State) (p : Nat) : (s.setRbit p).wpend = s.wpend := rfl

@[simp] theorem State.setRbit_base (s : State) (p : Nat) : (s.setRbit p).base = s.base := rfl

@[simp] theorem State.setRbit_len (s : State) (p : Nat) : (s.setRbit p).len = s.len := rfl

@[simp] theorem State.setRbit_pos (s : State) (p : Nat) : (s.setRbit p).pos = s.pos := rfl

@[simp] theorem State.setRbit_rbit (s : State) (p : Nat) : (s.setRbit p).rbit = p := rfl

@[simp] theorem State.setRbit_uw (s : State) (p : Nat) : (s.setRbit p).uw = s.uw := rfl

@[simp] theorem State.setRbit_uref (s : State) (p : Nat) : (s.setRbit p).uref = s.uref := rfl

@[simp] theorem State.setRbit_udata (s : State) (p : Nat) : (s.setRbit p).udata = s.udata := rfl

@[simp] theorem State.setRbit_un (s : State) (p : Nat) : (s.setRbit p).un = s.un := rfl

@[simp] theorem State.setRbit_ucnt (s : State) (p : Nat) : (s.setRbit p).ucnt = s.ucnt := rfl

@[simp] theorem State.setRbit_ubuf (s : State) (p : Nat) : (s.setRbit p).ubuf = s.ubuf := rfl

@[simp] theorem State.setRbit_hacc (s : State) (p : Nat) : (s.setRbit p).hacc = s.hacc := rfl

@[simp] theorem State.setRbit_hnn (s : State) (p : Nat) : (s.setRbit p).hnn = s.hnn := rfl

@[simp] theorem State.setRbit_hnl (s : State) (p : Nat) : (s.setRbit p).hnl = s.hnl := rfl

@[simp] theorem State.setRbit_hn (s : State) (p : Nat) : (s.setRbit p).hn = s.hn := rfl

@[simp] theorem State.setRbit_hl (s : State) (p : Nat) : (s.setRbit p).hl = s.hl := rfl

@[simp] theorem State.setRbit_mem (s : State) (p : Nat) : (s.setRbit p).mem = s.mem := rfl

@[simp] theorem State.setRbit_cap (s : State) (p : Nat) : (s.setRbit p).cap = s.cap := rfl

@[simp] theorem State.setRbit_resp (s : State) (p : Nat) : (s.setRbit p).resp = s.resp := rfl

@[simp] theorem State.setRbit_input (s : State) (p : Nat) : (s.setRbit p).input = s.input := rfl

@[simp] theorem State.setRbit_draws (s : State) (p : Nat) : (s.setRbit p).draws = s.draws := rfl

@[simp] theorem State.setRbit_reg (s : State) (p : Nat) (q : Reg) :
    (s.setRbit p).reg q = s.reg q := rfl

@[simp] theorem State.setRbit_rb (s : State) (p : Nat) (off : Nat) :
    (s.setRbit p).rb off = s.rb off := rfl


/-! ### `setRange` -/

@[simp] theorem State.setRange_regs (s : State) (b l : Nat) : (s.setRange b l).regs = s.regs := rfl

@[simp] theorem State.setRange_seq (s : State) (b l : Nat) : (s.setRange b l).seq = s.seq := rfl

@[simp] theorem State.setRange_err (s : State) (b l : Nat) : (s.setRange b l).err = s.err := rfl

@[simp] theorem State.setRange_eseq (s : State) (b l : Nat) : (s.setRange b l).eseq = s.eseq := rfl

@[simp] theorem State.setRange_hvalid (s : State) (b l : Nat) :
    (s.setRange b l).hvalid = s.hvalid := rfl

@[simp] theorem State.setRange_wcnt (s : State) (b l : Nat) : (s.setRange b l).wcnt = s.wcnt := rfl

@[simp] theorem State.setRange_wpend (s : State) (b l : Nat) :
    (s.setRange b l).wpend = s.wpend := rfl

@[simp] theorem State.setRange_base (s : State) (b l : Nat) : (s.setRange b l).base = b := rfl

@[simp] theorem State.setRange_len (s : State) (b l : Nat) : (s.setRange b l).len = l := rfl

@[simp] theorem State.setRange_pos (s : State) (b l : Nat) : (s.setRange b l).pos = 0 := rfl

@[simp] theorem State.setRange_rbit (s : State) (b l : Nat) : (s.setRange b l).rbit = 0 := rfl

@[simp] theorem State.setRange_uw (s : State) (b l : Nat) : (s.setRange b l).uw = s.uw := rfl

@[simp] theorem State.setRange_uref (s : State) (b l : Nat) : (s.setRange b l).uref = s.uref := rfl

@[simp] theorem State.setRange_udata (s : State) (b l : Nat) :
    (s.setRange b l).udata = s.udata := rfl

@[simp] theorem State.setRange_un (s : State) (b l : Nat) : (s.setRange b l).un = s.un := rfl

@[simp] theorem State.setRange_ucnt (s : State) (b l : Nat) : (s.setRange b l).ucnt = s.ucnt := rfl

@[simp] theorem State.setRange_ubuf (s : State) (b l : Nat) : (s.setRange b l).ubuf = s.ubuf := rfl

@[simp] theorem State.setRange_hacc (s : State) (b l : Nat) : (s.setRange b l).hacc = s.hacc := rfl

@[simp] theorem State.setRange_hnn (s : State) (b l : Nat) : (s.setRange b l).hnn = s.hnn := rfl

@[simp] theorem State.setRange_hnl (s : State) (b l : Nat) : (s.setRange b l).hnl = s.hnl := rfl

@[simp] theorem State.setRange_hn (s : State) (b l : Nat) : (s.setRange b l).hn = s.hn := rfl

@[simp] theorem State.setRange_hl (s : State) (b l : Nat) : (s.setRange b l).hl = s.hl := rfl

@[simp] theorem State.setRange_mem (s : State) (b l : Nat) : (s.setRange b l).mem = s.mem := rfl

@[simp] theorem State.setRange_cap (s : State) (b l : Nat) : (s.setRange b l).cap = s.cap := rfl

@[simp] theorem State.setRange_resp (s : State) (b l : Nat) : (s.setRange b l).resp = s.resp := rfl

@[simp] theorem State.setRange_input (s : State) (b l : Nat) :
    (s.setRange b l).input = s.input := rfl

@[simp] theorem State.setRange_draws (s : State) (b l : Nat) :
    (s.setRange b l).draws = s.draws := rfl

@[simp] theorem State.setRange_reg (s : State) (b l : Nat) (q : Reg) :
    (s.setRange b l).reg q = s.reg q := rfl


/-! ### `setWriter` -/

@[simp] theorem State.setWriter_regs (s : State) (c p : Nat) :
    (s.setWriter c p).regs = s.regs := rfl

@[simp] theorem State.setWriter_seq (s : State) (c p : Nat) : (s.setWriter c p).seq = s.seq := rfl

@[simp] theorem State.setWriter_err (s : State) (c p : Nat) : (s.setWriter c p).err = s.err := rfl

@[simp] theorem State.setWriter_eseq (s : State) (c p : Nat) :
    (s.setWriter c p).eseq = s.eseq := rfl

@[simp] theorem State.setWriter_hvalid (s : State) (c p : Nat) :
    (s.setWriter c p).hvalid = s.hvalid := rfl

@[simp] theorem State.setWriter_wcnt (s : State) (c p : Nat) :
    (s.setWriter c p).wcnt = BitVec.ofNat 3 c := rfl

@[simp] theorem State.setWriter_wpend (s : State) (c p : Nat) :
    (s.setWriter c p).wpend = BitVec.ofNat 7 p := rfl

@[simp] theorem State.setWriter_base (s : State) (c p : Nat) :
    (s.setWriter c p).base = s.base := rfl

@[simp] theorem State.setWriter_len (s : State) (c p : Nat) : (s.setWriter c p).len = s.len := rfl

@[simp] theorem State.setWriter_pos (s : State) (c p : Nat) : (s.setWriter c p).pos = s.pos := rfl

@[simp] theorem State.setWriter_rbit (s : State) (c p : Nat) :
    (s.setWriter c p).rbit = s.rbit := rfl

@[simp] theorem State.setWriter_uw (s : State) (c p : Nat) : (s.setWriter c p).uw = s.uw := rfl

@[simp] theorem State.setWriter_uref (s : State) (c p : Nat) :
    (s.setWriter c p).uref = s.uref := rfl

@[simp] theorem State.setWriter_udata (s : State) (c p : Nat) :
    (s.setWriter c p).udata = s.udata := rfl

@[simp] theorem State.setWriter_un (s : State) (c p : Nat) : (s.setWriter c p).un = s.un := rfl

@[simp] theorem State.setWriter_ucnt (s : State) (c p : Nat) :
    (s.setWriter c p).ucnt = s.ucnt := rfl

@[simp] theorem State.setWriter_ubuf (s : State) (c p : Nat) :
    (s.setWriter c p).ubuf = s.ubuf := rfl

@[simp] theorem State.setWriter_hacc (s : State) (c p : Nat) :
    (s.setWriter c p).hacc = s.hacc := rfl

@[simp] theorem State.setWriter_hnn (s : State) (c p : Nat) : (s.setWriter c p).hnn = s.hnn := rfl

@[simp] theorem State.setWriter_hnl (s : State) (c p : Nat) : (s.setWriter c p).hnl = s.hnl := rfl

@[simp] theorem State.setWriter_hn (s : State) (c p : Nat) : (s.setWriter c p).hn = s.hn := rfl

@[simp] theorem State.setWriter_hl (s : State) (c p : Nat) : (s.setWriter c p).hl = s.hl := rfl

@[simp] theorem State.setWriter_mem (s : State) (c p : Nat) : (s.setWriter c p).mem = s.mem := rfl

@[simp] theorem State.setWriter_cap (s : State) (c p : Nat) : (s.setWriter c p).cap = s.cap := rfl

@[simp] theorem State.setWriter_resp (s : State) (c p : Nat) :
    (s.setWriter c p).resp = s.resp := rfl

@[simp] theorem State.setWriter_input (s : State) (c p : Nat) :
    (s.setWriter c p).input = s.input := rfl

@[simp] theorem State.setWriter_draws (s : State) (c p : Nat) :
    (s.setWriter c p).draws = s.draws := rfl

@[simp] theorem State.setWriter_reg (s : State) (c p : Nat) (q : Reg) :
    (s.setWriter c p).reg q = s.reg q := rfl

@[simp] theorem State.setWriter_rb (s : State) (c p : Nat) (off : Nat) :
    (s.setWriter c p).rb off = s.rb off := rfl


/-! ### `setLane` -/

@[simp] theorem State.setLane_regs (s : State) (w : Nat) : (s.setLane w).regs = s.regs := rfl

@[simp] theorem State.setLane_seq (s : State) (w : Nat) : (s.setLane w).seq = s.seq := rfl

@[simp] theorem State.setLane_err (s : State) (w : Nat) : (s.setLane w).err = s.err := rfl

@[simp] theorem State.setLane_eseq (s : State) (w : Nat) : (s.setLane w).eseq = s.eseq := rfl

@[simp] theorem State.setLane_hvalid (s : State) (w : Nat) : (s.setLane w).hvalid = s.hvalid := rfl

@[simp] theorem State.setLane_wcnt (s : State) (w : Nat) : (s.setLane w).wcnt = s.wcnt := rfl

@[simp] theorem State.setLane_wpend (s : State) (w : Nat) : (s.setLane w).wpend = s.wpend := rfl

@[simp] theorem State.setLane_base (s : State) (w : Nat) : (s.setLane w).base = s.base := rfl

@[simp] theorem State.setLane_len (s : State) (w : Nat) : (s.setLane w).len = s.len := rfl

@[simp] theorem State.setLane_pos (s : State) (w : Nat) : (s.setLane w).pos = s.pos := rfl

@[simp] theorem State.setLane_rbit (s : State) (w : Nat) : (s.setLane w).rbit = s.rbit := rfl

@[simp] theorem State.setLane_uw (s : State) (w : Nat) : (s.setLane w).uw = BitVec.ofNat 6 w := rfl

@[simp] theorem State.setLane_uref (s : State) (w : Nat) : (s.setLane w).uref = s.uref := rfl

@[simp] theorem State.setLane_udata (s : State) (w : Nat) : (s.setLane w).udata = s.udata := rfl

@[simp] theorem State.setLane_un (s : State) (w : Nat) : (s.setLane w).un = s.un := rfl

@[simp] theorem State.setLane_ucnt (s : State) (w : Nat) : (s.setLane w).ucnt = s.ucnt := rfl

@[simp] theorem State.setLane_ubuf (s : State) (w : Nat) : (s.setLane w).ubuf = s.ubuf := rfl

@[simp] theorem State.setLane_hacc (s : State) (w : Nat) : (s.setLane w).hacc = s.hacc := rfl

@[simp] theorem State.setLane_hnn (s : State) (w : Nat) : (s.setLane w).hnn = s.hnn := rfl

@[simp] theorem State.setLane_hnl (s : State) (w : Nat) : (s.setLane w).hnl = s.hnl := rfl

@[simp] theorem State.setLane_hn (s : State) (w : Nat) : (s.setLane w).hn = s.hn := rfl

@[simp] theorem State.setLane_hl (s : State) (w : Nat) : (s.setLane w).hl = s.hl := rfl

@[simp] theorem State.setLane_mem (s : State) (w : Nat) : (s.setLane w).mem = s.mem := rfl

@[simp] theorem State.setLane_cap (s : State) (w : Nat) : (s.setLane w).cap = s.cap := rfl

@[simp] theorem State.setLane_resp (s : State) (w : Nat) : (s.setLane w).resp = s.resp := rfl

@[simp] theorem State.setLane_input (s : State) (w : Nat) : (s.setLane w).input = s.input := rfl

@[simp] theorem State.setLane_draws (s : State) (w : Nat) : (s.setLane w).draws = s.draws := rfl

@[simp] theorem State.setLane_reg (s : State) (w : Nat) (q : Reg) :
    (s.setLane w).reg q = s.reg q := rfl

@[simp] theorem State.setLane_rb (s : State) (w : Nat) (off : Nat) :
    (s.setLane w).rb off = s.rb off := rfl


/-! ### `setUdata` -/

@[simp] theorem State.setUdata_regs (s : State) (d : Nat) : (s.setUdata d).regs = s.regs := rfl

@[simp] theorem State.setUdata_seq (s : State) (d : Nat) : (s.setUdata d).seq = s.seq := rfl

@[simp] theorem State.setUdata_err (s : State) (d : Nat) : (s.setUdata d).err = s.err := rfl

@[simp] theorem State.setUdata_eseq (s : State) (d : Nat) : (s.setUdata d).eseq = s.eseq := rfl

@[simp] theorem State.setUdata_hvalid (s : State) (d : Nat) :
    (s.setUdata d).hvalid = s.hvalid := rfl

@[simp] theorem State.setUdata_wcnt (s : State) (d : Nat) : (s.setUdata d).wcnt = s.wcnt := rfl

@[simp] theorem State.setUdata_wpend (s : State) (d : Nat) : (s.setUdata d).wpend = s.wpend := rfl

@[simp] theorem State.setUdata_base (s : State) (d : Nat) : (s.setUdata d).base = s.base := rfl

@[simp] theorem State.setUdata_len (s : State) (d : Nat) : (s.setUdata d).len = s.len := rfl

@[simp] theorem State.setUdata_pos (s : State) (d : Nat) : (s.setUdata d).pos = s.pos := rfl

@[simp] theorem State.setUdata_rbit (s : State) (d : Nat) : (s.setUdata d).rbit = s.rbit := rfl

@[simp] theorem State.setUdata_uw (s : State) (d : Nat) : (s.setUdata d).uw = s.uw := rfl

@[simp] theorem State.setUdata_uref (s : State) (d : Nat) : (s.setUdata d).uref = s.uref := rfl

@[simp] theorem State.setUdata_udata (s : State) (d : Nat) : (s.setUdata d).udata = d := rfl

@[simp] theorem State.setUdata_un (s : State) (d : Nat) : (s.setUdata d).un = s.un := rfl

@[simp] theorem State.setUdata_ucnt (s : State) (d : Nat) : (s.setUdata d).ucnt = s.ucnt := rfl

@[simp] theorem State.setUdata_ubuf (s : State) (d : Nat) : (s.setUdata d).ubuf = s.ubuf := rfl

@[simp] theorem State.setUdata_hacc (s : State) (d : Nat) : (s.setUdata d).hacc = s.hacc := rfl

@[simp] theorem State.setUdata_hnn (s : State) (d : Nat) : (s.setUdata d).hnn = s.hnn := rfl

@[simp] theorem State.setUdata_hnl (s : State) (d : Nat) : (s.setUdata d).hnl = s.hnl := rfl

@[simp] theorem State.setUdata_hn (s : State) (d : Nat) : (s.setUdata d).hn = s.hn := rfl

@[simp] theorem State.setUdata_hl (s : State) (d : Nat) : (s.setUdata d).hl = s.hl := rfl

@[simp] theorem State.setUdata_mem (s : State) (d : Nat) : (s.setUdata d).mem = s.mem := rfl

@[simp] theorem State.setUdata_cap (s : State) (d : Nat) : (s.setUdata d).cap = s.cap := rfl

@[simp] theorem State.setUdata_resp (s : State) (d : Nat) : (s.setUdata d).resp = s.resp := rfl

@[simp] theorem State.setUdata_input (s : State) (d : Nat) : (s.setUdata d).input = s.input := rfl

@[simp] theorem State.setUdata_draws (s : State) (d : Nat) : (s.setUdata d).draws = s.draws := rfl

@[simp] theorem State.setUdata_reg (s : State) (d : Nat) (q : Reg) :
    (s.setUdata d).reg q = s.reg q := rfl

@[simp] theorem State.setUdata_rb (s : State) (d : Nat) (off : Nat) :
    (s.setUdata d).rb off = s.rb off := rfl


/-! ### `setCount` -/

@[simp] theorem State.setCount_regs (s : State) (n : Nat) : (s.setCount n).regs = s.regs := rfl

@[simp] theorem State.setCount_seq (s : State) (n : Nat) : (s.setCount n).seq = s.seq := rfl

@[simp] theorem State.setCount_err (s : State) (n : Nat) : (s.setCount n).err = s.err := rfl

@[simp] theorem State.setCount_eseq (s : State) (n : Nat) : (s.setCount n).eseq = s.eseq := rfl

@[simp] theorem State.setCount_hvalid (s : State) (n : Nat) :
    (s.setCount n).hvalid = s.hvalid := rfl

@[simp] theorem State.setCount_wcnt (s : State) (n : Nat) : (s.setCount n).wcnt = s.wcnt := rfl

@[simp] theorem State.setCount_wpend (s : State) (n : Nat) : (s.setCount n).wpend = s.wpend := rfl

@[simp] theorem State.setCount_base (s : State) (n : Nat) : (s.setCount n).base = s.base := rfl

@[simp] theorem State.setCount_len (s : State) (n : Nat) : (s.setCount n).len = s.len := rfl

@[simp] theorem State.setCount_pos (s : State) (n : Nat) : (s.setCount n).pos = s.pos := rfl

@[simp] theorem State.setCount_rbit (s : State) (n : Nat) : (s.setCount n).rbit = s.rbit := rfl

@[simp] theorem State.setCount_uw (s : State) (n : Nat) : (s.setCount n).uw = s.uw := rfl

@[simp] theorem State.setCount_uref (s : State) (n : Nat) : (s.setCount n).uref = s.uref := rfl

@[simp] theorem State.setCount_udata (s : State) (n : Nat) : (s.setCount n).udata = s.udata := rfl

@[simp] theorem State.setCount_un (s : State) (n : Nat) :
    (s.setCount n).un = BitVec.ofNat 32 n := rfl

@[simp] theorem State.setCount_ucnt (s : State) (n : Nat) : (s.setCount n).ucnt = s.ucnt := rfl

@[simp] theorem State.setCount_ubuf (s : State) (n : Nat) : (s.setCount n).ubuf = s.ubuf := rfl

@[simp] theorem State.setCount_hacc (s : State) (n : Nat) : (s.setCount n).hacc = s.hacc := rfl

@[simp] theorem State.setCount_hnn (s : State) (n : Nat) : (s.setCount n).hnn = s.hnn := rfl

@[simp] theorem State.setCount_hnl (s : State) (n : Nat) : (s.setCount n).hnl = s.hnl := rfl

@[simp] theorem State.setCount_hn (s : State) (n : Nat) : (s.setCount n).hn = s.hn := rfl

@[simp] theorem State.setCount_hl (s : State) (n : Nat) : (s.setCount n).hl = s.hl := rfl

@[simp] theorem State.setCount_mem (s : State) (n : Nat) : (s.setCount n).mem = s.mem := rfl

@[simp] theorem State.setCount_cap (s : State) (n : Nat) : (s.setCount n).cap = s.cap := rfl

@[simp] theorem State.setCount_resp (s : State) (n : Nat) : (s.setCount n).resp = s.resp := rfl

@[simp] theorem State.setCount_input (s : State) (n : Nat) : (s.setCount n).input = s.input := rfl

@[simp] theorem State.setCount_draws (s : State) (n : Nat) : (s.setCount n).draws = s.draws := rfl

@[simp] theorem State.setCount_reg (s : State) (n : Nat) (q : Reg) :
    (s.setCount n).reg q = s.reg q := rfl

@[simp] theorem State.setCount_rb (s : State) (n : Nat) (off : Nat) :
    (s.setCount n).rb off = s.rb off := rfl


/-! ### `setBlock` -/

@[simp] theorem State.setBlock_regs (s : State) (w v d : Nat) :
    (s.setBlock w v d).regs = s.regs := rfl

@[simp] theorem State.setBlock_seq (s : State) (w v d : Nat) : (s.setBlock w v d).seq = s.seq := rfl

@[simp] theorem State.setBlock_err (s : State) (w v d : Nat) : (s.setBlock w v d).err = s.err := rfl

@[simp] theorem State.setBlock_eseq (s : State) (w v d : Nat) :
    (s.setBlock w v d).eseq = s.eseq := rfl

@[simp] theorem State.setBlock_hvalid (s : State) (w v d : Nat) :
    (s.setBlock w v d).hvalid = s.hvalid := rfl

@[simp] theorem State.setBlock_wcnt (s : State) (w v d : Nat) :
    (s.setBlock w v d).wcnt = s.wcnt := rfl

@[simp] theorem State.setBlock_wpend (s : State) (w v d : Nat) :
    (s.setBlock w v d).wpend = s.wpend := rfl

@[simp] theorem State.setBlock_base (s : State) (w v d : Nat) :
    (s.setBlock w v d).base = s.base := rfl

@[simp] theorem State.setBlock_len (s : State) (w v d : Nat) : (s.setBlock w v d).len = s.len := rfl

@[simp] theorem State.setBlock_pos (s : State) (w v d : Nat) : (s.setBlock w v d).pos = s.pos := rfl

@[simp] theorem State.setBlock_rbit (s : State) (w v d : Nat) :
    (s.setBlock w v d).rbit = s.rbit := rfl

@[simp] theorem State.setBlock_uw (s : State) (w v d : Nat) :
    (s.setBlock w v d).uw = BitVec.ofNat 6 w := rfl

@[simp] theorem State.setBlock_uref (s : State) (w v d : Nat) :
    (s.setBlock w v d).uref = BitVec.ofNat 32 v := rfl

@[simp] theorem State.setBlock_udata (s : State) (w v d : Nat) : (s.setBlock w v d).udata = d := rfl

@[simp] theorem State.setBlock_un (s : State) (w v d : Nat) : (s.setBlock w v d).un = s.un := rfl

@[simp] theorem State.setBlock_ucnt (s : State) (w v d : Nat) :
    (s.setBlock w v d).ucnt = s.ucnt := rfl

@[simp] theorem State.setBlock_ubuf (s : State) (w v d : Nat) :
    (s.setBlock w v d).ubuf = s.ubuf := rfl

@[simp] theorem State.setBlock_hacc (s : State) (w v d : Nat) :
    (s.setBlock w v d).hacc = s.hacc := rfl

@[simp] theorem State.setBlock_hnn (s : State) (w v d : Nat) : (s.setBlock w v d).hnn = s.hnn := rfl

@[simp] theorem State.setBlock_hnl (s : State) (w v d : Nat) : (s.setBlock w v d).hnl = s.hnl := rfl

@[simp] theorem State.setBlock_hn (s : State) (w v d : Nat) : (s.setBlock w v d).hn = s.hn := rfl

@[simp] theorem State.setBlock_hl (s : State) (w v d : Nat) : (s.setBlock w v d).hl = s.hl := rfl

@[simp] theorem State.setBlock_mem (s : State) (w v d : Nat) : (s.setBlock w v d).mem = s.mem := rfl

@[simp] theorem State.setBlock_cap (s : State) (w v d : Nat) : (s.setBlock w v d).cap = s.cap := rfl

@[simp] theorem State.setBlock_resp (s : State) (w v d : Nat) :
    (s.setBlock w v d).resp = s.resp := rfl

@[simp] theorem State.setBlock_input (s : State) (w v d : Nat) :
    (s.setBlock w v d).input = s.input := rfl

@[simp] theorem State.setBlock_draws (s : State) (w v d : Nat) :
    (s.setBlock w v d).draws = s.draws := rfl

@[simp] theorem State.setBlock_reg (s : State) (w v d : Nat) (q : Reg) :
    (s.setBlock w v d).reg q = s.reg q := rfl

@[simp] theorem State.setBlock_rb (s : State) (w v d : Nat) (off : Nat) :
    (s.setBlock w v d).rb off = s.rb off := rfl


/-! ### `setRun` -/

@[simp] theorem State.setRun_regs (s : State) (vs : List Nat) : (s.setRun vs).regs = s.regs := rfl

@[simp] theorem State.setRun_seq (s : State) (vs : List Nat) : (s.setRun vs).seq = s.seq := rfl

@[simp] theorem State.setRun_err (s : State) (vs : List Nat) : (s.setRun vs).err = s.err := rfl

@[simp] theorem State.setRun_eseq (s : State) (vs : List Nat) : (s.setRun vs).eseq = s.eseq := rfl

@[simp] theorem State.setRun_hvalid (s : State) (vs : List Nat) :
    (s.setRun vs).hvalid = s.hvalid := rfl

@[simp] theorem State.setRun_wcnt (s : State) (vs : List Nat) : (s.setRun vs).wcnt = s.wcnt := rfl

@[simp] theorem State.setRun_wpend (s : State) (vs : List Nat) :
    (s.setRun vs).wpend = s.wpend := rfl

@[simp] theorem State.setRun_base (s : State) (vs : List Nat) : (s.setRun vs).base = s.base := rfl

@[simp] theorem State.setRun_len (s : State) (vs : List Nat) : (s.setRun vs).len = s.len := rfl

@[simp] theorem State.setRun_pos (s : State) (vs : List Nat) : (s.setRun vs).pos = s.pos := rfl

@[simp] theorem State.setRun_rbit (s : State) (vs : List Nat) : (s.setRun vs).rbit = s.rbit := rfl

@[simp] theorem State.setRun_uw (s : State) (vs : List Nat) : (s.setRun vs).uw = s.uw := rfl

@[simp] theorem State.setRun_uref (s : State) (vs : List Nat) : (s.setRun vs).uref = s.uref := rfl

@[simp] theorem State.setRun_udata (s : State) (vs : List Nat) :
    (s.setRun vs).udata = s.udata := rfl

@[simp] theorem State.setRun_un (s : State) (vs : List Nat) : (s.setRun vs).un = s.un := rfl

@[simp] theorem State.setRun_ucnt (s : State) (vs : List Nat) :
    (s.setRun vs).ucnt = BitVec.ofNat 32 vs.length := rfl

@[simp] theorem State.setRun_ubuf (s : State) (vs : List Nat) :
    (s.setRun vs).ubuf = vs.map (BitVec.ofNat 32) ++ s.ubuf.drop vs.length := rfl

@[simp] theorem State.setRun_hacc (s : State) (vs : List Nat) : (s.setRun vs).hacc = s.hacc := rfl

@[simp] theorem State.setRun_hnn (s : State) (vs : List Nat) : (s.setRun vs).hnn = s.hnn := rfl

@[simp] theorem State.setRun_hnl (s : State) (vs : List Nat) : (s.setRun vs).hnl = s.hnl := rfl

@[simp] theorem State.setRun_hn (s : State) (vs : List Nat) : (s.setRun vs).hn = s.hn := rfl

@[simp] theorem State.setRun_hl (s : State) (vs : List Nat) : (s.setRun vs).hl = s.hl := rfl

@[simp] theorem State.setRun_mem (s : State) (vs : List Nat) : (s.setRun vs).mem = s.mem := rfl

@[simp] theorem State.setRun_cap (s : State) (vs : List Nat) : (s.setRun vs).cap = s.cap := rfl

@[simp] theorem State.setRun_resp (s : State) (vs : List Nat) : (s.setRun vs).resp = s.resp := rfl

@[simp] theorem State.setRun_input (s : State) (vs : List Nat) :
    (s.setRun vs).input = s.input := rfl

@[simp] theorem State.setRun_draws (s : State) (vs : List Nat) :
    (s.setRun vs).draws = s.draws := rfl

@[simp] theorem State.setRun_reg (s : State) (vs : List Nat) (q : Reg) :
    (s.setRun vs).reg q = s.reg q := rfl

@[simp] theorem State.setRun_rb (s : State) (vs : List Nat) (off : Nat) :
    (s.setRun vs).rb off = s.rb off := rfl


/-! ### `setAcc` -/

@[simp] theorem State.setAcc_regs (s : State) (a : Nat) : (s.setAcc a).regs = s.regs := rfl

@[simp] theorem State.setAcc_seq (s : State) (a : Nat) : (s.setAcc a).seq = s.seq := rfl

@[simp] theorem State.setAcc_err (s : State) (a : Nat) : (s.setAcc a).err = s.err := rfl

@[simp] theorem State.setAcc_eseq (s : State) (a : Nat) : (s.setAcc a).eseq = s.eseq := rfl

@[simp] theorem State.setAcc_hvalid (s : State) (a : Nat) : (s.setAcc a).hvalid = s.hvalid := rfl

@[simp] theorem State.setAcc_wcnt (s : State) (a : Nat) : (s.setAcc a).wcnt = s.wcnt := rfl

@[simp] theorem State.setAcc_wpend (s : State) (a : Nat) : (s.setAcc a).wpend = s.wpend := rfl

@[simp] theorem State.setAcc_base (s : State) (a : Nat) : (s.setAcc a).base = s.base := rfl

@[simp] theorem State.setAcc_len (s : State) (a : Nat) : (s.setAcc a).len = s.len := rfl

@[simp] theorem State.setAcc_pos (s : State) (a : Nat) : (s.setAcc a).pos = s.pos := rfl

@[simp] theorem State.setAcc_rbit (s : State) (a : Nat) : (s.setAcc a).rbit = s.rbit := rfl

@[simp] theorem State.setAcc_uw (s : State) (a : Nat) : (s.setAcc a).uw = s.uw := rfl

@[simp] theorem State.setAcc_uref (s : State) (a : Nat) : (s.setAcc a).uref = s.uref := rfl

@[simp] theorem State.setAcc_udata (s : State) (a : Nat) : (s.setAcc a).udata = s.udata := rfl

@[simp] theorem State.setAcc_un (s : State) (a : Nat) : (s.setAcc a).un = s.un := rfl

@[simp] theorem State.setAcc_ucnt (s : State) (a : Nat) : (s.setAcc a).ucnt = s.ucnt := rfl

@[simp] theorem State.setAcc_ubuf (s : State) (a : Nat) : (s.setAcc a).ubuf = s.ubuf := rfl

@[simp] theorem State.setAcc_hacc (s : State) (a : Nat) :
    (s.setAcc a).hacc = BitVec.ofNat 32 a := rfl

@[simp] theorem State.setAcc_hnn (s : State) (a : Nat) : (s.setAcc a).hnn = s.hnn := rfl

@[simp] theorem State.setAcc_hnl (s : State) (a : Nat) : (s.setAcc a).hnl = s.hnl := rfl

@[simp] theorem State.setAcc_hn (s : State) (a : Nat) : (s.setAcc a).hn = s.hn := rfl

@[simp] theorem State.setAcc_hl (s : State) (a : Nat) : (s.setAcc a).hl = s.hl := rfl

@[simp] theorem State.setAcc_mem (s : State) (a : Nat) : (s.setAcc a).mem = s.mem := rfl

@[simp] theorem State.setAcc_cap (s : State) (a : Nat) : (s.setAcc a).cap = s.cap := rfl

@[simp] theorem State.setAcc_resp (s : State) (a : Nat) : (s.setAcc a).resp = s.resp := rfl

@[simp] theorem State.setAcc_input (s : State) (a : Nat) : (s.setAcc a).input = s.input := rfl

@[simp] theorem State.setAcc_draws (s : State) (a : Nat) : (s.setAcc a).draws = s.draws := rfl

@[simp] theorem State.setAcc_reg (s : State) (a : Nat) (q : Reg) :
    (s.setAcc a).reg q = s.reg q := rfl

@[simp] theorem State.setAcc_rb (s : State) (a : Nat) (off : Nat) :
    (s.setAcc a).rb off = s.rb off := rfl


/-! ### `clearTree` -/

@[simp] theorem State.clearTree_regs (s : State) : (s.clearTree).regs = s.regs := rfl

@[simp] theorem State.clearTree_seq (s : State) : (s.clearTree).seq = s.seq := rfl

@[simp] theorem State.clearTree_err (s : State) : (s.clearTree).err = s.err := rfl

@[simp] theorem State.clearTree_eseq (s : State) : (s.clearTree).eseq = s.eseq := rfl

@[simp] theorem State.clearTree_hvalid (s : State) : (s.clearTree).hvalid = false := rfl

@[simp] theorem State.clearTree_wcnt (s : State) : (s.clearTree).wcnt = s.wcnt := rfl

@[simp] theorem State.clearTree_wpend (s : State) : (s.clearTree).wpend = s.wpend := rfl

@[simp] theorem State.clearTree_base (s : State) : (s.clearTree).base = s.base := rfl

@[simp] theorem State.clearTree_len (s : State) : (s.clearTree).len = s.len := rfl

@[simp] theorem State.clearTree_pos (s : State) : (s.clearTree).pos = s.pos := rfl

@[simp] theorem State.clearTree_rbit (s : State) : (s.clearTree).rbit = s.rbit := rfl

@[simp] theorem State.clearTree_uw (s : State) : (s.clearTree).uw = s.uw := rfl

@[simp] theorem State.clearTree_uref (s : State) : (s.clearTree).uref = s.uref := rfl

@[simp] theorem State.clearTree_udata (s : State) : (s.clearTree).udata = s.udata := rfl

@[simp] theorem State.clearTree_un (s : State) : (s.clearTree).un = s.un := rfl

@[simp] theorem State.clearTree_ucnt (s : State) : (s.clearTree).ucnt = s.ucnt := rfl

@[simp] theorem State.clearTree_ubuf (s : State) : (s.clearTree).ubuf = s.ubuf := rfl

@[simp] theorem State.clearTree_hacc (s : State) : (s.clearTree).hacc = s.hacc := rfl

@[simp] theorem State.clearTree_hnn (s : State) : (s.clearTree).hnn = 0 := rfl

@[simp] theorem State.clearTree_hnl (s : State) : (s.clearTree).hnl = 0 := rfl

@[simp] theorem State.clearTree_hn (s : State) :
    (s.clearTree).hn = (List.range s.hn.length).map (freeNodeEntry s.draws) := rfl

@[simp] theorem State.clearTree_hl (s : State) :
    (s.clearTree).hl = (List.range s.hl.length).map (freeLeafEntry s.draws) := rfl

@[simp] theorem State.clearTree_mem (s : State) : (s.clearTree).mem = s.mem := rfl

@[simp] theorem State.clearTree_cap (s : State) : (s.clearTree).cap = s.cap := rfl

@[simp] theorem State.clearTree_resp (s : State) : (s.clearTree).resp = s.resp := rfl

@[simp] theorem State.clearTree_input (s : State) : (s.clearTree).input = s.input := rfl

@[simp] theorem State.clearTree_draws (s : State) : (s.clearTree).draws = s.draws + 1 := rfl

@[simp] theorem State.clearTree_reg (s : State) (q : Reg) :
    (s.clearTree).reg q = s.reg q := rfl

@[simp] theorem State.clearTree_rb (s : State) (off : Nat) :
    (s.clearTree).rb off = s.rb off := rfl


/-! ### `setTree` -/

@[simp] theorem State.setTree_regs (s : State) (ns : List NodeEntry) (ls : List LeafEntry) :
    (s.setTree ns ls).regs = s.regs := rfl

@[simp] theorem State.setTree_seq (s : State) (ns : List NodeEntry) (ls : List LeafEntry) :
    (s.setTree ns ls).seq = s.seq := rfl

@[simp] theorem State.setTree_err (s : State) (ns : List NodeEntry) (ls : List LeafEntry) :
    (s.setTree ns ls).err = s.err := rfl

@[simp] theorem State.setTree_eseq (s : State) (ns : List NodeEntry) (ls : List LeafEntry) :
    (s.setTree ns ls).eseq = s.eseq := rfl

@[simp] theorem State.setTree_hvalid (s : State) (ns : List NodeEntry) (ls : List LeafEntry) :
    (s.setTree ns ls).hvalid = true := rfl

@[simp] theorem State.setTree_wcnt (s : State) (ns : List NodeEntry) (ls : List LeafEntry) :
    (s.setTree ns ls).wcnt = s.wcnt := rfl

@[simp] theorem State.setTree_wpend (s : State) (ns : List NodeEntry) (ls : List LeafEntry) :
    (s.setTree ns ls).wpend = s.wpend := rfl

@[simp] theorem State.setTree_base (s : State) (ns : List NodeEntry) (ls : List LeafEntry) :
    (s.setTree ns ls).base = s.base := rfl

@[simp] theorem State.setTree_len (s : State) (ns : List NodeEntry) (ls : List LeafEntry) :
    (s.setTree ns ls).len = s.len := rfl

@[simp] theorem State.setTree_pos (s : State) (ns : List NodeEntry) (ls : List LeafEntry) :
    (s.setTree ns ls).pos = s.pos := rfl

@[simp] theorem State.setTree_rbit (s : State) (ns : List NodeEntry) (ls : List LeafEntry) :
    (s.setTree ns ls).rbit = s.rbit := rfl

@[simp] theorem State.setTree_uw (s : State) (ns : List NodeEntry) (ls : List LeafEntry) :
    (s.setTree ns ls).uw = s.uw := rfl

@[simp] theorem State.setTree_uref (s : State) (ns : List NodeEntry) (ls : List LeafEntry) :
    (s.setTree ns ls).uref = s.uref := rfl

@[simp] theorem State.setTree_udata (s : State) (ns : List NodeEntry) (ls : List LeafEntry) :
    (s.setTree ns ls).udata = s.udata := rfl

@[simp] theorem State.setTree_un (s : State) (ns : List NodeEntry) (ls : List LeafEntry) :
    (s.setTree ns ls).un = s.un := rfl

@[simp] theorem State.setTree_ucnt (s : State) (ns : List NodeEntry) (ls : List LeafEntry) :
    (s.setTree ns ls).ucnt = s.ucnt := rfl

@[simp] theorem State.setTree_ubuf (s : State) (ns : List NodeEntry) (ls : List LeafEntry) :
    (s.setTree ns ls).ubuf = s.ubuf := rfl

@[simp] theorem State.setTree_hacc (s : State) (ns : List NodeEntry) (ls : List LeafEntry) :
    (s.setTree ns ls).hacc = s.hacc := rfl

@[simp] theorem State.setTree_hnn (s : State) (ns : List NodeEntry) (ls : List LeafEntry) :
    (s.setTree ns ls).hnn = BitVec.ofNat 32 ns.length := rfl

@[simp] theorem State.setTree_hnl (s : State) (ns : List NodeEntry) (ls : List LeafEntry) :
    (s.setTree ns ls).hnl = BitVec.ofNat 32 ls.length := rfl

@[simp] theorem State.setTree_hn (s : State) (ns : List NodeEntry) (ls : List LeafEntry) :
    (s.setTree ns ls).hn = ns ++ s.hn.drop ns.length := rfl

@[simp] theorem State.setTree_hl (s : State) (ns : List NodeEntry) (ls : List LeafEntry) :
    (s.setTree ns ls).hl = ls ++ s.hl.drop ls.length := rfl

@[simp] theorem State.setTree_mem (s : State) (ns : List NodeEntry) (ls : List LeafEntry) :
    (s.setTree ns ls).mem = s.mem := rfl

@[simp] theorem State.setTree_cap (s : State) (ns : List NodeEntry) (ls : List LeafEntry) :
    (s.setTree ns ls).cap = s.cap := rfl

@[simp] theorem State.setTree_resp (s : State) (ns : List NodeEntry) (ls : List LeafEntry) :
    (s.setTree ns ls).resp = s.resp := rfl

@[simp] theorem State.setTree_input (s : State) (ns : List NodeEntry) (ls : List LeafEntry) :
    (s.setTree ns ls).input = s.input := rfl

@[simp] theorem State.setTree_draws (s : State) (ns : List NodeEntry) (ls : List LeafEntry) :
    (s.setTree ns ls).draws = s.draws := rfl

@[simp] theorem State.setTree_reg (s : State) (ns : List NodeEntry) (ls : List LeafEntry) (q : Reg) :
    (s.setTree ns ls).reg q = s.reg q := rfl

@[simp] theorem State.setTree_rb (s : State) (ns : List NodeEntry) (ls : List LeafEntry) (off : Nat) :
    (s.setTree ns ls).rb off = s.rb off := rfl


/-! ### `setMem` -/

@[simp] theorem State.setMem_regs (s : State) (m : Memory) : (s.setMem m).regs = s.regs := rfl

@[simp] theorem State.setMem_seq (s : State) (m : Memory) : (s.setMem m).seq = s.seq := rfl

@[simp] theorem State.setMem_err (s : State) (m : Memory) : (s.setMem m).err = s.err := rfl

@[simp] theorem State.setMem_eseq (s : State) (m : Memory) : (s.setMem m).eseq = s.eseq := rfl

@[simp] theorem State.setMem_hvalid (s : State) (m : Memory) : (s.setMem m).hvalid = s.hvalid := rfl

@[simp] theorem State.setMem_wcnt (s : State) (m : Memory) : (s.setMem m).wcnt = s.wcnt := rfl

@[simp] theorem State.setMem_wpend (s : State) (m : Memory) : (s.setMem m).wpend = s.wpend := rfl

@[simp] theorem State.setMem_base (s : State) (m : Memory) : (s.setMem m).base = s.base := rfl

@[simp] theorem State.setMem_len (s : State) (m : Memory) : (s.setMem m).len = s.len := rfl

@[simp] theorem State.setMem_pos (s : State) (m : Memory) : (s.setMem m).pos = s.pos := rfl

@[simp] theorem State.setMem_rbit (s : State) (m : Memory) : (s.setMem m).rbit = s.rbit := rfl

@[simp] theorem State.setMem_uw (s : State) (m : Memory) : (s.setMem m).uw = s.uw := rfl

@[simp] theorem State.setMem_uref (s : State) (m : Memory) : (s.setMem m).uref = s.uref := rfl

@[simp] theorem State.setMem_udata (s : State) (m : Memory) : (s.setMem m).udata = s.udata := rfl

@[simp] theorem State.setMem_un (s : State) (m : Memory) : (s.setMem m).un = s.un := rfl

@[simp] theorem State.setMem_ucnt (s : State) (m : Memory) : (s.setMem m).ucnt = s.ucnt := rfl

@[simp] theorem State.setMem_ubuf (s : State) (m : Memory) : (s.setMem m).ubuf = s.ubuf := rfl

@[simp] theorem State.setMem_hacc (s : State) (m : Memory) : (s.setMem m).hacc = s.hacc := rfl

@[simp] theorem State.setMem_hnn (s : State) (m : Memory) : (s.setMem m).hnn = s.hnn := rfl

@[simp] theorem State.setMem_hnl (s : State) (m : Memory) : (s.setMem m).hnl = s.hnl := rfl

@[simp] theorem State.setMem_hn (s : State) (m : Memory) : (s.setMem m).hn = s.hn := rfl

@[simp] theorem State.setMem_hl (s : State) (m : Memory) : (s.setMem m).hl = s.hl := rfl

@[simp] theorem State.setMem_mem (s : State) (m : Memory) : (s.setMem m).mem = m := rfl

@[simp] theorem State.setMem_cap (s : State) (m : Memory) : (s.setMem m).cap = s.cap := rfl

@[simp] theorem State.setMem_resp (s : State) (m : Memory) : (s.setMem m).resp = s.resp := rfl

@[simp] theorem State.setMem_input (s : State) (m : Memory) : (s.setMem m).input = s.input := rfl

@[simp] theorem State.setMem_draws (s : State) (m : Memory) : (s.setMem m).draws = s.draws := rfl

@[simp] theorem State.setMem_reg (s : State) (m : Memory) (q : Reg) :
    (s.setMem m).reg q = s.reg q := rfl


/-! ### `setInput` -/

@[simp] theorem State.setInput_regs (s : State) (es : List HostEvent) :
    (s.setInput es).regs = s.regs := rfl

@[simp] theorem State.setInput_seq (s : State) (es : List HostEvent) :
    (s.setInput es).seq = s.seq := rfl

@[simp] theorem State.setInput_err (s : State) (es : List HostEvent) :
    (s.setInput es).err = s.err := rfl

@[simp] theorem State.setInput_eseq (s : State) (es : List HostEvent) :
    (s.setInput es).eseq = s.eseq := rfl

@[simp] theorem State.setInput_hvalid (s : State) (es : List HostEvent) :
    (s.setInput es).hvalid = s.hvalid := rfl

@[simp] theorem State.setInput_wcnt (s : State) (es : List HostEvent) :
    (s.setInput es).wcnt = s.wcnt := rfl

@[simp] theorem State.setInput_wpend (s : State) (es : List HostEvent) :
    (s.setInput es).wpend = s.wpend := rfl

@[simp] theorem State.setInput_base (s : State) (es : List HostEvent) :
    (s.setInput es).base = s.base := rfl

@[simp] theorem State.setInput_len (s : State) (es : List HostEvent) :
    (s.setInput es).len = s.len := rfl

@[simp] theorem State.setInput_pos (s : State) (es : List HostEvent) :
    (s.setInput es).pos = s.pos := rfl

@[simp] theorem State.setInput_rbit (s : State) (es : List HostEvent) :
    (s.setInput es).rbit = s.rbit := rfl

@[simp] theorem State.setInput_uw (s : State) (es : List HostEvent) :
    (s.setInput es).uw = s.uw := rfl

@[simp] theorem State.setInput_uref (s : State) (es : List HostEvent) :
    (s.setInput es).uref = s.uref := rfl

@[simp] theorem State.setInput_udata (s : State) (es : List HostEvent) :
    (s.setInput es).udata = s.udata := rfl

@[simp] theorem State.setInput_un (s : State) (es : List HostEvent) :
    (s.setInput es).un = s.un := rfl

@[simp] theorem State.setInput_ucnt (s : State) (es : List HostEvent) :
    (s.setInput es).ucnt = s.ucnt := rfl

@[simp] theorem State.setInput_ubuf (s : State) (es : List HostEvent) :
    (s.setInput es).ubuf = s.ubuf := rfl

@[simp] theorem State.setInput_hacc (s : State) (es : List HostEvent) :
    (s.setInput es).hacc = s.hacc := rfl

@[simp] theorem State.setInput_hnn (s : State) (es : List HostEvent) :
    (s.setInput es).hnn = s.hnn := rfl

@[simp] theorem State.setInput_hnl (s : State) (es : List HostEvent) :
    (s.setInput es).hnl = s.hnl := rfl

@[simp] theorem State.setInput_hn (s : State) (es : List HostEvent) :
    (s.setInput es).hn = s.hn := rfl

@[simp] theorem State.setInput_hl (s : State) (es : List HostEvent) :
    (s.setInput es).hl = s.hl := rfl

@[simp] theorem State.setInput_mem (s : State) (es : List HostEvent) :
    (s.setInput es).mem = s.mem := rfl

@[simp] theorem State.setInput_cap (s : State) (es : List HostEvent) :
    (s.setInput es).cap = s.cap := rfl

@[simp] theorem State.setInput_resp (s : State) (es : List HostEvent) :
    (s.setInput es).resp = s.resp := rfl

@[simp] theorem State.setInput_input (s : State) (es : List HostEvent) :
    (s.setInput es).input = es := rfl

@[simp] theorem State.setInput_draws (s : State) (es : List HostEvent) :
    (s.setInput es).draws = s.draws := rfl

@[simp] theorem State.setInput_reg (s : State) (es : List HostEvent) (q : Reg) :
    (s.setInput es).reg q = s.reg q := rfl

@[simp] theorem State.setInput_rb (s : State) (es : List HostEvent) (off : Nat) :
    (s.setInput es).rb off = s.rb off := rfl


/-! ### `putBytes` -/

@[simp] theorem State.putBytes_regs (s : State) (o : Nat) (bs : List Byte) :
    (s.putBytes o bs).regs = s.regs := rfl

@[simp] theorem State.putBytes_seq (s : State) (o : Nat) (bs : List Byte) :
    (s.putBytes o bs).seq = s.seq := rfl

@[simp] theorem State.putBytes_err (s : State) (o : Nat) (bs : List Byte) :
    (s.putBytes o bs).err = s.err := rfl

@[simp] theorem State.putBytes_eseq (s : State) (o : Nat) (bs : List Byte) :
    (s.putBytes o bs).eseq = s.eseq := rfl

@[simp] theorem State.putBytes_hvalid (s : State) (o : Nat) (bs : List Byte) :
    (s.putBytes o bs).hvalid = s.hvalid := rfl

@[simp] theorem State.putBytes_wcnt (s : State) (o : Nat) (bs : List Byte) :
    (s.putBytes o bs).wcnt = s.wcnt := rfl

@[simp] theorem State.putBytes_wpend (s : State) (o : Nat) (bs : List Byte) :
    (s.putBytes o bs).wpend = s.wpend := rfl

@[simp] theorem State.putBytes_base (s : State) (o : Nat) (bs : List Byte) :
    (s.putBytes o bs).base = s.base := rfl

@[simp] theorem State.putBytes_len (s : State) (o : Nat) (bs : List Byte) :
    (s.putBytes o bs).len = s.len := rfl

@[simp] theorem State.putBytes_pos (s : State) (o : Nat) (bs : List Byte) :
    (s.putBytes o bs).pos = s.pos := rfl

@[simp] theorem State.putBytes_rbit (s : State) (o : Nat) (bs : List Byte) :
    (s.putBytes o bs).rbit = s.rbit := rfl

@[simp] theorem State.putBytes_uw (s : State) (o : Nat) (bs : List Byte) :
    (s.putBytes o bs).uw = s.uw := rfl

@[simp] theorem State.putBytes_uref (s : State) (o : Nat) (bs : List Byte) :
    (s.putBytes o bs).uref = s.uref := rfl

@[simp] theorem State.putBytes_udata (s : State) (o : Nat) (bs : List Byte) :
    (s.putBytes o bs).udata = s.udata := rfl

@[simp] theorem State.putBytes_un (s : State) (o : Nat) (bs : List Byte) :
    (s.putBytes o bs).un = s.un := rfl

@[simp] theorem State.putBytes_ucnt (s : State) (o : Nat) (bs : List Byte) :
    (s.putBytes o bs).ucnt = s.ucnt := rfl

@[simp] theorem State.putBytes_ubuf (s : State) (o : Nat) (bs : List Byte) :
    (s.putBytes o bs).ubuf = s.ubuf := rfl

@[simp] theorem State.putBytes_hacc (s : State) (o : Nat) (bs : List Byte) :
    (s.putBytes o bs).hacc = s.hacc := rfl

@[simp] theorem State.putBytes_hnn (s : State) (o : Nat) (bs : List Byte) :
    (s.putBytes o bs).hnn = s.hnn := rfl

@[simp] theorem State.putBytes_hnl (s : State) (o : Nat) (bs : List Byte) :
    (s.putBytes o bs).hnl = s.hnl := rfl

@[simp] theorem State.putBytes_hn (s : State) (o : Nat) (bs : List Byte) :
    (s.putBytes o bs).hn = s.hn := rfl

@[simp] theorem State.putBytes_hl (s : State) (o : Nat) (bs : List Byte) :
    (s.putBytes o bs).hl = s.hl := rfl

@[simp] theorem State.putBytes_mem (s : State) (o : Nat) (bs : List Byte) :
    (s.putBytes o bs).mem = Memory.writeBytes s.mem (s.base + o) bs := rfl

@[simp] theorem State.putBytes_cap (s : State) (o : Nat) (bs : List Byte) :
    (s.putBytes o bs).cap = s.cap := rfl

@[simp] theorem State.putBytes_resp (s : State) (o : Nat) (bs : List Byte) :
    (s.putBytes o bs).resp = s.resp := rfl

@[simp] theorem State.putBytes_input (s : State) (o : Nat) (bs : List Byte) :
    (s.putBytes o bs).input = s.input := rfl

@[simp] theorem State.putBytes_draws (s : State) (o : Nat) (bs : List Byte) :
    (s.putBytes o bs).draws = s.draws := rfl

@[simp] theorem State.putBytes_reg (s : State) (o : Nat) (bs : List Byte) (q : Reg) :
    (s.putBytes o bs).reg q = s.reg q := rfl


/-! ### `finish` -/

@[simp] theorem State.finish_regs (s : State) (st : Status) (v w : Word) :
    (s.finish st v w).regs = s.regs := rfl

@[simp] theorem State.finish_seq (s : State) (st : Status) (v w : Word) :
    (s.finish st v w).seq = s.seq + 1 := rfl

@[simp] theorem State.finish_err (s : State) (st : Status) (v w : Word) :
    (s.finish st v w).err = s.err := rfl

@[simp] theorem State.finish_eseq (s : State) (st : Status) (v w : Word) :
    (s.finish st v w).eseq = s.eseq := rfl

@[simp] theorem State.finish_hvalid (s : State) (st : Status) (v w : Word) :
    (s.finish st v w).hvalid = s.hvalid := rfl

@[simp] theorem State.finish_wcnt (s : State) (st : Status) (v w : Word) :
    (s.finish st v w).wcnt = s.wcnt := rfl

@[simp] theorem State.finish_wpend (s : State) (st : Status) (v w : Word) :
    (s.finish st v w).wpend = s.wpend := rfl

@[simp] theorem State.finish_base (s : State) (st : Status) (v w : Word) :
    (s.finish st v w).base = s.base := rfl

@[simp] theorem State.finish_len (s : State) (st : Status) (v w : Word) :
    (s.finish st v w).len = s.len := rfl

@[simp] theorem State.finish_pos (s : State) (st : Status) (v w : Word) :
    (s.finish st v w).pos = s.pos := rfl

@[simp] theorem State.finish_rbit (s : State) (st : Status) (v w : Word) :
    (s.finish st v w).rbit = s.rbit := rfl

@[simp] theorem State.finish_uw (s : State) (st : Status) (v w : Word) :
    (s.finish st v w).uw = s.uw := rfl

@[simp] theorem State.finish_uref (s : State) (st : Status) (v w : Word) :
    (s.finish st v w).uref = s.uref := rfl

@[simp] theorem State.finish_udata (s : State) (st : Status) (v w : Word) :
    (s.finish st v w).udata = s.udata := rfl

@[simp] theorem State.finish_un (s : State) (st : Status) (v w : Word) :
    (s.finish st v w).un = s.un := rfl

@[simp] theorem State.finish_ucnt (s : State) (st : Status) (v w : Word) :
    (s.finish st v w).ucnt = s.ucnt := rfl

@[simp] theorem State.finish_ubuf (s : State) (st : Status) (v w : Word) :
    (s.finish st v w).ubuf = s.ubuf := rfl

@[simp] theorem State.finish_hacc (s : State) (st : Status) (v w : Word) :
    (s.finish st v w).hacc = s.hacc := rfl

@[simp] theorem State.finish_hnn (s : State) (st : Status) (v w : Word) :
    (s.finish st v w).hnn = s.hnn := rfl

@[simp] theorem State.finish_hnl (s : State) (st : Status) (v w : Word) :
    (s.finish st v w).hnl = s.hnl := rfl

@[simp] theorem State.finish_hn (s : State) (st : Status) (v w : Word) :
    (s.finish st v w).hn = s.hn := rfl

@[simp] theorem State.finish_hl (s : State) (st : Status) (v w : Word) :
    (s.finish st v w).hl = s.hl := rfl

@[simp] theorem State.finish_mem (s : State) (st : Status) (v w : Word) :
    (s.finish st v w).mem = s.mem := rfl

@[simp] theorem State.finish_cap (s : State) (st : Status) (v w : Word) :
    (s.finish st v w).cap = s.cap := rfl

@[simp] theorem State.finish_resp (s : State) (st : Status) (v w : Word) :
    (s.finish st v w).resp = some { status := st, val := v, val2 := w } := rfl

@[simp] theorem State.finish_input (s : State) (st : Status) (v w : Word) :
    (s.finish st v w).input = s.input := rfl

@[simp] theorem State.finish_draws (s : State) (st : Status) (v w : Word) :
    (s.finish st v w).draws = s.draws := rfl

@[simp] theorem State.finish_reg (s : State) (st : Status) (v w : Word) (q : Reg) :
    (s.finish st v w).reg q = s.reg q := rfl

@[simp] theorem State.finish_rb (s : State) (st : Status) (v w : Word) (off : Nat) :
    (s.finish st v w).rb off = s.rb off := rfl


/-! ### `acknowledge` -/

@[simp] theorem State.acknowledge_regs (s : State) : (s.acknowledge).regs = s.regs := rfl

@[simp] theorem State.acknowledge_seq (s : State) : (s.acknowledge).seq = s.seq := rfl

@[simp] theorem State.acknowledge_err (s : State) : (s.acknowledge).err = .ok := rfl

@[simp] theorem State.acknowledge_eseq (s : State) : (s.acknowledge).eseq = 0 := rfl

@[simp] theorem State.acknowledge_hvalid (s : State) : (s.acknowledge).hvalid = s.hvalid := rfl

@[simp] theorem State.acknowledge_wcnt (s : State) : (s.acknowledge).wcnt = s.wcnt := rfl

@[simp] theorem State.acknowledge_wpend (s : State) : (s.acknowledge).wpend = s.wpend := rfl

@[simp] theorem State.acknowledge_base (s : State) : (s.acknowledge).base = s.base := rfl

@[simp] theorem State.acknowledge_len (s : State) : (s.acknowledge).len = s.len := rfl

@[simp] theorem State.acknowledge_pos (s : State) : (s.acknowledge).pos = s.pos := rfl

@[simp] theorem State.acknowledge_rbit (s : State) : (s.acknowledge).rbit = s.rbit := rfl

@[simp] theorem State.acknowledge_uw (s : State) : (s.acknowledge).uw = s.uw := rfl

@[simp] theorem State.acknowledge_uref (s : State) : (s.acknowledge).uref = s.uref := rfl

@[simp] theorem State.acknowledge_udata (s : State) : (s.acknowledge).udata = s.udata := rfl

@[simp] theorem State.acknowledge_un (s : State) : (s.acknowledge).un = s.un := rfl

@[simp] theorem State.acknowledge_ucnt (s : State) : (s.acknowledge).ucnt = s.ucnt := rfl

@[simp] theorem State.acknowledge_ubuf (s : State) : (s.acknowledge).ubuf = s.ubuf := rfl

@[simp] theorem State.acknowledge_hacc (s : State) : (s.acknowledge).hacc = s.hacc := rfl

@[simp] theorem State.acknowledge_hnn (s : State) : (s.acknowledge).hnn = s.hnn := rfl

@[simp] theorem State.acknowledge_hnl (s : State) : (s.acknowledge).hnl = s.hnl := rfl

@[simp] theorem State.acknowledge_hn (s : State) : (s.acknowledge).hn = s.hn := rfl

@[simp] theorem State.acknowledge_hl (s : State) : (s.acknowledge).hl = s.hl := rfl

@[simp] theorem State.acknowledge_mem (s : State) : (s.acknowledge).mem = s.mem := rfl

@[simp] theorem State.acknowledge_cap (s : State) : (s.acknowledge).cap = s.cap := rfl

@[simp] theorem State.acknowledge_resp (s : State) : (s.acknowledge).resp = s.resp := rfl

@[simp] theorem State.acknowledge_input (s : State) : (s.acknowledge).input = s.input := rfl

@[simp] theorem State.acknowledge_draws (s : State) : (s.acknowledge).draws = s.draws := rfl

@[simp] theorem State.acknowledge_reg (s : State) (q : Reg) :
    (s.acknowledge).reg q = s.reg q := rfl

@[simp] theorem State.acknowledge_rb (s : State) (off : Nat) :
    (s.acknowledge).rb off = s.rb off := rfl


/-! ### `recordError` -/

@[simp] theorem State.recordError_regs (s : State) (st : Status) :
    (s.recordError st).regs = s.regs := by
  unfold State.recordError; split <;> rfl

@[simp] theorem State.recordError_seq (s : State) (st : Status) :
    (s.recordError st).seq = s.seq := by
  unfold State.recordError; split <;> rfl

@[simp] theorem State.recordError_err (s : State) (st : Status) :
    (s.recordError st).err = if s.err = .ok then st else s.err := by
  unfold State.recordError; split <;> rfl

@[simp] theorem State.recordError_eseq (s : State) (st : Status) :
    (s.recordError st).eseq = if s.err = .ok then s.seq else s.eseq := by
  unfold State.recordError; split <;> rfl

@[simp] theorem State.recordError_hvalid (s : State) (st : Status) :
    (s.recordError st).hvalid = s.hvalid := by
  unfold State.recordError; split <;> rfl

@[simp] theorem State.recordError_wcnt (s : State) (st : Status) :
    (s.recordError st).wcnt = s.wcnt := by
  unfold State.recordError; split <;> rfl

@[simp] theorem State.recordError_wpend (s : State) (st : Status) :
    (s.recordError st).wpend = s.wpend := by
  unfold State.recordError; split <;> rfl

@[simp] theorem State.recordError_base (s : State) (st : Status) :
    (s.recordError st).base = s.base := by
  unfold State.recordError; split <;> rfl

@[simp] theorem State.recordError_len (s : State) (st : Status) :
    (s.recordError st).len = s.len := by
  unfold State.recordError; split <;> rfl

@[simp] theorem State.recordError_pos (s : State) (st : Status) :
    (s.recordError st).pos = s.pos := by
  unfold State.recordError; split <;> rfl

@[simp] theorem State.recordError_rbit (s : State) (st : Status) :
    (s.recordError st).rbit = s.rbit := by
  unfold State.recordError; split <;> rfl

@[simp] theorem State.recordError_uw (s : State) (st : Status) :
    (s.recordError st).uw = s.uw := by
  unfold State.recordError; split <;> rfl

@[simp] theorem State.recordError_uref (s : State) (st : Status) :
    (s.recordError st).uref = s.uref := by
  unfold State.recordError; split <;> rfl

@[simp] theorem State.recordError_udata (s : State) (st : Status) :
    (s.recordError st).udata = s.udata := by
  unfold State.recordError; split <;> rfl

@[simp] theorem State.recordError_un (s : State) (st : Status) :
    (s.recordError st).un = s.un := by
  unfold State.recordError; split <;> rfl

@[simp] theorem State.recordError_ucnt (s : State) (st : Status) :
    (s.recordError st).ucnt = s.ucnt := by
  unfold State.recordError; split <;> rfl

@[simp] theorem State.recordError_ubuf (s : State) (st : Status) :
    (s.recordError st).ubuf = s.ubuf := by
  unfold State.recordError; split <;> rfl

@[simp] theorem State.recordError_hacc (s : State) (st : Status) :
    (s.recordError st).hacc = s.hacc := by
  unfold State.recordError; split <;> rfl

@[simp] theorem State.recordError_hnn (s : State) (st : Status) :
    (s.recordError st).hnn = s.hnn := by
  unfold State.recordError; split <;> rfl

@[simp] theorem State.recordError_hnl (s : State) (st : Status) :
    (s.recordError st).hnl = s.hnl := by
  unfold State.recordError; split <;> rfl

@[simp] theorem State.recordError_hn (s : State) (st : Status) :
    (s.recordError st).hn = s.hn := by
  unfold State.recordError; split <;> rfl

@[simp] theorem State.recordError_hl (s : State) (st : Status) :
    (s.recordError st).hl = s.hl := by
  unfold State.recordError; split <;> rfl

@[simp] theorem State.recordError_mem (s : State) (st : Status) :
    (s.recordError st).mem = s.mem := by
  unfold State.recordError; split <;> rfl

@[simp] theorem State.recordError_cap (s : State) (st : Status) :
    (s.recordError st).cap = s.cap := by
  unfold State.recordError; split <;> rfl

@[simp] theorem State.recordError_resp (s : State) (st : Status) :
    (s.recordError st).resp = s.resp := by
  unfold State.recordError; split <;> rfl

@[simp] theorem State.recordError_input (s : State) (st : Status) :
    (s.recordError st).input = s.input := by
  unfold State.recordError; split <;> rfl

@[simp] theorem State.recordError_draws (s : State) (st : Status) :
    (s.recordError st).draws = s.draws := by
  unfold State.recordError; split <;> rfl

@[simp] theorem State.recordError_reg (s : State) (st : Status) (q : Reg) :
    (s.recordError st).reg q = s.reg q := by
  unfold State.reg; simp

@[simp] theorem State.recordError_rb (s : State) (st : Status) (off : Nat) :
    (s.recordError st).rb off = s.rb off := by
  unfold State.rb; simp

end Sys2Proof.Machine
end

