-- ==== Sys2Proof/Laws/Stream.lean ====
section
/-! SUPPORT. Integers, bits and varints read from the byte range: their sizes, the lengths of the byte
lists stored, and that a read depends on nothing but the bytes it looks at. -/

namespace Sys2Proof.Machine

/-! ### Fixed-width integers (spec/20_memory.md R64) -/

@[simp] theorem byteWeight_eq (k i : Nat) : Config.byteWeight k i = i := rfl

@[simp] theorem streamBit_eq (j : Nat) : Config.streamBit j = 7 - j := rfl

@[simp] theorem leBytes_length (k v : Nat) : (leBytes k v).length = k := by simp [leBytes]

theorem leBytes_getElem (k v i : Nat) (h : i < (leBytes k v).length) :
    (leBytes k v)[i] = BitVec.ofNat 8 (v / 2 ^ (8 * i) % 256) := by simp [leBytes]

theorem State.leSum_lt (s : State) (k off n : Nat) : s.leSum k off n < 2 ^ (8 * n) := by
  induction n with
  | zero => simp [State.leSum]
  | succ n ih =>
    have hb := (s.rb (off + n)).isLt
    have : (s.rb (off + n)).toNat * 2 ^ (8 * n) ≤ 255 * 2 ^ (8 * n) :=
      Nat.mul_le_mul_right _ (by omega)
    have h8 : (2 : Nat) ^ (8 * (n + 1)) = 256 * 2 ^ (8 * n) := by
      rw [show 8 * (n + 1) = 8 * n + 8 by ring, pow_add]; ring
    simp only [State.leSum, byteWeight_eq]
    omega

/-- A `k`-byte integer is below `2 ^ (8 k)`. -/
theorem State.le_lt (s : State) (k off : Nat) : s.le k off < 2 ^ (8 * k) := s.leSum_lt k off k

theorem State.leSum_congr (s t : State) (k off off' n : Nat)
    (h : ∀ i < n, t.rb (off' + i) = s.rb (off + i)) : t.leSum k off' n = s.leSum k off n := by
  induction n with
  | zero => rfl
  | succ n ih =>
    simp only [State.leSum, h n (by omega), ih fun i hi => h i (by omega)]

/-- `LE(k, off)` looks only at the `k` bytes from `off`. -/
theorem State.le_congr (s t : State) (k off off' : Nat)
    (h : ∀ i < k, t.rb (off' + i) = s.rb (off + i)) : t.le k off' = s.le k off :=
  State.leSum_congr s t k off off' k h

/-! ### The bit stream (spec/20_memory.md R66, R67) -/

theorem State.sbit_lt (s : State) (p : Nat) : s.sbit p < 2 := Nat.mod_lt _ (by decide)

theorem State.sbits_lt (s : State) (p n : Nat) : s.sbits p n < 2 ^ n := by
  induction n with
  | zero => simp [State.sbits]
  | succ n ih =>
    have := s.sbit_lt (p + n)
    rw [State.sbits, pow_succ]
    omega

theorem State.sbit_congr (s t : State) (p : Nat) (h : t.rb (p / 8) = s.rb (p / 8)) :
    t.sbit p = s.sbit p := by simp [State.sbit, h]

/-- `SBits(p, n)` looks only at the bits from `p` to `p + n - 1`. -/
theorem State.sbits_congr (s t : State) (p n : Nat) (h : ∀ i < n, t.sbit (p + i) = s.sbit (p + i)) :
    t.sbits p n = s.sbits p n := by
  induction n with
  | zero => rfl
  | succ n ih => simp only [State.sbits, h n (by omega), ih fun i hi => h i (by omega)]

theorem State.sbits_congr_bytes (s t : State) (p n len : Nat) (hn : p + n ≤ 8 * len)
    (h : ∀ off < len, t.rb off = s.rb off) : t.sbits p n = s.sbits p n :=
  s.sbits_congr t p n fun i hi => s.sbit_congr t _ (h _ (by omega))

@[simp] theorem topBytes_length (buf tot k : Nat) : (topBytes buf tot k).length = k := by
  simp [topBytes]

theorem topBytes_getElem (buf tot k i : Nat) (h : i < (topBytes buf tot k).length) :
    (topBytes buf tot k)[i] = BitVec.ofNat 8 (buf / 2 ^ (tot - 8 * (i + 1)) % 256) := by
  simp [topBytes]

/-! ### Varints (spec/41_byte_cursor.md R142, R143) -/

theorem State.decVarLoop_bounds (s : State) (off fuel i v : Nat) (x l : Nat)
    (h : s.decVarLoop off fuel i v = some (x, l)) : i < l ∧ l ≤ i + fuel ∧ off + l ≤ s.len := by
  induction fuel generalizing i v with
  | zero => simp [State.decVarLoop] at h
  | succ fuel ih =>
    simp only [State.decVarLoop] at h
    split at h
    · simp at h
    · split at h
      · simp at h
      · split at h
        · simp at h; omega
        · have := ih _ _ h; omega

/-- A decoded varint has 1 to 10 bytes, all inside the byte range. -/
theorem State.decVar_bounds (s : State) (off v l : Nat) (h : s.decVar off = some (v, l)) :
    1 ≤ l ∧ l ≤ 10 ∧ off + l ≤ s.len := by
  have := s.decVarLoop_bounds off _ 0 0 v l h
  simp at this; omega

theorem State.decVarLoop_congr (s t : State) (off fuel i v : Nat) (hl : t.len = s.len)
    (h : ∀ o < s.len, t.rb o = s.rb o) : t.decVarLoop off fuel i v = s.decVarLoop off fuel i v := by
  induction fuel generalizing i v with
  | zero => rfl
  | succ fuel ih =>
    simp only [State.decVarLoop, hl]
    by_cases hi : off + i ≥ s.len
    · simp [hi]
    · simp only [h (off + i) (by omega), ih]

/-- `DecVar` looks only at the byte range. -/
theorem State.decVar_congr (s t : State) (off : Nat) (hl : t.len = s.len)
    (h : ∀ o < s.len, t.rb o = s.rb o) : t.decVar off = s.decVar off :=
  s.decVarLoop_congr t off _ 0 0 hl h

theorem encVarLoop_length_le (fuel v : Nat) : (encVarLoop fuel v).length ≤ fuel := by
  induction fuel generalizing v with
  | zero => simp [encVarLoop]
  | succ fuel ih =>
    have := ih (v / 128)
    unfold encVarLoop
    split
    · simp only [List.length_cons]; omega
    · simp

theorem encVar_length_le (v : Nat) : (encVar v).length ≤ 10 := encVarLoop_length_le _ _

theorem encVar_length_pos (v : Nat) : 1 ≤ (encVar v).length := by
  unfold encVar Config.varMaxBytes encVarLoop
  split <;> simp

end Sys2Proof.Machine
end

