-- ==== Sys2Proof/Laws/Huffman.lean ====
section
/-! SUPPORT. What the parts of `HUF.LOAD` and `HUF.DEC` answer (spec/44_huffman.md R270, R275). -/

namespace Sys2Proof.Machine

/-! ### The node records -/

/-- The records `nodeRecords` answers, and the offset after them: one after another from `o`, each its
bit-length byte and its pointer. -/
inductive State.RecordsFrom (s : State) (t : Nat) : Nat → List NodeRecord → Nat → Prop where
  | nil (o : Nat) : s.RecordsFrom t o [] o
  | cons (o p l e : Nat) (rs : List NodeRecord) (hlt : t + o < s.len)
      (hp : s.decVar (t + o + 1) = some (p, l)) (hid : p < 2 ^ 32)
      (hrs : s.RecordsFrom t (o + 1 + l) rs e) :
      s.RecordsFrom t o ({ start := o, bl := s.rb (t + o), ptr := p } :: rs) e

theorem State.nodeRecords_iff (s : State) (t count o : Nat) (rs : List NodeRecord) (e : Nat) :
    s.nodeRecords t count o = some (rs, e) ↔ rs.length = count ∧ s.RecordsFrom t o rs e := by
  induction count generalizing o rs e with
  | zero =>
    simp only [State.nodeRecords, Option.some.injEq, Prod.mk.injEq, List.length_eq_zero_iff]
    constructor
    · rintro ⟨rfl, rfl⟩; exact ⟨rfl, .nil _⟩
    · rintro ⟨rfl, h⟩; cases h; exact ⟨rfl, rfl⟩
  | succ count ih =>
    simp only [State.nodeRecords]
    constructor
    · intro h
      split at h
      · split at h
        · cases h
        · split at h
          · split at h
            · cases h
            · rename_i hd _ _ _ _ hr
              cases h
              obtain ⟨hl, hr⟩ := (ih _ _ _).1 hr
              exact ⟨by simp [hl], .cons _ _ _ _ _ ‹_› hd ‹_› hr⟩
          · cases h
      · cases h
    · rintro ⟨hl, h⟩
      cases h with
      | nil => cases hl
      | cons _ p l _ rs hlt hp hid hrs =>
        simp only [List.length_cons, Nat.add_right_cancel_iff] at hl
        simp [hlt, hp, (ih _ _ _).2 ⟨hl, hrs⟩, show p < 4294967296 by simpa using hid]

/-- Records start at or after the first offset, in rising order, and end after the last. -/
theorem State.RecordsFrom.start_le {s : State} {t o e : Nat} {rs : List NodeRecord}
    (h : s.RecordsFrom t o rs e) : o ≤ e ∧ ∀ r ∈ rs, o ≤ r.start := by
  induction h with
  | nil o => simp
  | cons o p l e rs hlt hp hid hrs ih =>
    refine ⟨by omega, fun r hr => ?_⟩
    rcases List.mem_cons.1 hr with rfl | hr
    · exact Nat.le_refl _
    · have := ih.2 r hr; omega

theorem recordAt_some {rs : List NodeRecord} {p c : Nat} (h : recordAt rs p = some c) :
    ∃ r, rs[c]? = some r ∧ r.start = p := by
  induction rs generalizing c with
  | nil => simp [recordAt] at h
  | cons r rs ih =>
    simp only [recordAt] at h
    split at h
    · cases h; exact ⟨r, rfl, ‹_›⟩
    · obtain ⟨d, hd, rfl⟩ := Option.map_eq_some_iff.1 h
      simpa using ih hd

theorem recordAt_none {rs : List NodeRecord} {p : Nat} (h : recordAt rs p = none) :
    ∀ r ∈ rs, r.start ≠ p := by
  induction rs with
  | nil => simp
  | cons r rs ih =>
    simp only [recordAt] at h
    split at h
    · cases h
    · intro q hq
      rcases List.mem_cons.1 hq with rfl | hq
      · assumption
      · exact ih (by simpa using h) q hq

/-! ### Resolution of the pointers -/

theorem resolveNode_cases {recs : List NodeRecord} {leaves : List LeafEntry} {r : NodeRecord}
    {e : NodeEntry} (h : resolveNode recs leaves r = some e) :
    (r.bl = 0 ∧ ∃ c, recordAt recs r.ptr = some c ∧ 1 ≤ c ∧ c + 1 < recs.length ∧
      e = { bl := 0, ptr := BitVec.ofNat 32 c }) ∨
    (r.bl ≠ 0 ∧ ∃ f, leaves[r.ptr]? = some f ∧ f.clen.toNat = r.bl.toNat ∧
      e = { bl := r.bl, ptr := BitVec.ofNat 32 r.ptr }) := by
  unfold resolveNode at h
  split at h
  · split at h
    · cases h
    · split at h
      · cases h; exact .inl ⟨‹_›, _, ‹_›, And.left ‹_›, And.right ‹_›, rfl⟩
      · cases h
  · split at h
    · cases h
    · split at h
      · cases h; exact .inr ⟨‹_›, _, ‹_›, ‹_›, rfl⟩
      · cases h

/-- `resolveNodes` resolves every record or fails. -/
theorem resolveNodes_iff (recs : List NodeRecord) (leaves : List LeafEntry) (rs : List NodeRecord)
    (es : List NodeEntry) :
    resolveNodes recs leaves rs = some es ↔
      List.Forall₂ (fun r e => resolveNode recs leaves r = some e) rs es := by
  induction rs generalizing es with
  | nil => cases es <;> simp [resolveNodes]
  | cons r rs ih =>
    simp only [resolveNodes]
    cases hr : resolveNode recs leaves r with
    | none => cases es <;> simp [hr]
    | some e =>
      cases hrs : resolveNodes recs leaves rs with
      | none =>
        cases es with
        | nil => simp
        | cons f fs => simp [hr, ← ih, hrs]
      | some fs =>
        cases es with
        | nil => simp
        | cons g gs => simp [hr, ← ih, hrs]

theorem State.readTable_cases {s : State} {nn nl : Nat} {tab : Table}
    (h : s.readTable nn nl = some tab) :
    3 ≤ nn ∧ ∃ recs l, s.nodeRecords s.pos nn 0 = some (recs, l) ∧
      s.pos + l + 7 * nl ≤ s.len ∧ rootNonTerminal recs = true ∧
      tab.leaves = (List.range nl).map (s.leafRecord (s.pos + l)) ∧
      resolveNodes recs tab.leaves recs = some tab.nodes ∧ tab.after = s.pos + l + 7 * nl := by
  unfold State.readTable at h
  split at h
  · split at h
    · cases h
    · split at h
      · split at h
        · split at h
          · cases h
          · cases h; exact ⟨‹_›, _, _, ‹_›, ‹_›, ‹_›, rfl, ‹_›, rfl⟩
        · cases h
      · cases h
  · cases h

/-! ### The table depends only on the byte range -/

theorem State.nodeRecords_congr (s t : State) (at_ count o : Nat) (hl : t.len = s.len)
    (hb : ∀ o < s.len, t.rb o = s.rb o) : t.nodeRecords at_ count o = s.nodeRecords at_ count o := by
  induction count generalizing o with
  | zero => rfl
  | succ count ih =>
    simp only [State.nodeRecords, hl, s.decVar_congr t _ hl hb, ih]
    by_cases h : at_ + o < s.len
    · simp only [hb _ h]
    · simp only [if_neg h]

theorem State.leafRecord_congr (s t : State) (lt j : Nat) (hb : ∀ o < s.len, t.rb o = s.rb o)
    (h : lt + 7 * (j + 1) ≤ s.len) : t.leafRecord lt j = s.leafRecord lt j := by
  have hk : ∀ k off, off + k ≤ s.len → t.le k off = s.le k off := fun k off ho =>
    s.le_congr t k off off fun i hi => hb _ (by omega)
  unfold State.leafRecord
  rw [hk _ _ (by simp; omega), hk _ _ (by simp; omega)]

theorem State.readTable_congr (s t : State) (nn nl : Nat) (hp : t.pos = s.pos) (hl : t.len = s.len)
    (hb : ∀ o < s.len, t.rb o = s.rb o) : t.readTable nn nl = s.readTable nn nl := by
  simp only [State.readTable, hp, hl, s.nodeRecords_congr t _ _ _ hl hb]
  cases s.nodeRecords s.pos nn 0 with
  | none => rfl
  | some x =>
    obtain ⟨recs, l⟩ := x
    by_cases h : s.pos + l + Config.leafStride * nl ≤ s.len
    · have : (List.range nl).map (t.leafRecord (s.pos + l)) =
          (List.range nl).map (s.leafRecord (s.pos + l)) := by
        refine List.map_congr_left fun j hj => s.leafRecord_congr t _ j hb ?_
        have := List.mem_range.1 hj
        simp at h; omega
      simp only [this]
    · simp only [if_neg h]

/-! ### The walk -/

/-- A walk that ends consumed at least one bit and at most its fuel, all inside the byte range, and ends
on a node whose bit-length is the number of bits consumed. -/
theorem State.walk_bounds {s : State} {p0 fuel cur cnt : Nat} {w : WalkEnd}
    (h : s.walk p0 fuel cur cnt = some w) :
    cnt < w.bits ∧ w.bits ≤ cnt + fuel ∧ p0 + w.bits ≤ 8 * s.len ∧
      (s.node w.node).bl.toNat = w.bits := by
  induction fuel generalizing cur cnt with
  | zero => simp [State.walk] at h
  | succ fuel ih =>
    simp only [State.walk] at h
    split at h
    · split at h
      · cases h
        exact ⟨by simp, by simp, by simp only; omega, by assumption⟩
      · split at h
        · have := ih h; exact ⟨by omega, by omega, this.2.2⟩
        · cases h
    · cases h

/-- The walk looks only at the tree and at the stream bits it may consume. -/
theorem State.walk_congr (s t : State) (p0 fuel cur cnt : Nat) (hn : t.hn = s.hn)
    (hb : ∀ j < cnt + fuel, (p0 + j < 8 * t.len ↔ p0 + j < 8 * s.len) ∧
      (p0 + j < 8 * s.len → t.sbit (p0 + j) = s.sbit (p0 + j))) :
    t.walk p0 fuel cur cnt = s.walk p0 fuel cur cnt := by
  induction fuel generalizing cur cnt with
  | zero => rfl
  | succ fuel ih =>
    have hnode : ∀ k, t.node k = s.node k := fun k => by simp [State.node, hn]
    obtain ⟨h1, h2⟩ := hb cnt (by omega)
    by_cases hlt : p0 + cnt < 8 * s.len
    · simp only [State.walk, h1.2 hlt, hlt, if_true, hnode, h2 hlt]
      rw [ih _ _ fun j hj => hb j (by omega)]
    · simp only [State.walk, if_neg hlt, if_neg (mt h1.1 hlt)]

end Sys2Proof.Machine
end

