-- ==== Sys2Proof/Laws/Memory.lean ====
section
/-! SUPPORT. What the memory operations do: what a byte reads as after each, and that each keeps the
canonical form (`Memory.wf`). -/

namespace Sys2Proof.Machine

/-! ### Reading one byte after a write -/

theorem Memory.read_erase (m : Memory) (a b : Nat) :
    Memory.read (Memory.erase m a) b = if b = a then Config.unlistedByte else Memory.read m b := by
  induction m with
  | nil => simp [Memory.erase, Memory.read]
  | cons c t ih =>
    obtain ⟨x, v⟩ := c
    by_cases h : x = a
    · simp only [Memory.erase, h, if_true, ih, Memory.read]
      split <;> simp_all
    · simp only [Memory.erase, h, if_false, Memory.read, ih]
      split <;> split <;> simp_all

theorem Memory.read_insert (m : Memory) (a b : Nat) (v : Byte)
    (hm : ∀ c ∈ m, c.1 ≠ a) :
    Memory.read (Memory.insert m a v) b = if b = a then v else Memory.read m b := by
  induction m with
  | nil => simp [Memory.insert, Memory.read]
  | cons c t ih =>
    obtain ⟨x, w⟩ := c
    have hx : x ≠ a := hm (x, w) (by simp)
    have ht := ih fun c hc => hm c (by simp [hc])
    simp only [Memory.insert]
    split
    · simp [Memory.read]
    · simp only [Memory.read, ht]
      split <;> split <;> simp_all

theorem Memory.mem_erase (m : Memory) (a : Nat) : ∀ c ∈ Memory.erase m a, c ∈ m ∧ c.1 ≠ a := by
  induction m with
  | nil => simp [Memory.erase]
  | cons c t ih =>
    obtain ⟨x, w⟩ := c
    intro d hd
    simp only [Memory.erase] at hd
    split at hd
    · exact ⟨List.mem_cons_of_mem _ (ih d hd).1, (ih d hd).2⟩
    · rcases List.mem_cons.1 hd with rfl | hd
      · exact ⟨by simp, by assumption⟩
      · exact ⟨List.mem_cons_of_mem _ (ih d hd).1, (ih d hd).2⟩

theorem Memory.read_write (m : Memory) (a b : Nat) (v : Byte) :
    Memory.read (Memory.write m a v) b = if b = a then v else Memory.read m b := by
  unfold Memory.write
  split
  · rw [Memory.read_erase]; simp_all
  · have hm : ∀ c ∈ Memory.erase m a, c.1 ≠ a := fun c hc => (Memory.mem_erase m a c hc).2
    rw [Memory.read_insert _ _ _ _ hm, Memory.read_erase]
    split <;> simp_all

@[simp] theorem Memory.read_write_same (m : Memory) (a : Nat) (v : Byte) :
    Memory.read (Memory.write m a v) a = v := by simp [Memory.read_write]

theorem Memory.read_write_other (m : Memory) (a b : Nat) (v : Byte) (h : b ≠ a) :
    Memory.read (Memory.write m a v) b = Memory.read m b := by simp [Memory.read_write, h]

/-- Everything `writeBytes` does to a read. -/
theorem Memory.read_writeBytes (bs : List Byte) (m : Memory) (a b : Nat) :
    Memory.read (Memory.writeBytes m a bs) b =
      if a ≤ b then (bs[b - a]?).getD (Memory.read m b) else Memory.read m b := by
  induction bs generalizing m a with
  | nil => simp [Memory.writeBytes]
  | cons v t ih =>
    simp only [Memory.writeBytes, ih, Memory.read_write]
    rcases lt_trichotomy b a with h | h | h
    · simp [show ¬ a + 1 ≤ b by omega, show ¬ a ≤ b by omega, show b ≠ a by omega]
    · subst h; simp
    · obtain ⟨k, rfl⟩ : ∃ k, b = a + 1 + k := ⟨b - (a + 1), by omega⟩
      simp [show a + 1 + k ≠ a by omega, show a ≤ a + 1 + k by omega,
        show a + 1 + k - a = k + 1 by omega]

theorem Memory.read_writeBytes_inside (bs : List Byte) (m : Memory) (a i : Nat)
    (h : i < bs.length) : Memory.read (Memory.writeBytes m a bs) (a + i) = bs[i] := by
  simp [Memory.read_writeBytes, h]

theorem Memory.read_writeBytes_outside (bs : List Byte) (m : Memory) (a b : Nat)
    (h : b < a ∨ a + bs.length ≤ b) :
    Memory.read (Memory.writeBytes m a bs) b = Memory.read m b := by
  rw [Memory.read_writeBytes]
  split
  · rw [List.getElem?_eq_none (by omega)]; rfl
  · rfl

/-! ### The canonical form -/

theorem Memory.wfFrom_cons (lo a : Nat) (b : Byte) (t : Memory) :
    Memory.wfFrom lo ((a, b) :: t) = true ↔
      lo ≤ a ∧ b ≠ Config.unlistedByte ∧ Memory.wfFrom (a + 1) t = true := by
  simp [Memory.wfFrom, and_assoc]

theorem Memory.wfFrom_mono (m : Memory) {lo lo' : Nat} (h : lo' ≤ lo)
    (hm : Memory.wfFrom lo m = true) : Memory.wfFrom lo' m = true := by
  cases m with
  | nil => rfl
  | cons c t =>
    obtain ⟨a, b⟩ := c
    rw [Memory.wfFrom_cons] at *
    exact ⟨by omega, hm.2⟩

theorem Memory.wfFrom_erase (m : Memory) (lo a : Nat) (hm : Memory.wfFrom lo m = true) :
    Memory.wfFrom lo (Memory.erase m a) = true := by
  induction m generalizing lo with
  | nil => rfl
  | cons c t ih =>
    obtain ⟨x, b⟩ := c
    rw [Memory.wfFrom_cons] at hm
    simp only [Memory.erase]
    split
    · exact Memory.wfFrom_mono _ (by omega) (ih _ hm.2.2)
    · exact (Memory.wfFrom_cons ..).2 ⟨hm.1, hm.2.1, ih _ hm.2.2⟩

theorem Memory.wfFrom_insert (m : Memory) (lo a : Nat) (v : Byte) (hlo : lo ≤ a)
    (hv : v ≠ Config.unlistedByte) (hm : Memory.wfFrom lo m = true) (hne : ∀ c ∈ m, c.1 ≠ a) :
    Memory.wfFrom lo (Memory.insert m a v) = true := by
  induction m generalizing lo with
  | nil => exact (Memory.wfFrom_cons ..).2 ⟨hlo, hv, rfl⟩
  | cons c t ih =>
    obtain ⟨x, b⟩ := c
    have hx : x ≠ a := hne (x, b) (by simp)
    rw [Memory.wfFrom_cons] at hm
    simp only [Memory.insert]
    split
    · exact (Memory.wfFrom_cons ..).2
        ⟨hlo, hv, (Memory.wfFrom_cons ..).2 ⟨by omega, hm.2.1, hm.2.2⟩⟩
    · exact (Memory.wfFrom_cons ..).2
        ⟨hm.1, hm.2.1, ih _ (by omega) hm.2.2 fun c hc => hne c (by simp [hc])⟩

/-- A write keeps the canonical form. -/
theorem Memory.wf_write (m : Memory) (a : Nat) (v : Byte) (hm : Memory.wf m = true) :
    Memory.wf (Memory.write m a v) = true := by
  unfold Memory.write Memory.wf
  split
  · exact Memory.wfFrom_erase _ _ _ hm
  · exact Memory.wfFrom_insert _ _ _ _ (by omega) ‹_› (Memory.wfFrom_erase _ _ _ hm)
      fun c hc => (Memory.mem_erase m a c hc).2

/-- So does a write of several bytes. -/
theorem Memory.wf_writeBytes (bs : List Byte) (m : Memory) (a : Nat) (hm : Memory.wf m = true) :
    Memory.wf (Memory.writeBytes m a bs) = true := by
  induction bs generalizing m a with
  | nil => exact hm
  | cons v t ih => exact ih _ _ (Memory.wf_write _ _ _ hm)

/-- The memory of the state after reset is canonical. -/
theorem State.reset_mem_wf : Memory.wf State.reset.mem = true := rfl

/-! ### Which addresses are listed -/

theorem Memory.mem_insert (m : Memory) (a : Nat) (v : Byte) :
    ∀ c ∈ Memory.insert m a v, c ∈ m ∨ c.1 = a := by
  induction m with
  | nil => simp [Memory.insert]
  | cons d t ih =>
    obtain ⟨x, b⟩ := d
    intro c hc
    simp only [Memory.insert] at hc
    split at hc
    · rcases List.mem_cons.1 hc with rfl | hc
      · exact .inr rfl
      · exact .inl hc
    · rcases List.mem_cons.1 hc with rfl | hc
      · simp
      · exact (ih c hc).imp (List.mem_cons_of_mem _) id

theorem Memory.mem_write (m : Memory) (a : Nat) (v : Byte) :
    ∀ c ∈ Memory.write m a v, c ∈ m ∨ c.1 = a := by
  intro c hc
  unfold Memory.write at hc
  split at hc
  · exact .inl (Memory.mem_erase m a c hc).1
  · exact (Memory.mem_insert _ _ _ c hc).imp (fun h => (Memory.mem_erase m a c h).1) id

theorem Memory.mem_writeBytes (bs : List Byte) (m : Memory) (a : Nat) :
    ∀ c ∈ Memory.writeBytes m a bs, c ∈ m ∨ (a ≤ c.1 ∧ c.1 < a + bs.length) := by
  induction bs generalizing m a with
  | nil => exact fun c hc => .inl hc
  | cons v t ih =>
    intro c hc
    rcases ih _ _ c hc with h | h
    · rcases Memory.mem_write m a v c h with h | h
      · exact .inl h
      · exact .inr ⟨by omega, by simp; omega⟩
    · exact .inr ⟨by omega, by simp; omega⟩

/-! ### Equal memories are equal data -/

theorem Memory.read_below (m : Memory) (lo a : Nat) (hm : Memory.wfFrom lo m = true) (h : a < lo) :
    Memory.read m a = Config.unlistedByte := by
  induction m generalizing lo with
  | nil => rfl
  | cons c t ih =>
    obtain ⟨x, b⟩ := c
    rw [Memory.wfFrom_cons] at hm
    rw [Memory.read, if_neg (by omega)]
    exact ih (x + 1) hm.2.2 (by omega)

/-- Two canonical memories that read alike are the same list. -/
theorem Memory.eq_of_read_eq (m m' : Memory) (lo : Nat) (hm : Memory.wfFrom lo m = true)
    (hm' : Memory.wfFrom lo m' = true) (h : ∀ a, Memory.read m a = Memory.read m' a) : m = m' := by
  induction m generalizing lo m' with
  | nil =>
    cases m' with
    | nil => rfl
    | cons c t =>
      obtain ⟨x, b⟩ := c
      rw [Memory.wfFrom_cons] at hm'
      have := h x
      simp [Memory.read] at this
      exact absurd this.symm hm'.2.1
  | cons c t ih =>
    obtain ⟨x, b⟩ := c
    rw [Memory.wfFrom_cons] at hm
    cases m' with
    | nil =>
      have := h x
      simp [Memory.read] at this
      exact absurd this hm.2.1
    | cons c' t' =>
      obtain ⟨y, b'⟩ := c'
      rw [Memory.wfFrom_cons] at hm'
      have hx := h x
      have hy := h y
      simp only [Memory.read, if_true] at hx hy
      rcases lt_trichotomy x y with hlt | rfl | hlt
      · rw [if_neg (by omega), Memory.read_below t' (y + 1) x hm'.2.2 (by omega)] at hx
        exact absurd hx hm.2.1
      · simp only [if_true] at hx
        subst hx
        rw [ih t' (x + 1) hm.2.2 hm'.2.2]
        intro a
        by_cases ha : a = x
        · subst ha
          rw [Memory.read_below t _ a hm.2.2 (by omega), Memory.read_below t' _ a hm'.2.2 (by omega)]
        · simpa [Memory.read, ha] using h a
      · rw [if_neg (by omega), Memory.read_below t (x + 1) y hm.2.2 (by omega)] at hy
        exact absurd hy.symm hm'.2.1

end Sys2Proof.Machine
end

