-- ==== Sys2Proof/Laws/Operations.lean ====
section
/-! SUPPORT. For each shared operation, once, everything it can do: if it answers a next state, which
one. The proofs about commands cite these and do not unfold the operation. -/

namespace Sys2Proof.Machine

variable {s t : State}

/-! ### The end of a command -/

theorem complete_cases {v w : Word} (h : complete s v w = .next t) : t = s.finish .ok v w := by
  cases h; rfl

theorem raiseWith_cases {st : Status} {v w : Word} (h : raiseWith st v w s = .next t) :
    t = (s.recordError st).finish st v w := by cases h; rfl

theorem raise_cases {st : Status} (h : raise st s = .next t) :
    t = (s.recordError st).finish st 0 0 := by cases h; rfl

/-- The fault step as one record: the sticky error, `SEQ` and the response (R305, R306). -/
theorem State.recordError_finish (s : State) (st : Status) :
    (s.recordError st).finish st 0 0 = faultState s st := by
  unfold State.recordError; split <;> simp_all [State.finish, faultState]

theorem raise_eq (s : State) (st : Status) : raise st s = .next (faultState s st) :=
  congrArg Host.Outcome.next (s.recordError_finish st)

theorem complete_eq (s : State) (v w : Word) : complete s v w = .next (okState s s v w) := rfl

theorem deliver_cases {rd : Reg} {v : Word} (h : deliver rd v s = .next t) :
    t = (s.setReg rd v).finish .ok v 0 := complete_cases h

theorem deliverPair_cases {rd rd2 : Reg} {v l : Nat} (h : deliverPair rd rd2 v l s = .next t) :
    t = ((s.setReg rd (BitVec.ofNat 64 v)).setReg rd2 (BitVec.ofNat 64 l)).finish .ok
      (BitVec.ofNat 64 v) (BitVec.ofNat 64 l) := complete_cases h

theorem failVar_eq (s : State) (rd2 : Reg) : failVar rd2 s = .next (varFaultState s rd2) := by
  by_cases h : s.err = .ok <;>
    simp [failVar, raiseWith, State.recordError, State.finish, State.setReg, h]

theorem failVar_cases {rd2 : Reg} (h : failVar rd2 s = .next t) : t = varFaultState s rd2 := by
  rw [failVar_eq] at h; cases h; rfl

/-! ### Byte transfers (spec/41_byte_cursor.md R141) -/

theorem getHere_cases {k : Nat} {rd : Reg} (h : getHere k rd s = .next t) :
    (s.fits s.pos k ∧ t = ((s.setPos (s.pos + k)).setReg rd (BitVec.ofNat 64 (s.le k s.pos))).finish
      .ok (BitVec.ofNat 64 (s.le k s.pos)) 0) ∨
    (¬ s.fits s.pos k ∧ t = faultState s .outOfBounds) := by
  unfold getHere at h
  split at h
  · exact .inl ⟨‹_›, deliver_cases h⟩
  · rw [raise_eq] at h; cases h; exact .inr ⟨‹_›, rfl⟩

theorem getAt_cases {k : Nat} {rd rs1 : Reg} {imm : Nat} (h : getAt k rd rs1 imm s = .next t) :
    (s.fits (s.effective rs1 imm) k ∧
      t = (s.setReg rd (BitVec.ofNat 64 (s.le k (s.effective rs1 imm)))).finish .ok
        (BitVec.ofNat 64 (s.le k (s.effective rs1 imm))) 0) ∨
    (¬ s.fits (s.effective rs1 imm) k ∧ t = faultState s .outOfBounds) := by
  unfold getAt at h
  split at h
  · exact .inl ⟨‹_›, deliver_cases h⟩
  · rw [raise_eq] at h; cases h; exact .inr ⟨‹_›, rfl⟩

theorem putHere_cases {k : Nat} {rs2 : Reg} (h : putHere k rs2 s = .next t) :
    (s.fits s.pos k ∧ t = ((s.putBytes s.pos (leBytes k (s.regNat rs2))).setPos (s.pos + k)).finish
      .ok 0 0) ∨
    (¬ s.fits s.pos k ∧ t = faultState s .outOfBounds) := by
  unfold putHere at h
  split at h
  · exact .inl ⟨‹_›, complete_cases h⟩
  · rw [raise_eq] at h; cases h; exact .inr ⟨‹_›, rfl⟩

theorem putAt_cases {k : Nat} {rs2 rs1 : Reg} {imm : Nat} (h : putAt k rs2 rs1 imm s = .next t) :
    (s.fits (s.effective rs1 imm) k ∧
      t = (s.putBytes (s.effective rs1 imm) (leBytes k (s.regNat rs2))).finish .ok 0 0) ∨
    (¬ s.fits (s.effective rs1 imm) k ∧ t = faultState s .outOfBounds) := by
  unfold putAt at h
  split at h
  · exact .inl ⟨‹_›, complete_cases h⟩
  · rw [raise_eq] at h; cases h; exact .inr ⟨‹_›, rfl⟩

/-! ### Bit transfers (spec/42_bit_cursor.md R196, R199) -/

theorem nextBits_cases {rd : Reg} {n : Nat} (h : nextBits rd n s = .next t) :
    (validCount n ∧ s.bitsFit s.rbit n ∧
      t = ((s.setRbit (s.rbit + n)).setReg rd (BitVec.ofNat 64 (s.sbits s.rbit n))).finish .ok
        (BitVec.ofNat 64 (s.sbits s.rbit n)) 0) ∨
    (validCount n ∧ ¬ s.bitsFit s.rbit n ∧ t = faultState s .outOfBounds) ∨
    (¬ validCount n ∧ t = faultState s .unsupportedFeature) := by
  unfold nextBits at h
  split at h
  · split at h
    · exact .inl ⟨‹_›, ‹_›, deliver_cases h⟩
    · rw [raise_eq] at h; cases h; exact .inr (.inl ⟨‹_›, ‹_›, rfl⟩)
  · rw [raise_eq] at h; cases h; exact .inr (.inr ⟨‹_›, rfl⟩)

theorem pushBits_cases {v n : Nat} (h : pushBits v n s = .next t) :
    (validCount n ∧ s.fits s.pos (s.pushedBits n / 8) ∧ t = (s.push v n).finish .ok 0 0) ∨
    (validCount n ∧ ¬ s.fits s.pos (s.pushedBits n / 8) ∧ t = faultState s .outOfBounds) ∨
    (¬ validCount n ∧ t = faultState s .unsupportedFeature) := by
  unfold pushBits at h
  split at h
  · split at h
    · exact .inl ⟨‹_›, ‹_›, complete_cases h⟩
    · rw [raise_eq] at h; cases h; exact .inr (.inl ⟨‹_›, ‹_›, rfl⟩)
  · rw [raise_eq] at h; cases h; exact .inr (.inr ⟨‹_›, rfl⟩)

/-! ### Fields and runs (spec/43_unpacker.md R228, R231) -/

theorem withField_cases {idx : Nat} {use : Nat → Out} (h : withField idx s use = .next t) :
    (s.uw ≠ 0 ∧ idx < s.un.toNat ∧ s.fieldBit (idx + 1) ≤ 8 * s.len ∧ use (s.field idx) = .next t) ∨
    (s.uw = 0 ∧ t = faultState s .unsupportedFeature) ∨
    (s.uw ≠ 0 ∧ s.un.toNat ≤ idx ∧ t = faultState s .outOfBounds) ∨
    (s.uw ≠ 0 ∧ idx < s.un.toNat ∧ 8 * s.len < s.fieldBit (idx + 1) ∧
      t = faultState s .corruptData) := by
  unfold withField at h
  split at h
  · rw [raise_eq] at h; cases h; exact .inr (.inl ⟨‹_›, rfl⟩)
  · split at h
    · rw [raise_eq] at h; cases h; exact .inr (.inr (.inl ⟨‹_›, ‹_›, rfl⟩))
    · split at h
      · exact .inl ⟨‹_›, by omega, ‹_›, h⟩
      · rw [raise_eq] at h; cases h
        exact .inr (.inr (.inr ⟨‹_›, by omega, by omega, rfl⟩))

theorem withRun_cases {first count : Nat} {use : List Nat → Out}
    (h : withRun first count s use = .next t) :
    (s.uw ≠ 0 ∧ count ≤ s.cap.ubufN ∧ first + count ≤ s.un.toNat ∧
      (count = 0 ∨ s.fieldBit (first + count) ≤ 8 * s.len) ∧
      use (s.fields first count) = .next t) ∨
    (s.uw = 0 ∧ t = faultState s .unsupportedFeature) ∨
    (s.uw ≠ 0 ∧ (s.cap.ubufN < count ∨ s.un.toNat < first + count) ∧
      t = faultState s .outOfBounds) ∨
    (s.uw ≠ 0 ∧ count ≤ s.cap.ubufN ∧ first + count ≤ s.un.toNat ∧ 0 < count ∧
      8 * s.len < s.fieldBit (first + count) ∧ t = faultState s .corruptData) := by
  unfold withRun at h
  split at h
  · rw [raise_eq] at h; cases h; exact .inr (.inl ⟨‹_›, rfl⟩)
  · split at h
    · rw [raise_eq] at h; cases h; exact .inr (.inr (.inl ⟨‹_›, .inl ‹_›, rfl⟩))
    · split at h
      · rw [raise_eq] at h; cases h; exact .inr (.inr (.inl ⟨‹_›, .inr ‹_›, rfl⟩))
      · split at h
        · exact .inl ⟨‹_›, by omega, by omega, ‹_›, h⟩
        · rw [raise_eq] at h; cases h
          exact .inr (.inr (.inr ⟨‹_›, by omega, by omega, by omega, by omega, rfl⟩))

@[simp] theorem State.fields_length (s : State) (first count : Nat) :
    (s.fields first count).length = count := by simp [State.fields]

theorem State.fields_getElem (s : State) (first count k : Nat)
    (h : k < (s.fields first count).length) : (s.fields first count)[k] = s.field (first + k) := by
  simp [State.fields]

/-! ### The port (spec/00_scope.md R5, R7; spec/10_state.md R50) -/

theorem issueWord_ok {c : CommandWord} {i : Instr} (h : decode c = .ok i) (s : State) :
    issueWord c s = exec i s := by simp [issueWord, h]

theorem issueWord_error {c : CommandWord} {e : DecodeError} (h : decode c = .error e) (s : State) :
    issueWord c s = .next (faultState s .illegalCommand) := by simp [issueWord, h, raise_eq]

theorem hostWrite_cases {a : Nat} {b : Byte} (h : hostWrite a b s = .next t) :
    a < s.cap.memSize ∧ t = s.setMem (Memory.write s.mem a b) := by
  unfold hostWrite at h
  split at h
  · cases h; exact ⟨‹_›, rfl⟩
  · cases h

/-- Everything a step can do when it answers a next state. -/
theorem step_cases (h : step s = .next t) :
    (s.input = [] ∧ t = s) ∨
    (∃ c es i, s.input = .issue c :: es ∧ decode c = .ok i ∧ exec i (s.setInput es) = .next t) ∨
    (∃ c es e, s.input = .issue c :: es ∧ decode c = .error e ∧
      t = faultState (s.setInput es) .illegalCommand) ∨
    (∃ a b es, s.input = .write a b :: es ∧ a < s.cap.memSize ∧
      t = (s.setInput es).setMem (Memory.write s.mem a b)) ∨
    (∃ es, s.input = .reset :: es ∧
      t = { State.powerUp s.cap s.mem es with draws := s.draws }) := by
  unfold step at h
  split at h
  · cases h; exact .inl ⟨‹_›, rfl⟩
  · rename_i e es he
    cases e with
    | issue c =>
      cases hd : decode c with
      | ok i =>
        refine .inr (.inl ⟨c, es, i, he, hd, ?_⟩)
        rwa [takeEvent, issueWord_ok hd] at h
      | error e =>
        refine .inr (.inr (.inl ⟨c, es, e, he, hd, ?_⟩))
        rw [takeEvent, issueWord_error hd] at h
        cases h; rfl
    | write a b =>
      obtain ⟨ha, rfl⟩ := hostWrite_cases h
      exact .inr (.inr (.inr (.inl ⟨a, b, es, he, ha, rfl⟩)))
    | reset => cases h; exact .inr (.inr (.inr (.inr ⟨es, he, rfl⟩)))

end Sys2Proof.Machine
end

