-- ==== Sys2Proof/Laws/PerInstr.lean ====
section
/-! SUPPORT. The family `EncodesOwnRow` (LAWS.json), one lemma per command. -/

namespace Sys2Proof.Laws

/-- The word of a well-formed command carries the command's fields, with `z` and every field its format
does not use 0, under the opcode that spec/30_encoding.md R96 gives its mnemonic. -/
def EncodesOwnRow.Statement (i : Instr) : Prop :=
  i.WellFormed → fieldsOf (encode i) = i.fields ∧ i.fields.z = 0 ∧
    ∃ r ∈ opcodeMap, r.mnemonic = Machine.mnemonicOf i ∧ r.op = i.fields.op ∧
      r.format.unusedZero i.fields = true

/-- The statement for a command, from its row of R96. -/
theorem encodesOwnRow_of_row (i : Instr) (r : OpcodeRow) (hr : r ∈ opcodeMap)
    (hm : r.mnemonic = Machine.mnemonicOf i) (ho : r.op = i.fields.op) (hz : i.fields.z = 0)
    (hu : r.format.unusedZero i.fields = true) : EncodesOwnRow.Statement i :=
  fun h => ⟨fieldsOf_assemble _ (i.fields_fit h), hz, r, hr, hm, ho, hu⟩

theorem EncodesOwnRow.nop : EncodesOwnRow.Statement .nop :=
  encodesOwnRow_of_row _ ⟨0x00, "NOP", .Z⟩ (by decide) rfl rfl rfl rfl

theorem EncodesOwnRow.li (rd : Reg) (imm : Nat) : EncodesOwnRow.Statement (.li rd imm) :=
  encodesOwnRow_of_row _ ⟨0x01, "LI", .DI⟩ (by decide) rfl rfl rfl rfl

theorem EncodesOwnRow.lih (rd : Reg) (imm : Nat) : EncodesOwnRow.Statement (.lih rd imm) :=
  encodesOwnRow_of_row _ ⟨0x02, "LIH", .DI⟩ (by decide) rfl rfl rfl rfl

theorem EncodesOwnRow.mov (rd : Reg) (rs1 : Reg) : EncodesOwnRow.Statement (.mov rd rs1) :=
  encodesOwnRow_of_row _ ⟨0x03, "MOV", .DS⟩ (by decide) rfl rfl rfl rfl

theorem EncodesOwnRow.csrr (rd : Reg) (imm : Nat) : EncodesOwnRow.Statement (.csrr rd imm) :=
  encodesOwnRow_of_row _ ⟨0x04, "CSRR", .DI⟩ (by decide) rfl rfl rfl rfl

theorem EncodesOwnRow.clrerr : EncodesOwnRow.Statement .clrerr :=
  encodesOwnRow_of_row _ ⟨0x05, "CLRERR", .Z⟩ (by decide) rfl rfl rfl rfl

theorem EncodesOwnRow.bcSetrange (rs1 : Reg) (rs2 : Reg) :
    EncodesOwnRow.Statement (.bcSetrange rs1 rs2) :=
  encodesOwnRow_of_row _ ⟨0x10, "BC.SETRANGE", .SS⟩ (by decide) rfl rfl rfl rfl

theorem EncodesOwnRow.bcSeek (rs1 : Reg) (imm : Nat) : EncodesOwnRow.Statement (.bcSeek rs1 imm) :=
  encodesOwnRow_of_row _ ⟨0x11, "BC.SEEK", .SI⟩ (by decide) rfl rfl rfl rfl

theorem EncodesOwnRow.bcReset : EncodesOwnRow.Statement .bcReset :=
  encodesOwnRow_of_row _ ⟨0x12, "BC.RESET", .Z⟩ (by decide) rfl rfl rfl rfl

theorem EncodesOwnRow.bcGet8 (rd : Reg) : EncodesOwnRow.Statement (.bcGet8 rd) :=
  encodesOwnRow_of_row _ ⟨0x18, "BC.GET8", .D⟩ (by decide) rfl rfl rfl rfl

theorem EncodesOwnRow.bcGet16 (rd : Reg) : EncodesOwnRow.Statement (.bcGet16 rd) :=
  encodesOwnRow_of_row _ ⟨0x19, "BC.GET16", .D⟩ (by decide) rfl rfl rfl rfl

theorem EncodesOwnRow.bcGet32 (rd : Reg) : EncodesOwnRow.Statement (.bcGet32 rd) :=
  encodesOwnRow_of_row _ ⟨0x1A, "BC.GET32", .D⟩ (by decide) rfl rfl rfl rfl

theorem EncodesOwnRow.bcGet64 (rd : Reg) : EncodesOwnRow.Statement (.bcGet64 rd) :=
  encodesOwnRow_of_row _ ⟨0x1B, "BC.GET64", .D⟩ (by decide) rfl rfl rfl rfl

theorem EncodesOwnRow.bcGeto8 (rd : Reg) (rs1 : Reg) (imm : Nat) :
    EncodesOwnRow.Statement (.bcGeto8 rd rs1 imm) :=
  encodesOwnRow_of_row _ ⟨0x1C, "BC.GETO8", .DSI⟩ (by decide) rfl rfl rfl rfl

theorem EncodesOwnRow.bcGeto16 (rd : Reg) (rs1 : Reg) (imm : Nat) :
    EncodesOwnRow.Statement (.bcGeto16 rd rs1 imm) :=
  encodesOwnRow_of_row _ ⟨0x1D, "BC.GETO16", .DSI⟩ (by decide) rfl rfl rfl rfl

theorem EncodesOwnRow.bcGeto32 (rd : Reg) (rs1 : Reg) (imm : Nat) :
    EncodesOwnRow.Statement (.bcGeto32 rd rs1 imm) :=
  encodesOwnRow_of_row _ ⟨0x1E, "BC.GETO32", .DSI⟩ (by decide) rfl rfl rfl rfl

theorem EncodesOwnRow.bcGeto64 (rd : Reg) (rs1 : Reg) (imm : Nat) :
    EncodesOwnRow.Statement (.bcGeto64 rd rs1 imm) :=
  encodesOwnRow_of_row _ ⟨0x1F, "BC.GETO64", .DSI⟩ (by decide) rfl rfl rfl rfl

theorem EncodesOwnRow.bcPut8 (rs2 : Reg) : EncodesOwnRow.Statement (.bcPut8 rs2) :=
  encodesOwnRow_of_row _ ⟨0x20, "BC.PUT8", .S2⟩ (by decide) rfl rfl rfl rfl

theorem EncodesOwnRow.bcPut16 (rs2 : Reg) : EncodesOwnRow.Statement (.bcPut16 rs2) :=
  encodesOwnRow_of_row _ ⟨0x21, "BC.PUT16", .S2⟩ (by decide) rfl rfl rfl rfl

theorem EncodesOwnRow.bcPut32 (rs2 : Reg) : EncodesOwnRow.Statement (.bcPut32 rs2) :=
  encodesOwnRow_of_row _ ⟨0x22, "BC.PUT32", .S2⟩ (by decide) rfl rfl rfl rfl

theorem EncodesOwnRow.bcPut64 (rs2 : Reg) : EncodesOwnRow.Statement (.bcPut64 rs2) :=
  encodesOwnRow_of_row _ ⟨0x23, "BC.PUT64", .S2⟩ (by decide) rfl rfl rfl rfl

theorem EncodesOwnRow.bcPuto8 (rs2 : Reg) (rs1 : Reg) (imm : Nat) :
    EncodesOwnRow.Statement (.bcPuto8 rs2 rs1 imm) :=
  encodesOwnRow_of_row _ ⟨0x24, "BC.PUTO8", .S2SI⟩ (by decide) rfl rfl rfl rfl

theorem EncodesOwnRow.bcPuto16 (rs2 : Reg) (rs1 : Reg) (imm : Nat) :
    EncodesOwnRow.Statement (.bcPuto16 rs2 rs1 imm) :=
  encodesOwnRow_of_row _ ⟨0x25, "BC.PUTO16", .S2SI⟩ (by decide) rfl rfl rfl rfl

theorem EncodesOwnRow.bcPuto32 (rs2 : Reg) (rs1 : Reg) (imm : Nat) :
    EncodesOwnRow.Statement (.bcPuto32 rs2 rs1 imm) :=
  encodesOwnRow_of_row _ ⟨0x26, "BC.PUTO32", .S2SI⟩ (by decide) rfl rfl rfl rfl

theorem EncodesOwnRow.bcPuto64 (rs2 : Reg) (rs1 : Reg) (imm : Nat) :
    EncodesOwnRow.Statement (.bcPuto64 rs2 rs1 imm) :=
  encodesOwnRow_of_row _ ⟨0x27, "BC.PUTO64", .S2SI⟩ (by decide) rfl rfl rfl rfl

theorem EncodesOwnRow.bcGetvar (rd : Reg) (rd2 : Reg) :
    EncodesOwnRow.Statement (.bcGetvar rd rd2) :=
  encodesOwnRow_of_row _ ⟨0x28, "BC.GETVAR", .DD⟩ (by decide) rfl rfl rfl rfl

theorem EncodesOwnRow.bcGetvaro (rd : Reg) (rd2 : Reg) (rs1 : Reg) (imm : Nat) :
    EncodesOwnRow.Statement (.bcGetvaro rd rd2 rs1 imm) :=
  encodesOwnRow_of_row _ ⟨0x29, "BC.GETVARO", .DDSI⟩ (by decide) rfl rfl rfl rfl

theorem EncodesOwnRow.bcPutvar (rd : Reg) (rs2 : Reg) :
    EncodesOwnRow.Statement (.bcPutvar rd rs2) :=
  encodesOwnRow_of_row _ ⟨0x2A, "BC.PUTVAR", .DS2⟩ (by decide) rfl rfl rfl rfl

theorem EncodesOwnRow.brOpen : EncodesOwnRow.Statement .brOpen :=
  encodesOwnRow_of_row _ ⟨0x30, "BR.OPEN", .Z⟩ (by decide) rfl rfl rfl rfl

theorem EncodesOwnRow.brSeek (rs1 : Reg) (imm : Nat) : EncodesOwnRow.Statement (.brSeek rs1 imm) :=
  encodesOwnRow_of_row _ ⟨0x31, "BR.SEEK", .SI⟩ (by decide) rfl rfl rfl rfl

theorem EncodesOwnRow.brNext (rd : Reg) (n : Nat) : EncodesOwnRow.Statement (.brNext rd n) :=
  encodesOwnRow_of_row _ ⟨0x32, "BR.NEXT", .DN⟩ (by decide) rfl rfl rfl rfl

theorem EncodesOwnRow.brNextv (rd : Reg) (rs1 : Reg) : EncodesOwnRow.Statement (.brNextv rd rs1) :=
  encodesOwnRow_of_row _ ⟨0x33, "BR.NEXTV", .DS⟩ (by decide) rfl rfl rfl rfl

theorem EncodesOwnRow.brHasnext (rd : Reg) : EncodesOwnRow.Statement (.brHasnext rd) :=
  encodesOwnRow_of_row _ ⟨0x34, "BR.HASNEXT", .D⟩ (by decide) rfl rfl rfl rfl

theorem EncodesOwnRow.bwPush (rs2 : Reg) (n : Nat) : EncodesOwnRow.Statement (.bwPush rs2 n) :=
  encodesOwnRow_of_row _ ⟨0x38, "BW.PUSH", .S2N⟩ (by decide) rfl rfl rfl rfl

theorem EncodesOwnRow.bwPushv (rs2 : Reg) (rs1 : Reg) :
    EncodesOwnRow.Statement (.bwPushv rs2 rs1) :=
  encodesOwnRow_of_row _ ⟨0x39, "BW.PUSHV", .S2S⟩ (by decide) rfl rfl rfl rfl

theorem EncodesOwnRow.bwFlush : EncodesOwnRow.Statement .bwFlush :=
  encodesOwnRow_of_row _ ⟨0x3A, "BW.FLUSH", .Z⟩ (by decide) rfl rfl rfl rfl

theorem EncodesOwnRow.unpSel (rs1 : Reg) (imm : Nat) : EncodesOwnRow.Statement (.unpSel rs1 imm) :=
  encodesOwnRow_of_row _ ⟨0x40, "UNP.SEL", .SI⟩ (by decide) rfl rfl rfl rfl

theorem EncodesOwnRow.unpBase (rs1 : Reg) (imm : Nat) :
    EncodesOwnRow.Statement (.unpBase rs1 imm) :=
  encodesOwnRow_of_row _ ⟨0x41, "UNP.BASE", .SI⟩ (by decide) rfl rfl rfl rfl

theorem EncodesOwnRow.unpCount (rs1 : Reg) (imm : Nat) :
    EncodesOwnRow.Statement (.unpCount rs1 imm) :=
  encodesOwnRow_of_row _ ⟨0x42, "UNP.COUNT", .SI⟩ (by decide) rfl rfl rfl rfl

theorem EncodesOwnRow.unpGet (rd : Reg) (rs1 : Reg) (imm : Nat) :
    EncodesOwnRow.Statement (.unpGet rd rs1 imm) :=
  encodesOwnRow_of_row _ ⟨0x43, "UNP.GET", .DSI⟩ (by decide) rfl rfl rfl rfl

theorem EncodesOwnRow.unpHdr (rd : Reg) : EncodesOwnRow.Statement (.unpHdr rd) :=
  encodesOwnRow_of_row _ ⟨0x44, "UNP.HDR", .D⟩ (by decide) rfl rfl rfl rfl

theorem EncodesOwnRow.unpAt (rd : Reg) (rs1 : Reg) (imm : Nat) :
    EncodesOwnRow.Statement (.unpAt rd rs1 imm) :=
  encodesOwnRow_of_row _ ⟨0x45, "UNP.AT", .DSI⟩ (by decide) rfl rfl rfl rfl

theorem EncodesOwnRow.unpRun (rs1 : Reg) (rs2 : Reg) : EncodesOwnRow.Statement (.unpRun rs1 rs2) :=
  encodesOwnRow_of_row _ ⟨0x46, "UNP.RUN", .SS⟩ (by decide) rfl rfl rfl rfl

theorem EncodesOwnRow.unpRunref (rs1 : Reg) (rs2 : Reg) :
    EncodesOwnRow.Statement (.unpRunref rs1 rs2) :=
  encodesOwnRow_of_row _ ⟨0x47, "UNP.RUNREF", .SS⟩ (by decide) rfl rfl rfl rfl

theorem EncodesOwnRow.unpRd (rd : Reg) (rs1 : Reg) (imm : Nat) :
    EncodesOwnRow.Statement (.unpRd rd rs1 imm) :=
  encodesOwnRow_of_row _ ⟨0x48, "UNP.RD", .DSI⟩ (by decide) rfl rfl rfl rfl

theorem EncodesOwnRow.unpMinw (rd : Reg) (rs1 : Reg) : EncodesOwnRow.Statement (.unpMinw rd rs1) :=
  encodesOwnRow_of_row _ ⟨0x49, "UNP.MINW", .DS⟩ (by decide) rfl rfl rfl rfl

theorem EncodesOwnRow.hufLoad (rs1 : Reg) (rs2 : Reg) :
    EncodesOwnRow.Statement (.hufLoad rs1 rs2) :=
  encodesOwnRow_of_row _ ⟨0x50, "HUF.LOAD", .SS⟩ (by decide) rfl rfl rfl rfl

theorem EncodesOwnRow.hufDec (rd : Reg) (rd2 : Reg) : EncodesOwnRow.Statement (.hufDec rd rd2) :=
  encodesOwnRow_of_row _ ⟨0x51, "HUF.DEC", .DD⟩ (by decide) rfl rfl rfl rfl

theorem EncodesOwnRow.hufAccset (rs1 : Reg) (imm : Nat) :
    EncodesOwnRow.Statement (.hufAccset rs1 imm) :=
  encodesOwnRow_of_row _ ⟨0x52, "HUF.ACCSET", .SI⟩ (by decide) rfl rfl rfl rfl

end Sys2Proof.Laws
end

