-- ==== Sys2Proof/Laws/Registers.lean ====
section
/-! SUPPORT. The general registers under a write (spec/10_state.md R21, R22). -/

namespace Sys2Proof.Machine

@[simp] theorem RegFile.read_x0 (f : RegFile) : f.read .x0 = 0 := rfl

@[simp] theorem RegFile.write_x0 (f : RegFile) (v : Word) : f.write .x0 v = f := rfl

theorem RegFile.read_write_same (f : RegFile) (r : Reg) (v : Word) (h : r ≠ .x0) :
    (f.write r v).read r = v := by
  cases r <;> first | rfl | exact absurd rfl h

theorem RegFile.read_write_other (f : RegFile) (r q : Reg) (v : Word) (h : q ≠ r) :
    (f.write r v).read q = f.read q := by
  cases r <;> cases q <;> first | rfl | exact absurd rfl h

@[simp] theorem State.reg_x0 (s : State) : s.reg .x0 = 0 := rfl

theorem State.reg_setReg_same (s : State) (r : Reg) (v : Word) (h : r ≠ .x0) :
    (s.setReg r v).reg r = v := RegFile.read_write_same _ _ _ h

theorem State.reg_setReg_other (s : State) (r q : Reg) (v : Word) (h : q ≠ r) :
    (s.setReg r v).reg q = s.reg q := RegFile.read_write_other _ _ _ _ h

end Sys2Proof.Machine
end

