-- ==== Sys2Proof/Tests/Slice0.lean ====
section
/-! SUPPORT. Tests: the checks of `WellFormed`, a word for every constructor, single steps from the
vectors of spec/95_test_vectors.md, and for every statement with hypotheses a state that meets them
(the theorems `witness_…`). Expected values are the spec's. -/

namespace Sys2Proof.Tests

open Machine

-- One declaration at a time: the tests are many and small.
set_option Elab.async false

/-! ### Helpers -/

/-- After reset, `MEM` and the byte range hold exactly these bytes (spec/95_test_vectors.md,
conventions). -/
def rangeOf (bytes : List Nat) : State :=
  { State.reset with
    mem := Memory.writeBytes [] 0 (bytes.map (BitVec.ofNat 8))
    len := bytes.length }

/-- The state with `x1`, `x2`, `x3` set. -/
def State.with3 (s : State) (a b c : Nat) : State :=
  ((s.setReg .x1 (BitVec.ofNat 64 a)).setReg .x2 (BitVec.ofNat 64 b)).setReg .x3
    (BitVec.ofNat 64 c)

/-- The outcome is a next state with this property. -/
def ends (o : Out) (p : State → Bool) : Bool :=
  match o with
  | .next t => p t
  | _ => false

/-- The response of a state is `(st, v, w)`. -/
def answers (t : State) (st : Status) (v w : Nat) : Bool :=
  t.resp == some { status := st, val := BitVec.ofNat 64 v, val2 := BitVec.ofNat 64 w }

/-- The bytes of `MEM` from `a`. -/
def bytesAt (t : State) (a : Nat) (bytes : List Nat) : Bool :=
  (List.range bytes.length).map (fun i => (Memory.read t.mem (a + i)).toNat) == bytes

theorem next_of {o : Out} {p : State → Bool} (h : ends o p = true) :
    ∃ t, o = .next t ∧ p t = true := by
  cases o with
  | next t => exact ⟨t, rfl, h⟩
  | fault f => cases h
  | refused r => cases h

/-! ### Well-formedness -/

theorem test_wellFormed_li :
    (Instr.li .x1 (2 ^ 32)).wellFormed = false ∧ (Instr.li .x1 (2 ^ 32 - 1)).wellFormed = true := by decide

theorem test_wellFormed_lih :
    (Instr.lih .x1 (2 ^ 32)).wellFormed = false ∧ (Instr.lih .x1 (2 ^ 32 - 1)).wellFormed = true := by decide

theorem test_wellFormed_csrr :
    (Instr.csrr .x1 (2 ^ 32)).wellFormed = false ∧ (Instr.csrr .x1 (2 ^ 32 - 1)).wellFormed = true := by decide

theorem test_wellFormed_bcSeek :
    (Instr.bcSeek .x1 (2 ^ 32)).wellFormed = false ∧ (Instr.bcSeek .x1 (2 ^ 32 - 1)).wellFormed = true := by decide

theorem test_wellFormed_bcGeto8 :
    (Instr.bcGeto8 .x1 .x1 (2 ^ 32)).wellFormed = false ∧ (Instr.bcGeto8 .x1 .x1 (2 ^ 32 - 1)).wellFormed = true := by decide

theorem test_wellFormed_bcGeto16 :
    (Instr.bcGeto16 .x1 .x1 (2 ^ 32)).wellFormed = false ∧ (Instr.bcGeto16 .x1 .x1 (2 ^ 32 - 1)).wellFormed = true := by decide

theorem test_wellFormed_bcGeto32 :
    (Instr.bcGeto32 .x1 .x1 (2 ^ 32)).wellFormed = false ∧ (Instr.bcGeto32 .x1 .x1 (2 ^ 32 - 1)).wellFormed = true := by decide

theorem test_wellFormed_bcGeto64 :
    (Instr.bcGeto64 .x1 .x1 (2 ^ 32)).wellFormed = false ∧ (Instr.bcGeto64 .x1 .x1 (2 ^ 32 - 1)).wellFormed = true := by decide

theorem test_wellFormed_bcPuto8 :
    (Instr.bcPuto8 .x1 .x1 (2 ^ 32)).wellFormed = false ∧ (Instr.bcPuto8 .x1 .x1 (2 ^ 32 - 1)).wellFormed = true := by decide

theorem test_wellFormed_bcPuto16 :
    (Instr.bcPuto16 .x1 .x1 (2 ^ 32)).wellFormed = false ∧ (Instr.bcPuto16 .x1 .x1 (2 ^ 32 - 1)).wellFormed = true := by decide

theorem test_wellFormed_bcPuto32 :
    (Instr.bcPuto32 .x1 .x1 (2 ^ 32)).wellFormed = false ∧ (Instr.bcPuto32 .x1 .x1 (2 ^ 32 - 1)).wellFormed = true := by decide

theorem test_wellFormed_bcPuto64 :
    (Instr.bcPuto64 .x1 .x1 (2 ^ 32)).wellFormed = false ∧ (Instr.bcPuto64 .x1 .x1 (2 ^ 32 - 1)).wellFormed = true := by decide

theorem test_wellFormed_bcGetvaro :
    (Instr.bcGetvaro .x1 .x1 .x1 (2 ^ 32)).wellFormed = false ∧ (Instr.bcGetvaro .x1 .x1 .x1 (2 ^ 32 - 1)).wellFormed = true := by decide

theorem test_wellFormed_brSeek :
    (Instr.brSeek .x1 (2 ^ 32)).wellFormed = false ∧ (Instr.brSeek .x1 (2 ^ 32 - 1)).wellFormed = true := by decide

theorem test_wellFormed_brNext :
    (Instr.brNext .x1 128).wellFormed = false ∧ (Instr.brNext .x1 127).wellFormed = true := by decide

theorem test_wellFormed_bwPush :
    (Instr.bwPush .x1 128).wellFormed = false ∧ (Instr.bwPush .x1 127).wellFormed = true := by decide

theorem test_wellFormed_unpSel :
    (Instr.unpSel .x1 (2 ^ 32)).wellFormed = false ∧ (Instr.unpSel .x1 (2 ^ 32 - 1)).wellFormed = true := by decide

theorem test_wellFormed_unpBase :
    (Instr.unpBase .x1 (2 ^ 32)).wellFormed = false ∧ (Instr.unpBase .x1 (2 ^ 32 - 1)).wellFormed = true := by decide

theorem test_wellFormed_unpCount :
    (Instr.unpCount .x1 (2 ^ 32)).wellFormed = false ∧ (Instr.unpCount .x1 (2 ^ 32 - 1)).wellFormed = true := by decide

theorem test_wellFormed_unpGet :
    (Instr.unpGet .x1 .x1 (2 ^ 32)).wellFormed = false ∧ (Instr.unpGet .x1 .x1 (2 ^ 32 - 1)).wellFormed = true := by decide

theorem test_wellFormed_unpAt :
    (Instr.unpAt .x1 .x1 (2 ^ 32)).wellFormed = false ∧ (Instr.unpAt .x1 .x1 (2 ^ 32 - 1)).wellFormed = true := by decide

theorem test_wellFormed_unpRd :
    (Instr.unpRd .x1 .x1 (2 ^ 32)).wellFormed = false ∧ (Instr.unpRd .x1 .x1 (2 ^ 32 - 1)).wellFormed = true := by decide

theorem test_wellFormed_hufAccset :
    (Instr.hufAccset .x1 (2 ^ 32)).wellFormed = false ∧ (Instr.hufAccset .x1 (2 ^ 32 - 1)).wellFormed = true := by decide

/-! ### Words: one for each constructor, from the fields of spec/30_encoding.md R91 and R96 -/

theorem test_decode_nop : decode 0x0000000000000000 = .ok .nop := by rfl

theorem test_decode_li : decode 0x01A00000DEADBEEF = .ok (.li .x5 0xDEADBEEF) := by rfl

theorem test_decode_lih : decode 0x02A00000DEADBEEF = .ok (.lih .x5 0xDEADBEEF) := by rfl

theorem test_decode_mov : decode 0x03A8000000000000 = .ok (.mov .x5 .x2) := by rfl

theorem test_decode_csrr : decode 0x04A00000DEADBEEF = .ok (.csrr .x5 0xDEADBEEF) := by rfl

theorem test_decode_clrerr : decode 0x0500000000000000 = .ok .clrerr := by rfl

theorem test_decode_bcSetrange : decode 0x100B800000000000 = .ok (.bcSetrange .x2 .x7) := by rfl

theorem test_decode_bcSeek : decode 0x11080000DEADBEEF = .ok (.bcSeek .x2 0xDEADBEEF) := by rfl

theorem test_decode_bcReset : decode 0x1200000000000000 = .ok .bcReset := by rfl

theorem test_decode_bcGet8 : decode 0x18A0000000000000 = .ok (.bcGet8 .x5) := by rfl

theorem test_decode_bcGet16 : decode 0x19A0000000000000 = .ok (.bcGet16 .x5) := by rfl

theorem test_decode_bcGet32 : decode 0x1AA0000000000000 = .ok (.bcGet32 .x5) := by rfl

theorem test_decode_bcGet64 : decode 0x1BA0000000000000 = .ok (.bcGet64 .x5) := by rfl

theorem test_decode_bcGeto8 : decode 0x1CA80000DEADBEEF = .ok (.bcGeto8 .x5 .x2 0xDEADBEEF) := by rfl

theorem test_decode_bcGeto16 : decode 0x1DA80000DEADBEEF = .ok (.bcGeto16 .x5 .x2 0xDEADBEEF) := by rfl

theorem test_decode_bcGeto32 : decode 0x1EA80000DEADBEEF = .ok (.bcGeto32 .x5 .x2 0xDEADBEEF) := by rfl

theorem test_decode_bcGeto64 : decode 0x1FA80000DEADBEEF = .ok (.bcGeto64 .x5 .x2 0xDEADBEEF) := by rfl

theorem test_decode_bcPut8 : decode 0x2003800000000000 = .ok (.bcPut8 .x7) := by rfl

theorem test_decode_bcPut16 : decode 0x2103800000000000 = .ok (.bcPut16 .x7) := by rfl

theorem test_decode_bcPut32 : decode 0x2203800000000000 = .ok (.bcPut32 .x7) := by rfl

theorem test_decode_bcPut64 : decode 0x2303800000000000 = .ok (.bcPut64 .x7) := by rfl

theorem test_decode_bcPuto8 : decode 0x240B8000DEADBEEF = .ok (.bcPuto8 .x7 .x2 0xDEADBEEF) := by rfl

theorem test_decode_bcPuto16 : decode 0x250B8000DEADBEEF = .ok (.bcPuto16 .x7 .x2 0xDEADBEEF) := by rfl

theorem test_decode_bcPuto32 : decode 0x260B8000DEADBEEF = .ok (.bcPuto32 .x7 .x2 0xDEADBEEF) := by rfl

theorem test_decode_bcPuto64 : decode 0x270B8000DEADBEEF = .ok (.bcPuto64 .x7 .x2 0xDEADBEEF) := by rfl

theorem test_decode_bcGetvar : decode 0x28A1800000000000 = .ok (.bcGetvar .x5 .x3) := by rfl

theorem test_decode_bcGetvaro : decode 0x29A98000DEADBEEF = .ok (.bcGetvaro .x5 .x3 .x2 0xDEADBEEF) := by rfl

theorem test_decode_bcPutvar : decode 0x2AA3800000000000 = .ok (.bcPutvar .x5 .x7) := by rfl

theorem test_decode_brOpen : decode 0x3000000000000000 = .ok .brOpen := by rfl

theorem test_decode_brSeek : decode 0x31080000DEADBEEF = .ok (.brSeek .x2 0xDEADBEEF) := by rfl

theorem test_decode_brNext : decode 0x32A0550000000000 = .ok (.brNext .x5 0x55) := by rfl

theorem test_decode_brNextv : decode 0x33A8000000000000 = .ok (.brNextv .x5 .x2) := by rfl

theorem test_decode_brHasnext : decode 0x34A0000000000000 = .ok (.brHasnext .x5) := by rfl

theorem test_decode_bwPush : decode 0x3803D50000000000 = .ok (.bwPush .x7 0x55) := by rfl

theorem test_decode_bwPushv : decode 0x390B800000000000 = .ok (.bwPushv .x7 .x2) := by rfl

theorem test_decode_bwFlush : decode 0x3A00000000000000 = .ok .bwFlush := by rfl

theorem test_decode_unpSel : decode 0x40080000DEADBEEF = .ok (.unpSel .x2 0xDEADBEEF) := by rfl

theorem test_decode_unpBase : decode 0x41080000DEADBEEF = .ok (.unpBase .x2 0xDEADBEEF) := by rfl

theorem test_decode_unpCount : decode 0x42080000DEADBEEF = .ok (.unpCount .x2 0xDEADBEEF) := by rfl

theorem test_decode_unpGet : decode 0x43A80000DEADBEEF = .ok (.unpGet .x5 .x2 0xDEADBEEF) := by rfl

theorem test_decode_unpHdr : decode 0x44A0000000000000 = .ok (.unpHdr .x5) := by rfl

theorem test_decode_unpAt : decode 0x45A80000DEADBEEF = .ok (.unpAt .x5 .x2 0xDEADBEEF) := by rfl

theorem test_decode_unpRun : decode 0x460B800000000000 = .ok (.unpRun .x2 .x7) := by rfl

theorem test_decode_unpRunref : decode 0x470B800000000000 = .ok (.unpRunref .x2 .x7) := by rfl

theorem test_decode_unpRd : decode 0x48A80000DEADBEEF = .ok (.unpRd .x5 .x2 0xDEADBEEF) := by rfl

theorem test_decode_unpMinw : decode 0x49A8000000000000 = .ok (.unpMinw .x5 .x2) := by rfl

theorem test_decode_hufLoad : decode 0x500B800000000000 = .ok (.hufLoad .x2 .x7) := by rfl

theorem test_decode_hufDec : decode 0x51A1800000000000 = .ok (.hufDec .x5 .x3) := by rfl

theorem test_decode_hufAccset : decode 0x52080000DEADBEEF = .ok (.hufAccset .x2 0xDEADBEEF) := by rfl

/-- V-I1. -/
theorem test_refuse_reserved : decode 0x0600000000000000 = .error (.reservedOpcode 6) := by rfl

/-- V-I2. -/
theorem test_refuse_reserved_top : decode 0xFF00000000000000 = .error (.reservedOpcode 255) := by rfl

/-- V-I3. -/
theorem test_refuse_z_set : decode 0x0000000100000000 = .error (.reservedFieldSet 1) := by rfl

/-- V-I4. -/
theorem test_refuse_unused_rd : decode 0x0020000000000000 = .error (.unusedFieldSet .Z) := by rfl

/-- V-I6. -/
theorem test_refuse_unused_imm : decode 0x1820000000000001 = .error (.unusedFieldSet .D) := by rfl

/-- V-I7. -/
theorem test_refuse_unused_imm_n : decode 0x3240030000000001 = .error (.unusedFieldSet .DN) := by rfl

/-- V-I8. -/
theorem test_refuse_unused_n : decode 0x0120010000000000 = .error (.unusedFieldSet .DI) := by rfl

/-- V-I10. -/
theorem test_refuse_unused_rd_ss : decode 0x1024000000000000 = .error (.unusedFieldSet .SS) := by rfl

/-- Extra bits above the row's are dropped; the word of `LI x3, 1000`. -/
theorem test_tableWord : decodeTableWord 64 0x01600000000003E8 = some (.li .x3 1000) := by rfl

/-! ### The masks and matches of spec/opcode_table.json -/

theorem test_commonRows_mask :
    commonRows.map (fun r => r.format.mask) =
      [0xFFFFFFFFFFFFFFFF, 0xFF1FFFFF00000000, 0xFF1FFFFF00000000, 0xFF03FFFFFFFFFFFF,
       0xFF1FFFFF00000000, 0xFFFFFFFFFFFFFFFF] := by decide +kernel

theorem test_commonRows_match :
    commonRows.map (fun r => opcodeMatch r.op) =
      [0x0000000000000000, 0x0100000000000000, 0x0200000000000000, 0x0300000000000000,
       0x0400000000000000, 0x0500000000000000] := by decide +kernel

theorem test_byteGetRows_mask :
    byteGetRows.map (fun r => r.format.mask) =
      [0xFFE07FFFFFFFFFFF, 0xFFE3FFFF00000000, 0xFFFFFFFFFFFFFFFF, 0xFF1FFFFFFFFFFFFF,
       0xFF1FFFFFFFFFFFFF, 0xFF1FFFFFFFFFFFFF, 0xFF1FFFFFFFFFFFFF, 0xFF03FFFF00000000,
       0xFF03FFFF00000000, 0xFF03FFFF00000000, 0xFF03FFFF00000000] := by decide +kernel

theorem test_byteGetRows_match :
    byteGetRows.map (fun r => opcodeMatch r.op) =
      [0x1000000000000000, 0x1100000000000000, 0x1200000000000000, 0x1800000000000000,
       0x1900000000000000, 0x1A00000000000000, 0x1B00000000000000, 0x1C00000000000000,
       0x1D00000000000000, 0x1E00000000000000, 0x1F00000000000000] := by decide +kernel

theorem test_bytePutRows_mask :
    bytePutRows.map (fun r => r.format.mask) =
      [0xFFFC7FFFFFFFFFFF, 0xFFFC7FFFFFFFFFFF, 0xFFFC7FFFFFFFFFFF, 0xFFFC7FFFFFFFFFFF,
       0xFFE07FFF00000000, 0xFFE07FFF00000000, 0xFFE07FFF00000000, 0xFFE07FFF00000000,
       0xFF1C7FFFFFFFFFFF, 0xFF007FFF00000000, 0xFF1C7FFFFFFFFFFF] := by decide +kernel

theorem test_bytePutRows_match :
    bytePutRows.map (fun r => opcodeMatch r.op) =
      [0x2000000000000000, 0x2100000000000000, 0x2200000000000000, 0x2300000000000000,
       0x2400000000000000, 0x2500000000000000, 0x2600000000000000, 0x2700000000000000,
       0x2800000000000000, 0x2900000000000000, 0x2A00000000000000] := by decide +kernel

theorem test_bitRows_mask :
    bitRows.map (fun r => r.format.mask) =
      [0xFFFFFFFFFFFFFFFF, 0xFFE3FFFF00000000, 0xFF1F80FFFFFFFFFF, 0xFF03FFFFFFFFFFFF,
       0xFF1FFFFFFFFFFFFF, 0xFFFC00FFFFFFFFFF, 0xFFE07FFFFFFFFFFF, 0xFFFFFFFFFFFFFFFF] := by decide +kernel

theorem test_bitRows_match :
    bitRows.map (fun r => opcodeMatch r.op) =
      [0x3000000000000000, 0x3100000000000000, 0x3200000000000000, 0x3300000000000000,
       0x3400000000000000, 0x3800000000000000, 0x3900000000000000, 0x3A00000000000000] := by decide +kernel

theorem test_unpackRows_mask :
    unpackRows.map (fun r => r.format.mask) =
      [0xFFE3FFFF00000000, 0xFFE3FFFF00000000, 0xFFE3FFFF00000000, 0xFF03FFFF00000000,
       0xFF1FFFFFFFFFFFFF, 0xFF03FFFF00000000, 0xFFE07FFFFFFFFFFF, 0xFFE07FFFFFFFFFFF,
       0xFF03FFFF00000000, 0xFF03FFFFFFFFFFFF] := by decide +kernel

theorem test_unpackRows_match :
    unpackRows.map (fun r => opcodeMatch r.op) =
      [0x4000000000000000, 0x4100000000000000, 0x4200000000000000, 0x4300000000000000,
       0x4400000000000000, 0x4500000000000000, 0x4600000000000000, 0x4700000000000000,
       0x4800000000000000, 0x4900000000000000] := by decide +kernel

theorem test_huffmanRows_mask :
    huffmanRows.map (fun r => r.format.mask) =
      [0xFFE07FFFFFFFFFFF, 0xFF1C7FFFFFFFFFFF, 0xFFE3FFFF00000000] := by decide +kernel

theorem test_huffmanRows_match :
    huffmanRows.map (fun r => opcodeMatch r.op) =
      [0x5000000000000000, 0x5100000000000000, 0x5200000000000000] := by decide +kernel

theorem test_opcodeMap_length : opcodeMap.length = 49 := by decide

/-! ### Single steps (spec/95_test_vectors.md) -/

/-- V-C1. -/
theorem test_nop :
    ends (exec .nop (State.reset)) (fun t => answers t .ok 0 0 && t.seq == 1) = true := by decide +kernel

/-- V-C2. -/
theorem test_li :
    ends (exec (.li .x3 1000) (State.reset)) (fun t => answers t .ok 1000 0 && t.reg .x3 == 1000) = true := by decide +kernel

/-- V-C3. -/
theorem test_li_x0 :
    ends (exec (.li .x0 7) (State.reset)) (fun t => answers t .ok 7 0 && t.reg .x0 == 0) = true := by decide +kernel

/-- V-C4. -/
theorem test_lih :
    ends (exec (.lih .x1 0xFFFFFFFF) (State.reset.setReg .x1 0x1122334455667788)) (fun t => t.reg .x1 == 0xFFFFFFFF55667788) = true := by decide +kernel

/-- V-C5. -/
theorem test_mov :
    ends (exec (.mov .x5 .x2) (State.reset.setReg .x2 9)) (fun t => answers t .ok 9 0 && t.reg .x5 == 9) = true := by decide +kernel

/-- V-C9. -/
theorem test_csrr_status :
    ends (exec (.csrr .x6 0) (State.reset.setWriter 6 0)) (fun t => answers t .ok 192 0) = true := by decide +kernel

/-- V-C8. -/
theorem test_csrr_reserved :
    ends (exec (.csrr .x1 20) (State.reset)) (fun t => answers t .illegalCommand 0 0 && t.err == .illegalCommand) = true := by decide +kernel

/-- V-C10. -/
theorem test_clrerr :
    ends (exec .clrerr ({ State.reset with err := .outOfBounds, eseq := 10 })) (fun t => t.err == .ok && t.eseq == 0) = true := by decide +kernel

/-- V-B23. -/
theorem test_bcSetrange :
    ends (exec (.bcSetrange .x1 .x2) (State.with3 State.reset 250 6 0)) (fun t => answers t .ok 0 0 && t.base == 250 && t.len == 6) = true := by decide +kernel

/-- V-B24. -/
theorem test_bcSetrange_beyond :
    ends (exec (.bcSetrange .x1 .x2) (State.with3 State.reset 250 7 0)) (fun t => answers t .outOfBounds 0 0 && t.len == 0) = true := by decide +kernel

/-- V-B16. -/
theorem test_bcSeek_end :
    ends (exec (.bcSeek .x0 16) (rangeOf (List.replicate 16 0))) (fun t => answers t .ok 0 0 && t.pos == 16) = true := by decide +kernel

/-- V-B17. -/
theorem test_bcSeek_beyond :
    ends (exec (.bcSeek .x0 17) (rangeOf (List.replicate 16 0))) (fun t => answers t .outOfBounds 0 0 && t.pos == 0) = true := by decide +kernel

/-- R147. -/
theorem test_bcReset :
    ends (exec .bcReset ((rangeOf (List.replicate 16 0)).setPos 3)) (fun t => answers t .ok 0 0 && t.pos == 0) = true := by decide +kernel

/-- The bytes after V-B7. -/
def cursorBytes : State :=
  rangeOf [0x88, 0x88, 0x77, 0x88, 0x77, 0x66, 0x55, 0x88, 0x77, 0x66, 0x55, 0x44, 0x33, 0x22, 0x11,
    0x88]

/-- V-B18. -/
theorem test_bcGet8_end :
    ends (exec (.bcGet8 .x3) (cursorBytes.setPos 16)) (fun t => answers t .outOfBounds 0 0 && t.pos == 16) = true := by decide +kernel

/-- R150. -/
theorem test_bcGet8 :
    ends (exec (.bcGet8 .x3) (cursorBytes.setPos 15)) (fun t => answers t .ok 0x88 0 && t.pos == 16) = true := by decide +kernel

/-- R151, the bytes of V-B10. -/
theorem test_bcGet16 :
    ends (exec (.bcGet16 .x3) (cursorBytes.setPos 1)) (fun t => answers t .ok 0x7788 0 && t.pos == 3) = true := by decide +kernel

/-- V-B20. -/
theorem test_bcGet32 :
    ends (exec (.bcGet32 .x3) (cursorBytes.setPos 12)) (fun t => answers t .ok 0x88112233 0 && t.pos == 16) = true := by decide +kernel

/-- R153, the bytes of V-B13. -/
theorem test_bcGet64 :
    ends (exec (.bcGet64 .x3) (cursorBytes.setPos 8)) (fun t => answers t .ok 0x8811223344556677 0) = true := by decide +kernel

/-- V-B9. -/
theorem test_bcGeto8 :
    ends (exec (.bcGeto8 .x3 .x0 0) (cursorBytes)) (fun t => answers t .ok 0x88 0 && t.pos == 0) = true := by decide +kernel

/-- V-B15. -/
theorem test_bcGeto8_noWrap :
    ends (exec (.bcGeto8 .x3 .x4 1) (cursorBytes.setReg .x4 (BitVec.allOnes 64))) (fun t => answers t .outOfBounds 0 0) = true := by decide +kernel

/-- V-B10. -/
theorem test_bcGeto16 :
    ends (exec (.bcGeto16 .x3 .x0 1) (cursorBytes)) (fun t => answers t .ok 0x7788 0) = true := by decide +kernel

/-- V-B11. -/
theorem test_bcGeto32 :
    ends (exec (.bcGeto32 .x3 .x0 3) (cursorBytes)) (fun t => answers t .ok 0x55667788 0) = true := by decide +kernel

/-- V-B13. -/
theorem test_bcGeto64 :
    ends (exec (.bcGeto64 .x3 .x0 8) (cursorBytes)) (fun t => answers t .ok 0x8811223344556677 0) = true := by decide +kernel

/-- V-B14. -/
theorem test_bcGeto64_beyond :
    ends (exec (.bcGeto64 .x3 .x0 9) (cursorBytes)) (fun t => answers t .outOfBounds 0 0 && t.reg .x3 == 0) = true := by decide +kernel

/-- V-B2. -/
theorem test_bcPut8 :
    ends (exec (.bcPut8 .x2) (State.setReg (rangeOf (List.replicate 16 0)) .x2 0x1122334455667788)) (fun t => bytesAt t 0 [0x88, 0] && t.pos == 1) = true := by decide +kernel

/-- V-B3. -/
theorem test_bcPut16 :
    ends (exec (.bcPut16 .x2) ((State.setReg (rangeOf (List.replicate 16 0)) .x2 0x1122334455667788).setPos 1)) (fun t => bytesAt t 0 [0, 0x88, 0x77, 0] && t.pos == 3) = true := by decide +kernel

/-- V-B4. -/
theorem test_bcPut32 :
    ends (exec (.bcPut32 .x2) ((State.setReg (rangeOf (List.replicate 16 0)) .x2 0x1122334455667788).setPos 3)) (fun t => bytesAt t 3 [0x88, 0x77, 0x66, 0x55, 0] && t.pos == 7) = true := by decide +kernel

/-- V-B5. -/
theorem test_bcPut64 :
    ends (exec (.bcPut64 .x2) ((State.setReg (rangeOf (List.replicate 16 0)) .x2 0x1122334455667788).setPos 7)) (fun t => bytesAt t 6 [0, 0x88, 0x77, 0x66, 0x55, 0x44, 0x33, 0x22, 0x11, 0]) = true := by decide +kernel

/-- V-B6. -/
theorem test_bcPut16_beyond :
    ends (exec (.bcPut16 .x2) ((State.setReg (rangeOf (List.replicate 16 0)) .x2 0x1122334455667788).setPos 15)) (fun t => answers t .outOfBounds 0 0 && bytesAt t 15 [0] && t.pos == 15) = true := by decide +kernel

/-- R164. -/
theorem test_bcPuto8 :
    ends (exec (.bcPuto8 .x2 .x0 15) (State.setReg (rangeOf (List.replicate 16 0)) .x2 0x1122334455667788)) (fun t => bytesAt t 14 [0, 0x88] && t.pos == 0) = true := by decide +kernel

/-- V-B21. -/
theorem test_bcPuto16 :
    ends (exec (.bcPuto16 .x5 .x0 14) (cursorBytes.setReg .x5 0xAABB)) (fun t => bytesAt t 13 [0x22, 0xBB, 0xAA] && t.pos == 0) = true := by decide +kernel

/-- R166. -/
theorem test_bcPuto32 :
    ends (exec (.bcPuto32 .x2 .x0 12) (State.setReg (rangeOf (List.replicate 16 0)) .x2 0x1122334455667788)) (fun t => bytesAt t 11 [0, 0x88, 0x77, 0x66, 0x55]) = true := by decide +kernel

/-- R167. -/
theorem test_bcPuto64 :
    ends (exec (.bcPuto64 .x2 .x0 8) (State.setReg (rangeOf (List.replicate 16 0)) .x2 0x1122334455667788)) (fun t => bytesAt t 7 [0, 0x88, 0x77, 0x66, 0x55, 0x44, 0x33, 0x22, 0x11]) = true := by decide +kernel

/-- V-V8. -/
theorem test_bcGetvar :
    ends (exec (.bcGetvar .x6 .x7) (rangeOf [0x80, 0x80, 0x80, 0x80, 0x80, 0x80, 0x80, 0x80, 0x80, 1])) (fun t => answers t .ok 9223372036854775808 10 && t.pos == 10) = true := by decide +kernel

/-- V-V9. -/
theorem test_bcGetvar_tenth :
    ends (exec (.bcGetvar .x6 .x7) (rangeOf [0xFF, 0xFF, 0xFF, 0xFF, 0xFF, 0xFF, 0xFF, 0xFF, 0xFF, 2])) (fun t => answers t .corruptData 0 18446744073709551615 && t.reg .x7 == BitVec.allOnes 64 && t.pos == 0) = true := by decide +kernel

/-- V-V16. -/
theorem test_bcGetvaro :
    ends (exec (.bcGetvaro .x6 .x7 .x0 5) (rangeOf [0, 0, 0, 0, 0, 0xE8, 7])) (fun t => answers t .ok 1000 2 && t.reg .x7 == 2 && t.pos == 0) = true := by decide +kernel

/-- V-V17. -/
theorem test_bcGetvaro_end :
    ends (exec (.bcGetvaro .x6 .x7 .x0 7) (rangeOf [0, 0, 0, 0, 0, 0xE8, 7])) (fun t => answers t .corruptData 0 18446744073709551615 && t.reg .x6 == 0) = true := by decide +kernel

/-- V-V19. -/
theorem test_bcPutvar :
    ends (exec (.bcPutvar .x4 .x3) ((rangeOf [0, 0, 0]).setReg .x3 16384)) (fun t => answers t .ok 3 0 && bytesAt t 0 [0x80, 0x80, 1] && t.pos == 3) = true := by decide +kernel

/-- V-V20. -/
theorem test_bcPutvar_beyond :
    ends (exec (.bcPutvar .x4 .x3) ((rangeOf [0, 0]).setReg .x3 16384)) (fun t => answers t .outOfBounds 0 0 && bytesAt t 0 [0, 0]) = true := by decide +kernel

/-- The range of spec/95_test_vectors.md 2.4. -/
def bitBytes : State := rangeOf [0xA5, 0xC3, 0xFF, 0x00, 0x12, 0x34, 0x56, 0x78, 0x9A, 0xBC]

/-- V-R14. -/
theorem test_brOpen :
    ends (exec .brOpen (bitBytes.setPos 3)) (fun t => t.rbit == 24 && t.pos == 3) = true := by decide +kernel

/-- V-R10. -/
theorem test_brSeek :
    ends (exec (.brSeek .x0 80) (bitBytes)) (fun t => t.rbit == 80) = true := by decide +kernel

/-- V-R10. -/
theorem test_brSeek_beyond :
    ends (exec (.brSeek .x0 81) (bitBytes)) (fun t => answers t .outOfBounds 0 0 && t.rbit == 0) = true := by decide +kernel

/-- V-R4. -/
theorem test_brNext :
    ends (exec (.brNext .x2 12) (bitBytes.setRbit 9)) (fun t => answers t .ok 0x87F 0 && t.rbit == 21) = true := by decide +kernel

/-- V-R11. -/
theorem test_brNext_count :
    ends (exec (.brNext .x2 65) (bitBytes.setRbit 80)) (fun t => answers t .unsupportedFeature 0 0) = true := by decide +kernel

/-- V-R12. -/
theorem test_brNextv :
    ends (exec (.brNextv .x2 .x1) ((bitBytes.setRbit 4).setReg .x1 8)) (fun t => answers t .ok 0x5C 0 && t.rbit == 12) = true := by decide +kernel

/-- V-R13. -/
theorem test_brNextv_count :
    ends (exec (.brNextv .x2 .x1) (bitBytes.setReg .x1 0x8000000000000000)) (fun t => answers t .unsupportedFeature 0 0) = true := by decide +kernel

/-- V-R7. -/
theorem test_brHasnext :
    ends (exec (.brHasnext .x3) (bitBytes.setRbit 80)) (fun t => answers t .ok 0 0) = true := by decide +kernel

/-- R198. -/
theorem test_brHasnext_one :
    ends (exec (.brHasnext .x3) (bitBytes.setRbit 79)) (fun t => answers t .ok 1 0 && t.reg .x3 == 1) = true := by decide +kernel

/-- V-W2. -/
theorem test_bwPush :
    ends (exec (.bwPush .x2 64) ((State.setReg (rangeOf (List.replicate 10 0)) .x2 0x0123456789ABCDEF).setWriter 7 127)) (fun t => bytesAt t 0 [0xFE, 0x02, 0x46, 0x8A, 0xCF, 0x13, 0x57, 0x9B, 0] && t.wcnt == 7 && t.wpend == 0x6F) = true := by decide +kernel

/-- V-W7. -/
theorem test_bwPush_beyond :
    ends (exec (.bwPush .x1 1) (((State.setReg (rangeOf (List.replicate 10 0)) .x1 0x7F).setPos 10).setWriter 7 127)) (fun t => answers t .outOfBounds 0 0 && t.wcnt == 7 && t.wpend == 127) = true := by decide +kernel

/-- V-W8. -/
theorem test_bwPushv :
    ends (exec (.bwPushv .x1 .x3) ((State.with3 (rangeOf [0, 0]) 0xFFFF 0 5).setWriter 3 7)) (fun t => bytesAt t 0 [0xFF, 0] && t.pos == 1 && t.wcnt == 0) = true := by decide +kernel

/-- V-W3. -/
theorem test_bwFlush :
    ends (exec .bwFlush ((State.setPos (rangeOf (List.replicate 10 0)) 8).setWriter 7 0x6F)) (fun t => bytesAt t 8 [0xDE] && t.pos == 9 && t.wcnt == 0) = true := by decide +kernel

/-- V-W4. -/
theorem test_bwFlush_empty :
    ends (exec .bwFlush (State.setPos (rangeOf (List.replicate 10 0)) 9)) (fun t => answers t .ok 0 0 && t.pos == 9) = true := by decide +kernel

/-- The range of spec/95_test_vectors.md 2.6 with the lane `w`. -/
def fieldBytes (w : Nat) : State :=
  { rangeOf [0xDE, 0xAD, 0xBE, 0xEF, 0x01, 0x23, 0x45, 0x67] with uw := BitVec.ofNat 6 w, un := 64 }

/-- V-U21. -/
theorem test_unpSel :
    ends (exec (.unpSel .x0 32) (State.reset)) (fun t => t.uw == 32) = true := by decide +kernel

/-- V-U22. -/
theorem test_unpSel_33 :
    ends (exec (.unpSel .x0 33) (State.reset)) (fun t => answers t .unsupportedFeature 0 0 && t.uw == 0) = true := by decide +kernel

/-- V-U23. -/
theorem test_unpBase :
    ends (exec (.unpBase .x0 8) (fieldBytes 4)) (fun t => t.udata == 8) = true := by decide +kernel

/-- V-U23. -/
theorem test_unpBase_beyond :
    ends (exec (.unpBase .x0 9) (fieldBytes 4)) (fun t => answers t .outOfBounds 0 0 && t.udata == 0) = true := by decide +kernel

/-- V-U24. -/
theorem test_unpCount :
    ends (exec (.unpCount .x0 0xFFFFFFFF) (State.reset)) (fun t => t.un == 0xFFFFFFFF) = true := by decide +kernel

/-- V-U24. -/
theorem test_unpCount_beyond :
    ends (exec (.unpCount .x1 0xFFFFFFFF) (State.reset.setReg .x1 1)) (fun t => answers t .outOfBounds 0 0 && t.un == 0) = true := by decide +kernel

/-- V-U15. -/
theorem test_unpGet :
    ends (exec (.unpGet .x1 .x0 1) (fieldBytes 31)) (fun t => answers t .ok 1078514009 0) = true := by decide +kernel

/-- V-U7. -/
theorem test_unpGet_beyond :
    ends (exec (.unpGet .x1 .x0 21) (fieldBytes 3)) (fun t => answers t .corruptData 0 0) = true := by decide +kernel

/-- V-U40. -/
theorem test_unpHdr :
    ends (exec (.unpHdr .x3) ((rangeOf [2, 0xE8, 7, 0x1B]).setCount 4)) (fun t => answers t .ok 4 0 && t.uw == 2 && t.uref == 1000 && t.udata == 3 && t.pos == 4) = true := by decide +kernel

/-- V-U43. -/
theorem test_unpHdr_order :
    ends (exec (.unpHdr .x3) ((rangeOf [0, 0xFF]).setCount 4)) (fun t => answers t .unsupportedFeature 0 0) = true := by decide +kernel

/-- V-U26. -/
theorem test_unpAt :
    ends (exec (.unpAt .x1 .x0 0) ({ fieldBytes 32 with uref := 0x21524110 })) (fun t => answers t .ok 4294967295 0) = true := by decide +kernel

/-- V-U27. -/
theorem test_unpAt_over :
    ends (exec (.unpAt .x1 .x0 0) ({ fieldBytes 32 with uref := 0x21524111 })) (fun t => answers t .corruptData 0 0) = true := by decide +kernel

/-- V-U30. -/
theorem test_unpRun :
    ends (exec (.unpRun .x1 .x2) (State.with3 (fieldBytes 3) 2 4 0)) (fun t => t.ubuf == [5, 2, 6, 6] && t.ucnt == 4) = true := by decide +kernel

/-- V-U32. -/
theorem test_unpRun_beyond :
    ends (exec (.unpRun .x1 .x2) (State.with3 (fieldBytes 3) 61 4 0)) (fun t => answers t .outOfBounds 0 0 && t.ucnt == 0) = true := by decide +kernel

/-- V-U39. -/
theorem test_unpRunref :
    ends (exec (.unpRunref .x0 .x2) ({ State.with3 (fieldBytes 32) 0 2 0 with uref := 0x10000000 })) (fun t => t.ubuf.take 2 == [0xEEADBEEF, 0x11234567]) = true := by decide +kernel

/-- V-U38. -/
theorem test_unpRunref_over :
    ends (exec (.unpRunref .x0 .x2) ({ State.with3 (fieldBytes 32) 0 2 0 with uref := 0xE0000000 })) (fun t => answers t .corruptData 0 0 && t.ubuf == [0, 0, 0, 0]) = true := by decide +kernel

/-- V-U35. -/
theorem test_unpRd :
    ends (exec (.unpRd .x3 .x0 2) ({ State.reset with ubuf := [2, 6, 3, 6], ucnt := 3 })) (fun t => answers t .ok 3 0) = true := by decide +kernel

/-- V-U35. -/
theorem test_unpRd_beyond :
    ends (exec (.unpRd .x3 .x0 3) ({ State.reset with ubuf := [2, 6, 3, 6], ucnt := 3 })) (fun t => answers t .outOfBounds 0 0) = true := by decide +kernel

/-- 2.6, last table. -/
theorem test_unpMinw :
    ends (exec (.unpMinw .x2 .x1) (State.reset.setReg .x1 256)) (fun t => answers t .ok 9 0) = true := by decide +kernel

/-- 2.6, last table. -/
theorem test_unpMinw_beyond :
    ends (exec (.unpMinw .x2 .x1) (State.reset.setReg .x1 0x100000000)) (fun t => answers t .unsupportedFeature 0 0) = true := by decide +kernel

/-- The table `TAB` of spec/95_test_vectors.md 2.7 with `x2`, `x3` the two counts. -/
def tableBytes (nn nl : Nat) : State :=
  State.with3 (rangeOf [0, 2, 1, 0, 0, 6, 2, 1, 2, 2, 1, 0, 0, 0, 1, 0, 0, 2, 0, 0, 0, 2, 0, 0, 5, 0, 0, 0,
    2, 0, 0]) 0 nn nl

/-- The tree of V-H1 over a range of the given bytes. -/
def treeOver (bytes : List Nat) : State :=
  { rangeOf bytes with
    hvalid := true
    hnn := 5
    hnl := 3
    hn := [⟨0, 1⟩, ⟨1, 0⟩, ⟨0, 3⟩, ⟨2, 1⟩, ⟨2, 2⟩]
    hl := [⟨1, 1⟩, ⟨2, 2⟩, ⟨5, 2⟩] }

/-- V-H1. -/
theorem test_hufLoad :
    ends (exec (.hufLoad .x2 .x3) (tableBytes 5 3)) (fun t => t.hvalid && t.hn == (treeOver []).hn && t.hl == (treeOver []).hl && t.pos == 31) = true := by decide +kernel

/-- V-H2, from a state with a tree. -/
theorem test_hufLoad_small :
    ends (exec (.hufLoad .x2 .x3) ({ tableBytes 2 3 with hvalid := true, hnn := 5, hnl := 3 })) (fun t => answers t .corruptData 0 0 && t.hvalid == false && t.hnn == 0 && t.hnl == 0) = true := by decide +kernel

/-- V-H26. -/
theorem test_hufDec :
    ends (exec (.hufDec .x4 .x5) ((treeOver [0xC0]).setAcc 0xFFFFFFFA)) (fun t => answers t .ok 5 2 && t.hacc == 0xFFFFFFFF && t.rbit == 2) = true := by decide +kernel

/-- V-H25. -/
theorem test_hufDec_out :
    ends (exec (.hufDec .x4 .x5) ((treeOver [0xC1]).setRbit 7)) (fun t => answers t .corruptData 0 0 && t.rbit == 7) = true := by decide +kernel

/-- 2.7, last paragraph. -/
theorem test_hufAccset :
    ends (exec (.hufAccset .x1 100) (State.reset.setReg .x1 1)) (fun t => t.hacc == 101) = true := by decide +kernel

/-- 2.7, last paragraph. -/
theorem test_hufAccset_beyond :
    ends (exec (.hufAccset .x1 0xFFFFFFFF) (State.reset.setReg .x1 1)) (fun t => answers t .outOfBounds 0 0 && t.hacc == 0) = true := by decide +kernel

/-- V-I4 through the step: an illegal word. -/
theorem test_step_illegal :
    ends (step (State.reset.withFetchWord 64 0x0020000000000000))
      (fun t => answers t .illegalCommand 0 0 && t.seq == 1 && t.input == []) = true := by decide +kernel

/-- V-C2 through the step. -/
theorem test_step_li :
    ends (step (State.reset.withFetchWord 64 0x01600000000003E8))
      (fun t => answers t .ok 1000 0 && t.reg .x3 == 1000) = true := by decide +kernel

/-- The pseudo-command `LI64` (spec/30_encoding.md R101). -/
theorem test_li64 : expandPseudo (.li64 .x1 0x1122334455667788) =
    [.li .x1 0x55667788, .lih .x1 0x11223344] := by decide +kernel

/-- The text of V-V16 (spec/30_encoding.md R100). -/
theorem test_asmText : asmText (.bcGetvaro .x6 .x7 .x0 5) = "BC.GETVARO x6, x7, x0, 5" := by
  decide +kernel

/-- Lines of text (spec/30_encoding.md R100, R101). -/
theorem test_readLine :
    readLine "BC.GETVARO x6, x7, x0, 0x1f  # at 31".toList = some [.bcGetvaro .x6 .x7 .x0 31] ∧
    readLine "BW.PUSHV x2,x1".toList = some [.bwPushv .x2 .x1] ∧
    readLine "LI64 x1, 0x1122334455667788".toList =
      some [.li .x1 0x55667788, .lih .x1 0x11223344] ∧
    readLine "# a comment".toList = some [] ∧
    readLine "BR.NEXT x2, 128".toList = none ∧ readLine "li x1, 5".toList = none := by
  decide +kernel

/-! ### Witnesses: a state and operands that meet the hypotheses of each statement -/

/-- Reset with host events waiting. -/
def waiting (es : List HostEvent) : State := State.reset.setInput es

theorem both_of {α β : Type} {x : Option α} {f : α → Option β} (h : (x.bind f).isSome = true) :
    ∃ t u, x = some t ∧ f t = some u := by
  cases x with
  | none => cases h
  | some t => exact ⟨t, (f t).get h, rfl, (Option.some_get h).symm⟩

theorem witness_DecodeInvertsEncode :
    (Instr.li .x3 (2 ^ 32 - 1)).WellFormed ∧ (Instr.bwPush .x1 127).WellFormed := by decide

theorem witness_EncodeInvertsDecode :
    decode 0x01600000000003E8 = .ok (.li .x3 1000) := by rfl

theorem witness_WordsAreMaskMatches :
    decode 0x01600000000003E8 = .ok (.li .x3 1000) ∧ (⟨0x01, "LI", .DI⟩ : OpcodeRow) ∈ opcodeMap :=
  ⟨by rfl, by decide⟩

theorem witness_StepRunsTheDecodedCommand :
    (waiting [.issue 0x01600000000003E8]).input = [.issue 0x01600000000003E8] ∧
      decode 0x01600000000003E8 = .ok (.li .x3 1000) := ⟨rfl, by rfl⟩

theorem witness_IllegalWordsOnlyRaise :
    (waiting [.issue 0x0600000000000000]).input = [.issue 0x0600000000000000] ∧
      decode 0x0600000000000000 = .error (.reservedOpcode 6) := ⟨rfl, by rfl⟩

theorem witness_ReservedWordsAreIllegal :
    (∀ op ∈ [0x06, 0x0F, 0x13, 0x17, 0x2B, 0x2F, 0x35, 0x37, 0x3B, 0x3F, 0x4A, 0x4F, 0x53, 0xFF],
      (fieldsOf (BitVec.ofNat 64 (op * 2 ^ 56))).op = op) ∧
    (fieldsOf 1).op = 0 ∧ (1 : CommandWord) ≠ 0 := by decide +kernel

theorem witness_HostEventsBetweenCommands :
    State.reset.input = [] ∧
    (waiting [.write 255 7]).input = [.write 255 7] ∧ 255 < (waiting [.write 255 7]).cap.memSize ∧
    (waiting [.write 256 7]).input = [.write 256 7] ∧ (waiting [.write 256 7]).cap.memSize ≤ 256 := by
  decide +kernel

theorem witness_ResetSetsEveryElement : (waiting [.reset]).input = [.reset] := rfl

theorem witness_StepKeepsTheInvariant :
    (waiting [.issue 0x01600000000003E8]).Inv ∧
      ∃ t, step (waiting [.issue 0x01600000000003E8]) = .next t ∧ (t.reg .x3 == 1000) = true :=
  ⟨by decide +kernel, next_of (p := fun t => t.reg .x3 == 1000) (by decide +kernel)⟩

theorem witness_ReachableStatesSatisfyTheInvariant :
    Config.capacities.Legal ∧ Memory.wf [(4, 7)] = true ∧
      (∀ c ∈ ([(4, 7)] : Memory), c.1 < Config.capacities.memSize) ∧
      ∃ t, runSteps 2 (State.powerUp Config.capacities [(4, 7)] [.write 3 1, .issue 0]) = .next t ∧
        (t.seq == 1) = true :=
  ⟨by decide, by decide, by decide, next_of (p := fun t => t.seq == 1) (by decide +kernel)⟩

theorem witness_MemoryStaysCanonical :
    Memory.wf (waiting [.write 3 1]).mem = true ∧
      ∃ t, step (waiting [.write 3 1]) = .next t ∧ (t.mem == [(3, 1)]) = true :=
  ⟨by decide, next_of (p := fun t => t.mem == [(3, 1)]) (by decide +kernel)⟩

/-- A load that ends with status 0, one over capacity, another command, a reset, and a node of each
kind. -/
theorem witness_TreeInvariantStandsUntilTheNextLoad :
    ((tableBytes 5 3).cap.Legal ∧
      ∃ t, exec (.hufLoad .x2 .x3) (tableBytes 5 3) = .next t ∧ t.Ended .ok) ∧
    ((tableBytes 6 3).cap.maxNodes < (tableBytes 6 3).regNat .x2 ∧
      ∃ t, exec (.hufLoad .x2 .x3) (tableBytes 6 3) = .next t) ∧
    (∃ t, exec (.hufDec .x4 .x5) (treeOver [0x58]) = .next t) ∧
    (∃ t, step (waiting [.reset]) = .next t) ∧
    (treeOver []).LoadedTree ∧ (0 < (treeOver []).hnn.toNat ∧ ((treeOver []).node 0).bl = 0) ∧
      (4 < (treeOver []).hnn.toNat ∧ ((treeOver []).node 4).bl ≠ 0) := by
  refine ⟨⟨by decide +kernel, ?_⟩, ⟨by decide +kernel, ?_⟩, ?_, ?_, by decide +kernel,
    by decide +kernel, by decide +kernel⟩
  · obtain ⟨t, h, hp⟩ := next_of (o := exec (.hufLoad .x2 .x3) (tableBytes 5 3))
      (p := fun t => decide (t.resp = some ⟨.ok, 0, 0⟩)) (by decide +kernel)
    exact ⟨t, h, 0, 0, of_decide_eq_true hp⟩
  · obtain ⟨t, h, -⟩ := next_of (o := exec (.hufLoad .x2 .x3) (tableBytes 6 3))
      (p := fun _ => true) (by decide +kernel)
    exact ⟨t, h⟩
  · obtain ⟨t, h, -⟩ := next_of (o := exec (.hufDec .x4 .x5) (treeOver [0x58]))
      (p := fun _ => true) (by decide +kernel)
    exact ⟨t, h⟩
  · exact ⟨_, rfl⟩

theorem witness_SeqCountsEveryCommand :
    (∃ t, exec .nop State.reset = .next t) ∧
    (∃ t, step (waiting [.issue 0x0600000000000000]) = .next t ∧ (t.seq == 1) = true) ∧
    ∃ t, step (waiting [.write 255 7]) = .next t ∧ (t.seq == 0) = true :=
  ⟨⟨_, rfl⟩, next_of (p := fun t => t.seq == 1) (by decide +kernel),
    next_of (p := fun t => t.seq == 0) (by decide +kernel)⟩

/-- A fault of each kind R305 names: precise, the two varint gets, a table load past its capacity check
and one that fails it. -/
theorem witness_FaultsArePrecise :
    ((waiting [.issue 0x0600000000000000]).input = [.issue 0x0600000000000000] ∧
      decode 0x0600000000000000 = .error (.reservedOpcode 6)) ∧
    (∃ t, exec (.bcGet8 .x1) State.reset = .next t ∧ answers t .outOfBounds 0 0 = true) ∧
    (∃ t, exec (.bcGetvar .x1 .x2) State.reset = .next t ∧
      answers t .corruptData 0 (2 ^ 64 - 1) = true) ∧
    (∃ t, exec (.bcGetvaro .x1 .x2 .x0 0) State.reset = .next t ∧
      answers t .corruptData 0 (2 ^ 64 - 1) = true) ∧
    (State.reset.regNat .x1 ≤ State.reset.cap.maxNodes ∧
      State.reset.regNat .x2 ≤ State.reset.cap.maxLeaves ∧
      ∃ t, exec (.hufLoad .x1 .x2) State.reset = .next t ∧ answers t .corruptData 0 0 = true) ∧
    (tableBytes 6 3).cap.maxNodes < (tableBytes 6 3).regNat .x2 ∧
      ∃ t, exec (.hufLoad .x2 .x3) (tableBytes 6 3) = .next t ∧
        answers t .unsupportedFeature 0 0 = true :=
  ⟨⟨rfl, by rfl⟩, next_of (by decide +kernel), next_of (by decide +kernel),
    next_of (by decide +kernel),
    ⟨by decide +kernel, by decide +kernel, next_of (by decide +kernel)⟩,
    by decide +kernel, next_of (by decide +kernel)⟩

theorem witness_StickyErrorKeepsTheFirstFault :
    (State.reset.err = .ok ∧
      ∃ t, exec (.bcGet8 .x1) State.reset = .next t ∧ answers t .outOfBounds 0 0 = true) ∧
    (({ State.reset with err := .illegalCommand, eseq := 1 } : State).err ≠ .ok ∧
      ∃ t, exec (.bcGet8 .x1) { State.reset with err := .illegalCommand, eseq := 1 } = .next t ∧
        answers t .outOfBounds 0 0 = true) ∧
    (∃ t, exec .nop { State.reset with err := .illegalCommand, eseq := 1 } = .next t ∧
      answers t .ok 0 0 = true) ∧
    (∃ t, step (waiting [.issue 0x0600000000000000]) = .next t ∧
      answers t .illegalCommand 0 0 = true) ∧
    ∃ t, step (waiting [.reset]) = .next t :=
  ⟨⟨by decide, next_of (by decide +kernel)⟩, ⟨by decide, next_of (by decide +kernel)⟩,
    next_of (by decide +kernel), next_of (by decide +kernel), ⟨_, rfl⟩⟩

theorem witness_NoCommandDependsOnTheStickyError :
    (∀ rd imm, Instr.csrr .x1 2 = .csrr rd imm → 2 ≤ imm) ∧ (∃ t, exec (.csrr .x1 2) State.reset = .next t) ∧
      ∃ u, exec (.csrr .x1 2) { State.reset with err := .illegalCommand, eseq := 1 } = .next u :=
  ⟨fun _ _ h => by cases h; decide, ⟨_, rfl⟩, ⟨_, rfl⟩⟩

/-- The bytes on both sides of a range of two bytes at 4. -/
theorem witness_StoresStayInTheByteRange :
    (∃ t, exec (.bcPut16 .x1) { State.reset with base := 4, len := 2 } = .next t ∧
      answers t .ok 0 0 = true) ∧
    3 < ({ State.reset with base := 4, len := 2 } : State).base ∧
    ({ State.reset with base := 4, len := 2 } : State).base +
      ({ State.reset with base := 4, len := 2 } : State).len ≤ 6 :=
  ⟨next_of (by decide +kernel), by decide, by decide⟩

/-- A memory that differs from an empty one just outside the range. -/
theorem witness_LoadsStayInTheByteRange :
    (∀ off < 2, Memory.read [(3, 7), (6, 7)] (4 + off) = Memory.read [] (4 + off)) ∧
      Memory.read [(3, 7), (6, 7)] 3 ≠ Memory.read [] 3 ∧
      ∃ t, exec (.bcGet16 .x1) { State.reset with base := 4, len := 2 } = .next t ∧
        answers t .ok 0 0 = true :=
  ⟨by decide, by decide, next_of (by decide +kernel)⟩

theorem witness_OnlyTheNamedCommandsWrite :
    (∃ t, exec .nop State.reset = .next t) ∧ (∀ rs1 rs2, Instr.nop ≠ .bcSetrange rs1 rs2) ∧
      Instr.nop.writesPos = false ∧ Instr.nop.writesRbit = false ∧
      Instr.nop.writesWriter = false ∧ Instr.nop.writesMem = false :=
  ⟨⟨_, rfl⟩, nofun, rfl, rfl, rfl, rfl⟩

theorem witness_OnlyDestinationsAreWritten :
    (∃ t, exec (.bcGetvar .x1 .x2) (rangeOf [7]) = .next t ∧ answers t .ok 7 1 = true) ∧
      Reg.x3 ∉ (Instr.bcGetvar .x1 .x2).destinations :=
  ⟨next_of (by decide +kernel), by decide⟩

theorem witness_CommandsRaiseOnlyTheirStatuses :
    ∃ t, exec (.brNext .x1 0) State.reset = .next t ∧ answers t .unsupportedFeature 0 0 = true :=
  next_of (by decide +kernel)

theorem witness_ResetStateHoldsTheResetValues : 0 < 16 ∧ 15 < 16 := by decide

/-- The last CSR and the first reserved number. -/
theorem witness_CsrrReadsEveryCsr : 19 ≤ 19 ∧ 20 ≤ 20 := by decide

theorem witness_MovesAndNopComplete : 0 < 2 ^ 32 ∧ 2 ^ 32 - 1 < 2 ^ 32 := by decide

theorem witness_LoadImmediate64BuildsTheConstant : Reg.x1 ≠ .x0 := by decide

/-- A range that ends at the end of `MEM`, one a byte longer; a seek to the end, and one past it. -/
theorem witness_RangeAndPositionCommands :
    (∀ s ∈ [State.with3 State.reset 250 6 0, State.with3 State.reset 256 0 0],
      (s.reg .x1).toNat + (s.reg .x2).toNat ≤ s.cap.memSize) ∧
    (∀ s ∈ [State.with3 State.reset 250 7 0], s.cap.memSize < (s.reg .x1).toNat + (s.reg .x2).toNat) ∧
    ((cursorBytes.reg .x1).toNat + 16 ≤ cursorBytes.len ∧
      cursorBytes.len < (cursorBytes.reg .x1).toNat + 17) := by decide +kernel

/-- For each width, a position where the bytes just fit and the next. -/
theorem witness_GetsAtThePosition :
    ∀ k ∈ [1, 2, 4, 8], (cursorBytes.setPos (16 - k)).pos + k ≤ (cursorBytes.setPos (16 - k)).len ∧
      (cursorBytes.setPos (17 - k)).len < (cursorBytes.setPos (17 - k)).pos + k := by decide +kernel

/-- For each width, an offset where the bytes just fit and the next. -/
theorem witness_GetsAtAnOffset :
    ∀ k ∈ [1, 2, 4, 8], (cursorBytes.reg .x1).toNat + (16 - k) + k ≤ cursorBytes.len ∧
      cursorBytes.len < (cursorBytes.reg .x1).toNat + (17 - k) + k := by decide +kernel

theorem witness_PutsAtThePosition :
    ∀ k ∈ [1, 2, 4, 8], (cursorBytes.setPos (16 - k)).pos + k ≤ (cursorBytes.setPos (16 - k)).len ∧
      (cursorBytes.setPos (17 - k)).len < (cursorBytes.setPos (17 - k)).pos + k := by decide +kernel

theorem witness_PutsAtAnOffset :
    ∀ k ∈ [1, 2, 4, 8], (cursorBytes.reg .x1).toNat + (16 - k) + k ≤ cursorBytes.len ∧
      cursorBytes.len < (cursorBytes.reg .x1).toNat + (17 - k) + k := by decide +kernel

theorem witness_GetAfterPutReadsTheBytes :
    (∃ t, exec (.bcPuto64 .x2 .x0 8) cursorBytes = .next t ∧ t.Ended .ok) ∧
      ∃ t, exec (.bcPuto32 .x2 .x0 12) cursorBytes = .next t ∧ t.Ended .ok := by
  constructor
  · obtain ⟨t, h, hp⟩ := next_of (o := exec (.bcPuto64 .x2 .x0 8) cursorBytes)
      (p := fun t => decide (t.resp = some ⟨.ok, 0, 0⟩)) (by decide +kernel)
    exact ⟨t, h, 0, 0, of_decide_eq_true hp⟩
  · obtain ⟨t, h, hp⟩ := next_of (o := exec (.bcPuto32 .x2 .x0 12) cursorBytes)
      (p := fun t => decide (t.resp = some ⟨.ok, 0, 0⟩)) (by decide +kernel)
    exact ⟨t, h, 0, 0, of_decide_eq_true hp⟩

/-- The longest varint there is, V-V8, and an over-long zero, V-V15. -/
theorem witness_DecVarReadsTheGroups :
    (rangeOf [0x80, 0x80, 0x80, 0x80, 0x80, 0x80, 0x80, 0x80, 0x80, 1]).VarintAt 0 (2 ^ 63) 10 ∧
      (rangeOf [0x80, 0x80, 0]).VarintAt 0 0 3 := by decide +kernel

theorem witness_EncVarIsMinimal :
    2 ^ 64 - 1 < 2 ^ 64 ∧ 9 < (encVar (2 ^ 64 - 1)).length ∧ 0 < (encVar 0).length := by
  decide +kernel

theorem witness_VarintLaws :
    (300 < 2 ^ 64 ∧ 0 + (encVar 300).length ≤ (rangeOf [0xAC, 2]).len ∧
      ∀ i < (encVar 300).length,
        some (Memory.read (rangeOf [0xAC, 2]).mem ((rangeOf [0xAC, 2]).base + 0 + i)) =
          (encVar 300)[i]?) ∧
    (rangeOf [0xAC, 2]).decVar 0 = some (300, 2) ∧ 0 + 2 ≤ (rangeOf [0xAC, 2, 9]).len ∧
      ∀ i < 2, Memory.read (rangeOf [0xAC, 2, 9]).mem ((rangeOf [0xAC, 2, 9]).base + 0 + i) =
        Memory.read (rangeOf [0xAC, 2]).mem ((rangeOf [0xAC, 2]).base + 0 + i) := by decide +kernel

/-- No varint is at the end of a range. -/
theorem no_varint_at_end (s : State) (off : Nat) (h : s.len ≤ off) (v l : Nat) :
    ¬ s.VarintAt off v l := fun ⟨h1, _, h3, _⟩ => by omega

theorem witness_VarintGets :
    (rangeOf [0xE8, 7]).VarintAt (rangeOf [0xE8, 7]).pos 1000 2 ∧
    (∀ v l, ¬ (rangeOf []).VarintAt (rangeOf []).pos v l) ∧
    (rangeOf [0, 0, 0, 0, 0, 0xE8, 7]).VarintAt
      (((rangeOf [0, 0, 0, 0, 0, 0xE8, 7]).reg .x1).toNat + 5) 1000 2 ∧
    ∀ v l, ¬ (rangeOf [0xE8, 7]).VarintAt (((rangeOf [0xE8, 7]).reg .x1).toNat + 2) v l :=
  ⟨by decide +kernel, no_varint_at_end _ _ (by decide), by decide +kernel,
    no_varint_at_end _ _ (by decide)⟩

/-- Three bytes that just fit, and do not fit in two (V-V19, V-V20). -/
theorem witness_VarintPut :
    (∀ s ∈ [(rangeOf [0, 0, 0]).setReg .x3 16384],
      s.pos + (encVar (s.reg .x3).toNat).length ≤ s.len) ∧
    ∀ s ∈ [(rangeOf [0, 0]).setReg .x3 16384],
      s.len < s.pos + (encVar (s.reg .x3).toNat).length := by decide +kernel

theorem witness_GetvarReadsBackPutvar :
    ∃ t, exec (.bcPutvar .x4 .x3) ((rangeOf [0, 0, 0]).setReg .x3 16384) = .next t ∧
      t.Ended .ok := by
  obtain ⟨t, h, hp⟩ := next_of
    (o := exec (.bcPutvar .x4 .x3) ((rangeOf [0, 0, 0]).setReg .x3 16384))
    (p := fun t => decide (t.resp = some ⟨.ok, 3, 0⟩)) (by decide +kernel)
  exact ⟨t, h, 3, 0, of_decide_eq_true hp⟩

theorem witness_ReaderPositionCommands :
    ((bitBytes.reg .x1).toNat + 80 ≤ 8 * bitBytes.len ∧
      8 * bitBytes.len < (bitBytes.reg .x1).toNat + 81) ∧
    (bitBytes.setRbit 79).rbit < 8 * (bitBytes.setRbit 79).len ∧
      8 * (bitBytes.setRbit 80).len ≤ (bitBytes.setRbit 80).rbit := by decide +kernel

/-- The counts 1 and 64 where the bits just fit, the same a bit later, the counts 0 and 65. -/
theorem witness_BitReads :
    (∀ n ∈ [1, 64], 1 ≤ n ∧ n ≤ 64 ∧
      (bitBytes.setRbit (80 - n)).rbit + n ≤ 8 * (bitBytes.setRbit (80 - n)).len ∧
      8 * (bitBytes.setRbit (81 - n)).len < (bitBytes.setRbit (81 - n)).rbit + n) ∧
    ((0 = 0 ∨ 65 ≤ 0) ∧ (65 = 0 ∨ 65 ≤ 65)) := by decide +kernel

/-- With 7 bits pending: 7 bits complete one byte and 64 bits eight; both just fit, and do not fit in a
range a byte shorter. -/
theorem witness_BitPushes :
    (∀ q ∈ [(1, 1), (64, 8)], 1 ≤ q.1 ∧ q.1 ≤ 64 ∧
      ((rangeOf (List.replicate q.2 0)).setWriter 7 127).pos +
        (((rangeOf (List.replicate q.2 0)).setWriter 7 127).wcnt.toNat + q.1) / 8 ≤
          ((rangeOf (List.replicate q.2 0)).setWriter 7 127).len ∧
      ((rangeOf (List.replicate (q.2 - 1) 0)).setWriter 7 127).len <
        ((rangeOf (List.replicate (q.2 - 1) 0)).setWriter 7 127).pos +
          (((rangeOf (List.replicate (q.2 - 1) 0)).setWriter 7 127).wcnt.toNat + q.1) / 8) ∧
    ((0 = 0 ∨ 65 ≤ 0) ∧ (65 = 0 ∨ 65 ≤ 65)) := by decide +kernel

theorem witness_FlushPadsWithZeros :
    State.reset.wcnt = 0 ∧
    (((rangeOf [0]).setWriter 7 127).wcnt ≠ 0 ∧
      ((rangeOf [0]).setWriter 7 127).pos + 1 ≤ ((rangeOf [0]).setWriter 7 127).len) ∧
    ((rangeOf []).setWriter 1 1).wcnt ≠ 0 ∧
      ((rangeOf []).setWriter 1 1).len < ((rangeOf []).setWriter 1 1).pos + 1 := by decide +kernel

/-- Three pushes and a flush (V-W9). -/
theorem witness_WriterReaderRoundTrip :
    (rangeOf [0, 0]).WriterInv ∧ (rangeOf [0, 0]).wcnt = 0 ∧
    (∀ q ∈ [(5, 3), (5, 3), (5, 3)], 1 ≤ q.2 ∧ q.2 ≤ 64 ∧ q.1 < 2 ^ q.2) ∧
    ∃ t u, pushAll [(5, 3), (5, 3), (5, 3)] (rangeOf [0, 0]) = some t ∧ okExec .bwFlush t = some u :=
  ⟨by decide, by decide, by decide, both_of (by decide +kernel)⟩

theorem witness_UnpackerSetUp :
    (∀ E ∈ [1, 32], E = (State.reset.reg .x1).toNat + E ∧ 1 ≤ E ∧ E ≤ 32) ∧
    (∀ E ∈ [0, 33], E = (State.reset.reg .x1).toNat + E ∧ (E = 0 ∨ 33 ≤ E)) ∧
    8 ≤ (fieldBytes 4).len ∧ (fieldBytes 4).len < 9 ∧
    2 ^ 32 - 1 < 2 ^ 32 ∧ 2 ^ 32 ≤ ((State.reset.setReg .x1 1).reg .x1).toNat + (2 ^ 32 - 1) := by
  decide +kernel

/-- The header of V-U40, with a payload that just fits; and every failing check: the end of the range,
a width of 0 and of 33, no reference (V-U44), a reference too large (V-U47), a payload a byte too long
(V-U41). -/
theorem witness_BlockHeader :
    (rangeOf []).len ≤ (rangeOf []).pos ∧
    (∀ b ∈ [0, 33], (rangeOf [b]).pos < (rangeOf [b]).len ∧
      (Memory.read (rangeOf [b]).mem ((rangeOf [b]).base + (rangeOf [b]).pos)).toNat = b ∧
      (b = 0 ∨ 33 ≤ b)) ∧
    ((rangeOf [2]).pos < (rangeOf [2]).len ∧
      2 = (Memory.read (rangeOf [2]).mem ((rangeOf [2]).base + (rangeOf [2]).pos)).toNat ∧
      ∀ v l, ¬ (rangeOf [2]).VarintAt ((rangeOf [2]).pos + 1) v l) ∧
    ((rangeOf [1, 0xFF, 0xFF, 0xFF, 0xFF, 0x10, 0]).VarintAt
      ((rangeOf [1, 0xFF, 0xFF, 0xFF, 0xFF, 0x10, 0]).pos + 1) (2 ^ 32 + 2 ^ 28 - 1) 5 ∧
      2 ^ 32 ≤ 2 ^ 32 + 2 ^ 28 - 1) ∧
    ((rangeOf [2, 0xE8, 7, 0x1B]).VarintAt ((rangeOf [2, 0xE8, 7, 0x1B]).pos + 1) 1000 2 ∧
      1000 < 2 ^ 32 ∧
      (rangeOf [2, 0xE8, 7, 0x1B]).len <
        (rangeOf [2, 0xE8, 7, 0x1B]).pos + 1 + 2 +
          (((rangeOf [2, 0xE8, 7, 0x1B]).setCount 5).un.toNat * 2 + 8 - 1) / 8 ∧
      (rangeOf [2, 0xE8, 7, 0x1B]).pos + 1 + 2 +
          (((rangeOf [2, 0xE8, 7, 0x1B]).setCount 4).un.toNat * 2 + 8 - 1) / 8 ≤
        (rangeOf [2, 0xE8, 7, 0x1B]).len) :=
  ⟨by decide, by decide +kernel, ⟨by decide, by decide +kernel, no_varint_at_end _ _ (by decide)⟩,
    by decide +kernel, by decide +kernel⟩

/-- No lane; index `UN`; the last field that fits and the next (V-U6, V-U7); the reference at its
limit (V-U26, V-U27). -/
theorem witness_FieldReads :
    (fieldBytes 0).uw = 0 ∧
    ((fieldBytes 3).uw ≠ 0 ∧ (fieldBytes 3).un.toNat ≤ 64) ∧
    (21 < (fieldBytes 3).un.toNat ∧
      8 * (fieldBytes 3).len < 8 * (fieldBytes 3).udata + (21 + 1) * (fieldBytes 3).uw.toNat) ∧
    (20 < (fieldBytes 3).un.toNat ∧
      8 * (fieldBytes 3).udata + (20 + 1) * (fieldBytes 3).uw.toNat ≤ 8 * (fieldBytes 3).len) ∧
    (fieldBytes 32).fieldSpec 0 = 0xDEADBEEF ∧ 0x21524110 + 0xDEADBEEF < 2 ^ 32 ∧
      2 ^ 32 ≤ 0x21524111 + 0xDEADBEEF := by decide +kernel

/-- The runs of V-U31 to V-U34, a run of no field, a sum at its limit and one over it (V-U38). -/
theorem witness_Runs :
    ((fieldBytes 3).UnpackerInv ∧ (fieldBytes 3).cap.ubufN < 2 ^ 32) ∧
    (fieldBytes 0).uw = 0 ∧ (fieldBytes 3).uw ≠ 0 ∧
    (fieldBytes 3).cap.ubufN < 5 ∧
    (4 ≤ (fieldBytes 3).cap.ubufN ∧ (fieldBytes 3).un.toNat < 61 + 4) ∧
    (3 ≤ (fieldBytes 3).cap.ubufN ∧ 19 + 3 ≤ (fieldBytes 3).un.toNat ∧
      8 * (fieldBytes 3).len < 8 * (fieldBytes 3).udata + (19 + 3) * (fieldBytes 3).uw.toNat) ∧
    (18 + 3 ≤ (fieldBytes 3).un.toNat ∧
      8 * (fieldBytes 3).udata + (18 + 3) * (fieldBytes 3).uw.toNat ≤ 8 * (fieldBytes 3).len) ∧
    64 + 0 ≤ (fieldBytes 3).un.toNat ∧
    (∀ k < 2, 0x10000000 + (fieldBytes 32).fieldSpec (0 + k) < 2 ^ 32) ∧
    (0 < 2 ∧ 2 ^ 32 ≤ 0xE0000000 + (fieldBytes 32).fieldSpec (0 + 0)) := by decide +kernel

theorem witness_EntryReadAndMinimalWidth :
    (∀ s ∈ [{ State.reset with ubuf := [2, 6, 3, 6], ucnt := 3 }],
      (s.reg .x1).toNat + 2 < s.ucnt.toNat ∧ s.ucnt.toNat ≤ (s.reg .x1).toNat + 3) ∧
    ((State.reset.setReg .x1 0xFFFFFFFF).reg .x1).toNat < 2 ^ 32 ∧
      2 ^ 32 ≤ ((State.reset.setReg .x1 0x100000000).reg .x1).toNat := by decide +kernel

/-- Field 5 of V-U5, which is entry 3 of the run of V-U30. -/
theorem witness_FieldReadsAgree :
    (State.with3 (fieldBytes 3) 2 4 0).UnpackerInv ∧
    (State.with3 (fieldBytes 3) 2 4 0).cap.ubufN < 2 ^ 32 ∧
    (∃ t, exec (.unpGet .x0 .x0 5) (State.with3 (fieldBytes 3) 2 4 0) = .next t ∧
      decide (t.resp = some ⟨.ok, 6, 0⟩) = true) ∧
    (((State.with3 (fieldBytes 3) 2 4 0).reg .x1).toNat + 3 = 5 ∧
      3 < ((State.with3 (fieldBytes 3) 2 4 0).reg .x2).toNat ∧
      ∃ u, exec (.unpRun .x1 .x2) (State.with3 (fieldBytes 3) 2 4 0) = .next u ∧
        decide (u.resp = some ⟨.ok, 0, 0⟩) = true) ∧
    (State.with3 (fieldBytes 3) 2 4 0).uref.toNat + (6 : Word).toNat < 2 ^ 32 :=
  ⟨by decide +kernel, by decide,
    next_of (p := fun t => decide (t.resp = some ⟨.ok, 6, 0⟩)) (by decide +kernel),
    ⟨by decide +kernel, by decide +kernel,
      next_of (p := fun t => decide (t.resp = some ⟨.ok, 0, 0⟩)) (by decide +kernel)⟩,
    by decide +kernel⟩

theorem witness_PackThenUnpack :
    1 ≤ 2 ∧ 2 ≤ 32 ∧ (rangeOf [0]).WriterInv ∧ (rangeOf [0]).wcnt = 0 ∧ [0, 1, 2, 3].length < 2 ^ 32 ∧
    (∀ f ∈ [0, 1, 2, 3], f < 2 ^ 2) ∧
    ∃ t u, pushAll ([0, 1, 2, 3].map fun f => (f, 2)) (rangeOf [0]) = some t ∧
      okExec .bwFlush t = some u :=
  ⟨by decide, by decide, by decide, by decide, by decide, by decide, both_of (by decide +kernel)⟩

/-- The record starts, bit-lengths and pointers of the node records of `TAB`. -/
def tabStart (k : Nat) : Nat := 2 * k

/-- See `tabStart`. -/
def tabBl (k : Nat) : Nat := [0, 1, 0, 2, 2].getD k 0

/-- See `tabStart`. -/
def tabPtr (k : Nat) : Nat := [2, 0, 6, 1, 2].getD k 0

theorem tab_legal : (tableBytes 5 3).TableAt 5 3 tabStart tabBl tabPtr := by
  have h1 : ∀ k < 5, (tableBytes 5 3).pos + tabStart k < (tableBytes 5 3).len ∧
      tabBl k = (Memory.read (tableBytes 5 3).mem
        ((tableBytes 5 3).base + ((tableBytes 5 3).pos + tabStart k))).toNat ∧
      tabPtr k < 2 ^ 32 ∧
      (tableBytes 5 3).VarintAt ((tableBytes 5 3).pos + tabStart k + 1) (tabPtr k) 1 ∧
      tabStart (k + 1) = tabStart k + 1 + 1 := by decide +kernel
  have h2 : ∀ k < 5, (tabBl k = 0 → 1 ≤ tabPtr k / 2 ∧ tabPtr k / 2 + 1 < 5 ∧
        tabStart (tabPtr k / 2) = tabPtr k) ∧
      (tabBl k ≠ 0 → tabPtr k < 3 ∧ (tableBytes 5 3).leSpec 3
        ((tableBytes 5 3).pos + tabStart 5 + 7 * tabPtr k + 4) = tabBl k) := by decide +kernel
  refine ⟨by decide, rfl, fun k hk => ?_, by decide +kernel, rfl, fun k hk => ?_⟩
  · obtain ⟨a, b, c, d, e⟩ := h1 k hk
    exact ⟨a, b, c, 1, d, e⟩
  · exact ⟨fun h => ⟨_, (h2 k hk).1 h⟩, (h2 k hk).2⟩

/-- `TAB` loads (V-H1); it does not fit 6 node records or 4 leaf records (V-H11, V-H12); two node
records are no table (V-H2). -/
theorem witness_TableLoad :
    (tableBytes 5 3).cap.Legal ∧ 5 = ((tableBytes 5 3).reg .x2).toNat ∧
    3 = ((tableBytes 5 3).reg .x3).toNat ∧
    ((tableBytes 6 3).cap.maxNodes < 6 ∧ (tableBytes 5 4).cap.maxLeaves < 4) ∧
    (5 ≤ (tableBytes 5 3).cap.maxNodes ∧ 3 ≤ (tableBytes 5 3).cap.maxLeaves) ∧
    (tableBytes 5 3).TableAt 5 3 tabStart tabBl tabPtr ∧
    ¬ ∃ S bl p, (tableBytes 2 3).TableAt 2 3 S bl p :=
  ⟨by decide +kernel, by decide +kernel, by decide +kernel, by decide, by decide, tab_legal,
    fun ⟨_, _, _, h, _⟩ => by omega⟩

/-- A walk of two bits with the sum at its limit and one over it (V-H26, V-H27), no tree, and a stream
with no bit left (V-H24). -/
theorem witness_SymbolDecode :
    State.reset.hvalid = false ∧ (treeOver [0xC0]).hvalid = true ∧
    ((treeOver [0xC0]).WalkEndsAt 2 ∧
      ((treeOver [0xC0]).setAcc 0xFFFFFFFA).hacc.toNat + (treeOver [0xC0]).walkValue 2 < 2 ^ 32) ∧
    (((treeOver [0xC0]).setRbit 2).WalkEndsAt 1 ∧
      2 ^ 32 ≤ ((treeOver [0xC0]).setAcc 0xFFFFFFFF).hacc.toNat +
        ((treeOver [0xC0]).setRbit 2).walkValue 1) ∧
    ∀ cnt, ¬ ((treeOver [0x58]).setRbit 8).WalkEndsAt cnt :=
  ⟨rfl, rfl, by decide +kernel, by decide +kernel, fun cnt ⟨⟨h1, _⟩, h2, _⟩ => by
    have h : ((treeOver [0x58]).setRbit 8).rbit = 8 := rfl
    have h' : ((treeOver [0x58]).setRbit 8).len = 1 := rfl
    omega⟩

theorem witness_DecodeConsumesTheCodeLength :
    (treeOver [0xC0]).TreeInv ∧ ∃ t, exec (.hufDec .x4 .x5) (treeOver [0xC0]) = .next t ∧
      decide (t.resp = some ⟨.ok, 5, 2⟩) = true :=
  ⟨by decide +kernel, next_of (p := fun t => decide (t.resp = some ⟨.ok, 5, 2⟩)) (by decide +kernel)⟩

/-- Two states that differ in a general register. -/
theorem witness_DecodeDependsOnlyOnTheStream :
    (∀ s ∈ [treeOver [0xC0]], ∀ s' ∈ [(treeOver [0xC0]).setReg .x1 9], s'.hvalid = s.hvalid ∧
      s'.hn = s.hn ∧ s'.hl = s.hl ∧ s'.hacc = s.hacc ∧ s'.rbit = s.rbit ∧
      ∀ j < 255, (s.rbit + j < 8 * s.len ↔ s.rbit + j < 8 * s'.len) ∧
        (s.rbit + j < 8 * s.len → s'.bitSpec (s.rbit + j) = s.bitSpec (s.rbit + j))) ∧
    (∃ t, exec (.hufDec .x4 .x5) (treeOver [0xC0]) = .next t ∧ answers t .ok 5 2 = true) ∧
    ∃ t, exec (.hufDec .x4 .x5) ((treeOver [0xC0]).setReg .x1 9) = .next t ∧
      answers t .ok 5 2 = true :=
  ⟨by decide +kernel, next_of (by decide +kernel), next_of (by decide +kernel)⟩

/-- The first three symbols of program P3: code words `0`, `10`, `11` of leaf records 0, 1, 2. -/
theorem witness_DecodeReproducesTheSymbols :
    (treeOver [0x58]).hvalid = true ∧
    (∀ q ∈ [([false], 0), ([true, false], 1), ([true, true], 2)],
      (treeOver [0x58]).CodeWord q.1 q.2) ∧
    (treeOver [0x58]).StreamIs (treeOver [0x58]).rbit [false, true, false, true, true] ∧
    (treeOver [0x58]).hacc.toNat +
      ([([false], 0), ([true, false], 1), ([true, true], 2)].map fun q : List Bool × Nat =>
        ((treeOver [0x58]).leaf q.2).value.toNat).sum < 2 ^ 32 := by
  refine ⟨rfl, ?_, by decide +kernel, by decide +kernel⟩
  intro q hq
  simp only [List.mem_cons, List.not_mem_nil, or_false] at hq
  obtain rfl | rfl | rfl := hq
  · exact ⟨by decide, by decide, 1, ⟨by decide, rfl⟩, by decide, by decide⟩
  · exact ⟨by decide, by decide, 3, ⟨by decide, by decide, rfl⟩, by decide, by decide⟩
  · exact ⟨by decide, by decide, 4, ⟨by decide, by decide, rfl⟩, by decide, by decide⟩

theorem witness_AccumulatorSet :
    ((State.reset.setReg .x1 0).reg .x1).toNat + 0xFFFFFFFF < 2 ^ 32 ∧
      2 ^ 32 ≤ ((State.reset.setReg .x1 1).reg .x1).toNat + 0xFFFFFFFF := by decide +kernel

end Sys2Proof.Tests
end

section
/-! One step of the port (spec/00_scope.md R5, R7): what `step` answers for the event at the head of
the host's list, and the obligations about it. -/

namespace Sys2Proof.Proofs

open Machine

/-! ### The step, by the event at the head of the host's list -/

theorem step_of_idle {s : State} (h : s.input = []) : step s = .next s := by
  simp only [step, h, idle]

theorem step_of_event {s : State} {e : HostEvent} {es : List HostEvent} (h : s.input = e :: es) :
    step s = takeEvent e (s.setInput es) := by
  simp only [step, h]

theorem step_of_issue_ok {s : State} {c : CommandWord} {es : List HostEvent} {i : Instr}
    (h : s.input = .issue c :: es) (hd : decode c = .ok i) : step s = exec i (s.setInput es) :=
  (step_of_event h).trans (issueWord_ok hd _)

theorem step_of_write {s : State} {a : Nat} {b : Byte} {es : List HostEvent}
    (h : s.input = .write a b :: es) : step s = hostWrite a b (s.setInput es) :=
  step_of_event h

/-! ### A host write (R7, R60) -/

theorem hostWrite_present {s : State} {a : Nat} (h : a < s.cap.memSize) (b : Byte) :
    hostWrite a b s = .next (s.setMem (Memory.write s.mem a b)) :=
  if_pos h

theorem hostWrite_absent {s : State} {a : Nat} (h : s.cap.memSize ≤ a) (b : Byte) :
    hostWrite a b s = .fault (.absentAddress a) :=
  if_neg (Nat.not_lt.mpr h)

/-- One byte written is one byte stored: it reads back, and every other address reads as before. -/
theorem storedAt_write (m : Memory) (a : Nat) (b : Byte) :
    StoredAt m (Memory.write m a b) a 1 fun _ => b := by
  refine ⟨fun i hi => ?inside, fun x hx => ?outside⟩
  case inside =>
    obtain rfl : i = 0 := by omega
    exact Memory.read_write_same m a b
  case outside =>
    have hne : x ≠ a := by omega
    exact Memory.read_write_other m a x b hne

/-! ### The obligations -/

/-- Settles O8, clause by clause: no event, a write that lands, a write to an absent address. -/
theorem hostEventsBetweenCommands : Obligations.HostEventsBetweenCommands := by
  intro s es a b
  refine ⟨step_of_idle, fun h ha => ?present, fun h ha => ?absent⟩
  case present =>
    refine ⟨(s.setInput es).setMem (Memory.write s.mem a b), ?_, rfl, storedAt_write s.mem a b⟩
    exact (step_of_write h).trans (hostWrite_present (s := s.setInput es) ha b)
  case absent => exact (step_of_write h).trans (hostWrite_absent (s := s.setInput es) ha b)

/-- Settles O5: the word is taken from the port, decoded, and its command executed. -/
theorem stepRunsTheDecodedCommand : Obligations.StepRunsTheDecodedCommand :=
  fun _ _ _ _ => step_of_issue_ok

end Sys2Proof.Proofs
end

section
/-! What a command may write (spec/10_state.md R26, R28, R36, R37, R192), said once for all commands:
`exec_runs`. The rules over all commands and the invariant are read off it. -/

namespace Sys2Proof.Proofs

open Machine

/-! ### The writes of a command -/

/-- `Update i s u`: one write of a state element that command `i` may make in `s`, with the bound its
checks give the value written. -/
inductive Update (i : Instr) (s : State) : State → Prop
  | reg (rd : Reg) (v : Word) (hrd : rd ∈ i.destinations) : Update i s (s.setReg rd v)
  | acknowledge (hi : i = .clrerr) : Update i s s.acknowledge
  | range (b l : Nat) (hi : ∃ rs1 rs2, i = .bcSetrange rs1 rs2) (hbl : b + l ≤ s.cap.memSize) :
      Update i s (s.setRange b l)
  | pos (p : Nat) (hi : i.writesPos = true) (hp : p ≤ s.len) : Update i s (s.setPos p)
  | rbit (p : Nat) (hi : i.writesRbit = true) (hp : p ≤ 8 * s.len) : Update i s (s.setRbit p)
  /-- `BR.OPEN` checks nothing: its bound is that of `POS`. -/
  | rbitOfPos (hi : i = .brOpen) : Update i s (s.setRbit (8 * s.pos))
  | writer (c p : Nat) (hi : i.writesWriter = true) (hc : c < 8) (hp : p < 2 ^ c) :
      Update i s (s.setWriter c p)
  | bytes (off : Nat) (bs : List Byte) (hi : i.writesMem = true) (hfit : s.fits off bs.length) :
      Update i s (s.putBytes off bs)
  | lane (w : Nat) (hi : ∃ rs1 imm, i = .unpSel rs1 imm) (hw : w ≤ 32) : Update i s (s.setLane w)
  | block (w v d : Nat) (hi : ∃ rd, i = .unpHdr rd) (hw : w ≤ 32) (hd : d ≤ s.len) :
      Update i s (s.setBlock w v d)
  | udata (d : Nat) (hi : ∃ rs1 imm, i = .unpBase rs1 imm) (hd : d ≤ s.len) :
      Update i s (s.setUdata d)
  | count (n : Nat) (hi : ∃ rs1 imm, i = .unpCount rs1 imm) : Update i s (s.setCount n)
  | run (vs : List Nat) (hi : (∃ rs1 rs2, i = .unpRun rs1 rs2) ∨ ∃ rs1 rs2, i = .unpRunref rs1 rs2)
      (hvs : vs.length ≤ s.cap.ubufN) : Update i s (s.setRun vs)
  | acc (a : Nat) (hi : (∃ rd rd2, i = .hufDec rd rd2) ∨ ∃ rs1 imm, i = .hufAccset rs1 imm) :
      Update i s (s.setAcc a)
  | noTree (hi : ∃ rs1 rs2, i = .hufLoad rs1 rs2) : Update i s s.clearTree
  | tree (nn nl : Nat) (tab : Table) (hi : ∃ rs1 rs2, i = .hufLoad rs1 rs2)
      (hnn : nn ≤ s.cap.maxNodes) (hnl : nl ≤ s.cap.maxLeaves)
      (htab : s.readTable nn nl = some tab) : Update i s (s.setTree tab.nodes tab.leaves)

/-- The writes of a command, in order. -/
abbrev Writes (i : Instr) : State → State → Prop := Relation.ReflTransGen (Update i)

/-- `Runs i s o`: `o` is reached from `s` by writes of `i` and then the end of a command, with status 0
or with a fault that spec/60_exceptions.md R310 allows `i`. -/
inductive Runs (i : Instr) (s : State) : Out → Prop
  | ok {u : State} {v w : Word} (h : Writes i s u) : Runs i s (complete u v w)
  | fault {u : State} {st : Status} {v w : Word} (h : Writes i s u) (hst : st ∈ i.mayRaise) :
      Runs i s (raiseWith st v w u)

section Rules

variable {i : Instr} {s u : State}

theorem Runs.ite {c : Prop} [Decidable c] {a b : Out} (ht : c → Runs i s a) (hf : ¬c → Runs i s b) :
    Runs i s (if c then a else b) := by
  split
  · exact ht ‹_›
  · exact hf ‹_›

theorem Runs.raise {st : Status} (hst : st ∈ i.mayRaise) : Runs i s (raise st s) := .fault .refl hst

theorem Runs.deliver {rd : Reg} {v : Word} (h : Writes i s u) (hrd : rd ∈ i.destinations) :
    Runs i s (deliver rd v u) :=
  .ok (h.tail (.reg rd v hrd))

theorem Runs.deliverPair {rd rd2 : Reg} {v l : Nat} (h : Writes i s u) (hrd : rd ∈ i.destinations)
    (hrd2 : rd2 ∈ i.destinations) : Runs i s (deliverPair rd rd2 v l u) :=
  .ok ((h.tail (.reg rd _ hrd)).tail (.reg rd2 _ hrd2))

theorem Runs.failVar {rd2 : Reg} (hrd2 : rd2 ∈ i.destinations) (hc : .corruptData ∈ i.mayRaise) :
    Runs i s (failVar rd2 s) :=
  .fault (.single (.reg rd2 _ hrd2)) hc

/-! ### The shared operations -/

theorem getHere_runs {k : Nat} {rd : Reg} (hrd : rd ∈ i.destinations) (hp : i.writesPos = true)
    (hb : .outOfBounds ∈ i.mayRaise) : Runs i s (getHere k rd s) :=
  .ite (fun hfit => .deliver (.single (.pos _ hp hfit)) hrd) fun _ => .raise hb

theorem getAt_runs {k : Nat} {rd rs1 : Reg} {imm : Nat} (hrd : rd ∈ i.destinations)
    (hb : .outOfBounds ∈ i.mayRaise) : Runs i s (getAt k rd rs1 imm s) :=
  .ite (fun _ => .deliver .refl hrd) fun _ => .raise hb

/-- Bytes stored at `POS`, and `POS` moved behind them. -/
theorem writes_putBytes_setPos (bs : List Byte) (hm : i.writesMem = true) (hp : i.writesPos = true)
    (hfit : s.fits s.pos bs.length) :
    Writes i s ((s.putBytes s.pos bs).setPos (s.pos + bs.length)) :=
  .tail (.single (.bytes s.pos bs hm hfit)) (.pos _ hp hfit)

theorem putHere_runs {k : Nat} {rs2 : Reg} (hm : i.writesMem = true) (hp : i.writesPos = true)
    (hb : .outOfBounds ∈ i.mayRaise) : Runs i s (putHere k rs2 s) := by
  refine .ite (fun hfit => .ok ?_) fun _ => .raise hb
  have h := writes_putBytes_setPos (s := s) (leBytes k (s.regNat rs2)) hm hp
  rw [leBytes_length] at h
  exact h hfit

theorem putAt_runs {k : Nat} {rs2 rs1 : Reg} {imm : Nat} (hm : i.writesMem = true)
    (hb : .outOfBounds ∈ i.mayRaise) : Runs i s (putAt k rs2 rs1 imm s) := by
  refine .ite (fun hfit => .ok (.single (.bytes _ _ hm ?_))) fun _ => .raise hb
  rwa [leBytes_length]

theorem nextBits_runs {rd : Reg} {n : Nat} (hrd : rd ∈ i.destinations) (hr : i.writesRbit = true)
    (hb : .outOfBounds ∈ i.mayRaise) (hu : .unsupportedFeature ∈ i.mayRaise) :
    Runs i s (nextBits rd n s) :=
  .ite (fun _ => .ite (fun hfit => .deliver (.single (.rbit _ hr hfit)) hrd) fun _ => .raise hb)
    fun _ => .raise hu

theorem pushBits_runs {v n : Nat} (hm : i.writesMem = true) (hp : i.writesPos = true)
    (hw : i.writesWriter = true) (hb : .outOfBounds ∈ i.mayRaise)
    (hu : .unsupportedFeature ∈ i.mayRaise) : Runs i s (pushBits v n s) := by
  refine .ite (fun _ => .ite (fun hfit => .ok ?fits) fun _ => .raise hb) fun _ => .raise hu
  have h := writes_putBytes_setPos (s := s)
    (topBytes (s.pushed v n) (s.pushedBits n) (s.pushedBits n / 8)) hm hp
  rw [topBytes_length] at h
  exact (h hfit).tail (.writer _ _ hw (Nat.mod_lt _ (by decide)) (Nat.mod_lt _ (by positivity)))

theorem withField_runs {idx : Nat} {use : Nat → Out} (hc : .corruptData ∈ i.mayRaise)
    (hb : .outOfBounds ∈ i.mayRaise) (hu : .unsupportedFeature ∈ i.mayRaise)
    (huse : Runs i s (use (s.field idx))) : Runs i s (withField idx s use) :=
  .ite (fun _ => .raise hu) fun _ => .ite (fun _ => .raise hb) fun _ =>
    .ite (fun _ => huse) fun _ => .raise hc

theorem withRun_runs {first count : Nat} {use : List Nat → Out} (hc : .corruptData ∈ i.mayRaise)
    (hb : .outOfBounds ∈ i.mayRaise) (hu : .unsupportedFeature ∈ i.mayRaise)
    (huse : count ≤ s.cap.ubufN → Runs i s (use (s.fields first count))) :
    Runs i s (withRun first count s use) :=
  .ite (fun _ => .raise hu) fun _ => .ite (fun _ => .raise hb) fun hle =>
    .ite (fun _ => .raise hb) fun _ => .ite (fun _ => huse (Nat.le_of_not_lt hle)) fun _ => .raise hc

end Rules

/-! ### The commands with a form of their own -/

variable (s : State)

theorem execCsrr_runs (rd : Reg) (imm : Nat) : Runs (.csrr rd imm) s (execCsrr rd imm s) := by
  unfold execCsrr
  split
  · exact .deliver .refl (.head _)
  · exact .raise (.head _)

theorem execBcGetvar_runs (rd rd2 : Reg) : Runs (.bcGetvar rd rd2) s (execBcGetvar rd rd2 s) := by
  unfold execBcGetvar
  split
  · exact .failVar (.tail _ (.head _)) (.head _)
  next v l hdec =>
    have hfit : s.pos + l ≤ s.len := (s.decVar_bounds _ _ _ hdec).2.2
    exact .deliverPair (.single (.pos _ rfl hfit)) (.head _) (.tail _ (.head _))

theorem execBcGetvaro_runs (rd rd2 rs1 : Reg) (imm : Nat) :
    Runs (.bcGetvaro rd rd2 rs1 imm) s (execBcGetvaro rd rd2 rs1 imm s) := by
  unfold execBcGetvaro
  split
  · exact .failVar (.tail _ (.head _)) (.head _)
  · exact .deliverPair .refl (.head _) (.tail _ (.head _))

theorem execBcPutvar_runs (rd rs2 : Reg) : Runs (.bcPutvar rd rs2) s (execBcPutvar rd rs2 s) :=
  .ite (fun hfit => .deliver (writes_putBytes_setPos _ rfl rfl hfit) (.head _)) fun _ =>
    .raise (.head _)

theorem execBwFlush_runs : Runs .bwFlush s (execBwFlush s) :=
  .ite (fun _ => .ok .refl) fun _ => .ite
    (fun hfit => .ok ((writes_putBytes_setPos [s.flushByte] rfl rfl hfit).tail
      (.writer 0 0 rfl (by decide) (by decide))))
    fun _ => .raise (.head _)

theorem execUnpHdr_runs (rd : Reg) : Runs (.unpHdr rd) s (execUnpHdr rd s) := by
  have hcorrupt : Runs (.unpHdr rd) s (raise .corruptData s) := .raise (.head _)
  refine .ite (fun _ => .ite (fun hlane => ?_) fun _ => .raise (.tail _ (.head _))) fun _ => hcorrupt
  split
  · exact hcorrupt
  next v l hdec =>
    refine .ite (fun _ => .ite (fun hfit => ?_) fun _ => hcorrupt) fun _ => hcorrupt
    have hdata : s.pos + 1 + l ≤ s.len := (s.decVar_bounds _ _ _ hdec).2.2
    exact .deliver (.tail (.single (.block _ v _ ⟨rd, rfl⟩ hlane.2 hdata))
      (.pos _ rfl (show _ ≤ s.len by omega))) (.head _)

theorem execUnpGet_runs (rd rs1 : Reg) (imm : Nat) :
    Runs (.unpGet rd rs1 imm) s (execUnpGet rd rs1 imm s) :=
  withField_runs (.head _) (.tail _ (.head _)) (.tail _ (.tail _ (.head _)))
    (.deliver .refl (.head _))

theorem execUnpAt_runs (rd rs1 : Reg) (imm : Nat) :
    Runs (.unpAt rd rs1 imm) s (execUnpAt rd rs1 imm s) :=
  withField_runs (.head _) (.tail _ (.head _)) (.tail _ (.tail _ (.head _)))
    (.ite (fun _ => .deliver .refl (.head _)) fun _ => .raise (.head _))

theorem execUnpRun_runs (rs1 rs2 : Reg) : Runs (.unpRun rs1 rs2) s (execUnpRun rs1 rs2 s) :=
  withRun_runs (.head _) (.tail _ (.head _)) (.tail _ (.tail _ (.head _))) fun hle =>
    .ok (.single (.run _ (.inl ⟨rs1, rs2, rfl⟩) (by simpa using hle)))

theorem execUnpRunref_runs (rs1 rs2 : Reg) :
    Runs (.unpRunref rs1 rs2) s (execUnpRunref rs1 rs2 s) :=
  withRun_runs (.head _) (.tail _ (.head _)) (.tail _ (.tail _ (.head _))) fun hle =>
    .ite (fun _ => .ok (.single (.run _ (.inr ⟨rs1, rs2, rfl⟩) (by simpa using hle)))) fun _ =>
      .raise (.head _)

theorem execHufLoad_runs (rs1 rs2 : Reg) : Runs (.hufLoad rs1 rs2) s (execHufLoad rs1 rs2 s) := by
  refine .ite (fun hcap => ?_) fun _ => .raise (.tail _ (.head _))
  split
  · exact .fault (.single (.noTree ⟨rs1, rs2, rfl⟩)) (.head _)
  next tab htab =>
    have hafter : tab.after ≤ s.len := by
      obtain ⟨-, _, _, -, hend, -, -, -, hafter⟩ := State.readTable_cases htab
      omega
    exact .ok (.tail (.single (.tree _ _ tab ⟨rs1, rs2, rfl⟩ hcap.1 hcap.2 htab))
      (.pos _ rfl hafter))

theorem execHufDec_runs (rd rd2 : Reg) : Runs (.hufDec rd rd2) s (execHufDec rd rd2 s) := by
  refine .ite (fun _ => ?_) fun _ => .raise (.tail _ (.head _))
  split
  · exact .raise (.head _)
  next w hwalk =>
    have hbits : s.rbit + w.bits ≤ 8 * s.len := (State.walk_bounds hwalk).2.2.1
    exact .ite
      (fun _ => .deliverPair
        (.tail (.single (.rbit _ rfl hbits)) (.acc _ (.inl ⟨rd, rd2, rfl⟩))) (.head _)
        (.tail _ (.head _)))
      fun _ => .raise (.head _)

/-! ### Every command -/

/-- Every command makes only its own writes, each within its bound, and ends with a response. -/
theorem exec_runs (i : Instr) : Runs i s (exec i s) := by
  cases i with
  | nop => exact .ok .refl
  | li | lih | mov => exact .deliver .refl (.head _)
  | csrr rd imm => exact execCsrr_runs s rd imm
  | clrerr => exact .ok (.single (.acknowledge rfl))
  | bcSetrange rs1 rs2 =>
    exact .ite (fun hle => .ok (.single (.range _ _ ⟨rs1, rs2, rfl⟩ hle))) fun _ => .raise (.head _)
  | bcSeek => exact .ite (fun hle => .ok (.single (.pos _ rfl hle))) fun _ => .raise (.head _)
  | bcReset => exact .ok (.single (.pos 0 rfl (Nat.zero_le _)))
  | bcGet8 | bcGet16 | bcGet32 | bcGet64 => exact getHere_runs (.head _) rfl (.head _)
  | bcGeto8 | bcGeto16 | bcGeto32 | bcGeto64 => exact getAt_runs (.head _) (.head _)
  | bcPut8 | bcPut16 | bcPut32 | bcPut64 => exact putHere_runs rfl rfl (.head _)
  | bcPuto8 | bcPuto16 | bcPuto32 | bcPuto64 => exact putAt_runs rfl (.head _)
  | bcGetvar rd rd2 => exact execBcGetvar_runs s rd rd2
  | bcGetvaro rd rd2 rs1 imm => exact execBcGetvaro_runs s rd rd2 rs1 imm
  | bcPutvar rd rs2 => exact execBcPutvar_runs s rd rs2
  | brOpen => exact .ok (.single (.rbitOfPos rfl))
  | brSeek => exact .ite (fun hle => .ok (.single (.rbit _ rfl hle))) fun _ => .raise (.head _)
  | brNext | brNextv => exact nextBits_runs (.head _) rfl (.head _) (.tail _ (.head _))
  | brHasnext => exact .deliver .refl (.head _)
  | bwPush | bwPushv => exact pushBits_runs rfl rfl rfl (.head _) (.tail _ (.head _))
  | bwFlush => exact execBwFlush_runs s
  | unpSel rs1 imm =>
    exact .ite (fun hw => .ok (.single (.lane _ ⟨rs1, imm, rfl⟩ hw.2))) fun _ => .raise (.head _)
  | unpBase rs1 imm =>
    exact .ite (fun hle => .ok (.single (.udata _ ⟨rs1, imm, rfl⟩ hle))) fun _ => .raise (.head _)
  | unpCount rs1 imm =>
    exact .ite (fun _ => .ok (.single (.count _ ⟨rs1, imm, rfl⟩))) fun _ => .raise (.head _)
  | unpGet rd rs1 imm => exact execUnpGet_runs s rd rs1 imm
  | unpHdr rd => exact execUnpHdr_runs s rd
  | unpAt rd rs1 imm => exact execUnpAt_runs s rd rs1 imm
  | unpRun rs1 rs2 => exact execUnpRun_runs s rs1 rs2
  | unpRunref rs1 rs2 => exact execUnpRunref_runs s rs1 rs2
  | unpRd | unpMinw => exact .ite (fun _ => .deliver .refl (.head _)) fun _ => .raise (.head _)
  | hufLoad rs1 rs2 => exact execHufLoad_runs s rs1 rs2
  | hufDec rd rd2 => exact execHufDec_runs s rd rd2
  | hufAccset rs1 imm =>
    exact .ite (fun _ => .ok (.single (.acc _ (.inr ⟨rs1, imm, rfl⟩)))) fun _ => .raise (.head _)

end Sys2Proof.Proofs
end

section
/-! The rules over all commands (spec/10_state.md R21, R22, R25, R26, R28), read off `exec_runs`. -/

namespace Sys2Proof.Proofs

open Machine

/-! ### From the writes of a command to its next state -/

section Next

variable {i : Instr} {s t u : State}

theorem Writes.keeps {α : Type} (f : State → α) (hf : ∀ {x y}, Update i x y → f y = f x)
    (h : Writes i s u) : f u = f s := by
  induction h with
  | refl => rfl
  | tail _ hxy ih => exact (hf hxy).trans ih

/-- The next state of a command: its writes, then the sticky error, `SEQ` and the response. -/
theorem exec_next (h : exec i s = .next t) :
    ∃ u e q r, Writes i s u ∧ t = { u with err := e, eseq := q, seq := u.seq + 1, resp := r } := by
  cases h ▸ exec_runs s i with
  | ok hw => exact ⟨_, _, _, _, hw, rfl⟩
  | @fault u st v w hw _ =>
    refine ⟨u, (u.recordError st).err, (u.recordError st).eseq, some ⟨st, v, w⟩, hw, ?_⟩
    unfold State.recordError
    split <;> rfl

/-- An element that no write of the command touches, and the end of a command neither, is kept. -/
theorem exec_keeps {α : Type} (f : State → α) (hf : ∀ {x y}, Update i x y → f y = f x)
    (h : exec i s = .next t)
    (hend : ∀ (x : State) e q n r,
      f { x with err := e, eseq := q, seq := n, resp := r } = f x := by intros; rfl) :
    f t = f s := by
  obtain ⟨u, e, q, r, hw, rfl⟩ := exec_next h
  exact (hend u e q _ r).trans (hw.keeps f hf)

end Next

/-! ### Which writes touch an element

Each lemma names the writes that touch the element; all others keep it by definition. -/

namespace Update

variable {i : Instr} {s u : State}

theorem reg_eq {r : Reg} (h : Update i s u) (hr : r ∉ i.destinations) : u.reg r = s.reg r := by
  cases h with
  | reg rd v hrd => exact State.reg_setReg_other _ _ _ _ fun h => hr (h ▸ hrd)
  | _ => rfl

theorem seq_eq (h : Update i s u) : u.seq = s.seq := by cases h <;> rfl

theorem cap_eq (h : Update i s u) : u.cap = s.cap := by cases h <;> rfl

theorem range_eq (h : Update i s u) (hi : ∀ rs1 rs2, i ≠ .bcSetrange rs1 rs2) :
    (u.base, u.len) = (s.base, s.len) := by
  cases h with
  | range _ _ hw => obtain ⟨rs1, rs2, hw⟩ := hw; exact absurd hw (hi rs1 rs2)
  | _ => rfl

theorem pos_eq (h : Update i s u) (hi : i.writesPos = false) : u.pos = s.pos := by
  cases h with
  | range _ _ hw => obtain ⟨_, _, rfl⟩ := hw; cases hi
  | pos _ hw => cases hi.symm.trans hw
  | _ => rfl

theorem rbit_eq (h : Update i s u) (hi : i.writesRbit = false) : u.rbit = s.rbit := by
  cases h with
  | range _ _ hw => obtain ⟨_, _, rfl⟩ := hw; cases hi
  | rbit _ hw => cases hi.symm.trans hw
  | rbitOfPos hw => cases hw; cases hi
  | _ => rfl

theorem writer_eq (h : Update i s u) (hi : i.writesWriter = false) :
    (u.wcnt, u.wpend) = (s.wcnt, s.wpend) := by
  cases h with
  | writer _ _ hw => cases hi.symm.trans hw
  | _ => rfl

theorem mem_eq (h : Update i s u) (hi : i.writesMem = false) : u.mem = s.mem := by
  cases h with
  | bytes _ _ hw => cases hi.symm.trans hw
  | _ => rfl

theorem uw_eq (h : Update i s u) (hsel : ∀ rs1 imm, i ≠ .unpSel rs1 imm)
    (hhdr : ∀ rd, i ≠ .unpHdr rd) : u.uw = s.uw := by
  cases h with
  | lane _ hw => obtain ⟨rs1, imm, hw⟩ := hw; exact absurd hw (hsel rs1 imm)
  | block _ _ _ hw => obtain ⟨rd, hw⟩ := hw; exact absurd hw (hhdr rd)
  | _ => rfl

theorem uref_eq (h : Update i s u) (hhdr : ∀ rd, i ≠ .unpHdr rd) : u.uref = s.uref := by
  cases h with
  | block _ _ _ hw => obtain ⟨rd, hw⟩ := hw; exact absurd hw (hhdr rd)
  | _ => rfl

theorem udata_eq (h : Update i s u) (hbase : ∀ rs1 imm, i ≠ .unpBase rs1 imm)
    (hhdr : ∀ rd, i ≠ .unpHdr rd) : u.udata = s.udata := by
  cases h with
  | udata _ hw => obtain ⟨rs1, imm, hw⟩ := hw; exact absurd hw (hbase rs1 imm)
  | block _ _ _ hw => obtain ⟨rd, hw⟩ := hw; exact absurd hw (hhdr rd)
  | _ => rfl

theorem un_eq (h : Update i s u) (hi : ∀ rs1 imm, i ≠ .unpCount rs1 imm) : u.un = s.un := by
  cases h with
  | count _ hw => obtain ⟨rs1, imm, hw⟩ := hw; exact absurd hw (hi rs1 imm)
  | _ => rfl

theorem buffer_eq (h : Update i s u) (hrun : ∀ rs1 rs2, i ≠ .unpRun rs1 rs2)
    (hrunref : ∀ rs1 rs2, i ≠ .unpRunref rs1 rs2) : (u.ucnt, u.ubuf) = (s.ucnt, s.ubuf) := by
  cases h with
  | run _ hw =>
    obtain ⟨rs1, rs2, hw⟩ | ⟨rs1, rs2, hw⟩ := hw
    · exact absurd hw (hrun rs1 rs2)
    · exact absurd hw (hrunref rs1 rs2)
  | _ => rfl

theorem hacc_eq (h : Update i s u) (hdec : ∀ rd rd2, i ≠ .hufDec rd rd2)
    (hset : ∀ rs1 imm, i ≠ .hufAccset rs1 imm) : u.hacc = s.hacc := by
  cases h with
  | acc _ hw =>
    obtain ⟨rd, rd2, hw⟩ | ⟨rs1, imm, hw⟩ := hw
    · exact absurd hw (hdec rd rd2)
    · exact absurd hw (hset rs1 imm)
  | _ => rfl

theorem tree_eq (h : Update i s u) (hi : ∀ rs1 rs2, i ≠ .hufLoad rs1 rs2) :
    (u.hvalid, u.hnn, u.hnl, u.hn, u.hl) = (s.hvalid, s.hnn, s.hnl, s.hn, s.hl) := by
  cases h with
  | noTree hw => obtain ⟨rs1, rs2, hw⟩ := hw; exact absurd hw (hi rs1 rs2)
  | tree _ _ _ hw => obtain ⟨rs1, rs2, hw⟩ := hw; exact absurd hw (hi rs1 rs2)
  | _ => rfl

end Update

/-! ### The obligations -/

/-- Settles O23: one column of R28 after the other. -/
theorem onlyTheNamedCommandsWrite : Obligations.OnlyTheNamedCommandsWrite := by
  intro i s t h
  refine ⟨fun hi => ?range, fun hi => ?pos, fun hi => ?rbit, fun hi => ?writer, fun hi => ?mem,
    fun hsel hhdr => ?uw, fun hhdr => ?uref, fun hbase hhdr => ?udata, fun hi => ?un,
    fun hrun hrunref => ?buffer, fun hdec hset => ?hacc, fun hi => ?tree, ?cap⟩
  case range =>
    simpa using exec_keeps (fun x => (x.base, x.len)) (fun hu => hu.range_eq hi) h
  case pos => exact exec_keeps State.pos (fun hu => hu.pos_eq hi) h
  case rbit => exact exec_keeps State.rbit (fun hu => hu.rbit_eq hi) h
  case writer =>
    simpa using exec_keeps (fun x => (x.wcnt, x.wpend)) (fun hu => hu.writer_eq hi) h
  case mem => exact exec_keeps State.mem (fun hu => hu.mem_eq hi) h
  case uw => exact exec_keeps State.uw (fun hu => hu.uw_eq hsel hhdr) h
  case uref => exact exec_keeps State.uref (fun hu => hu.uref_eq hhdr) h
  case udata => exact exec_keeps State.udata (fun hu => hu.udata_eq hbase hhdr) h
  case un => exact exec_keeps State.un (fun hu => hu.un_eq hi) h
  case buffer =>
    simpa using exec_keeps (fun x => (x.ucnt, x.ubuf)) (fun hu => hu.buffer_eq hrun hrunref) h
  case hacc => exact exec_keeps State.hacc (fun hu => hu.hacc_eq hdec hset) h
  case tree =>
    simpa using exec_keeps (fun x => (x.hvalid, x.hnn, x.hnl, x.hn, x.hl))
      (fun hu => hu.tree_eq hi) h
  case cap => exact exec_keeps State.cap Update.cap_eq h

/-- Settles O24: only a write of a destination touches the registers. -/
theorem onlyDestinationsAreWritten : Obligations.OnlyDestinationsAreWritten :=
  fun _ _ t r h => ⟨fun hr => exec_keeps (·.reg r) (fun hu => hu.reg_eq hr) h, t.reg_x0⟩

theorem exec_seq {i : Instr} {s t : State} (h : exec i s = .next t) : t.seq = s.seq + 1 := by
  obtain ⟨u, e, q, r, hw, rfl⟩ := exec_next h
  exact congrArg (· + 1) (hw.keeps State.seq Update.seq_eq)

theorem issue_seq {s t : State} {c : CommandWord} {es : List HostEvent}
    (hin : s.input = .issue c :: es) (h : step s = .next t) : t.seq = s.seq + 1 := by
  rw [step_of_event hin] at h
  cases hd : decode c with
  | ok i => exact exec_seq (s := s.setInput es) ((issueWord_ok hd _).symm.trans h)
  | error e => cases (issueWord_error hd (s.setInput es)).symm.trans h; rfl

theorem toNat_succ_of_eq {a b : BitVec 64} (h : b = a + 1) : b.toNat = (a.toNat + 1) % 2 ^ 64 := by
  rw [h, BitVec.toNat_add]; rfl

/-- Settles O17: every end of a command adds one to `SEQ`; no write of a command touches it. -/
theorem seqCountsEveryCommand : Obligations.SeqCountsEveryCommand := by
  refine ⟨rfl, fun i s t h => ?command, fun s t c es hin h => ?word, fun s t a b es hin h => ?write,
    fun rd s => ?csrr⟩
  case command => exact toNat_succ_of_eq (exec_seq h)
  case word => exact toNat_succ_of_eq (issue_seq hin h)
  case write =>
    rw [step_of_write hin] at h
    obtain ⟨-, rfl⟩ := hostWrite_cases h
    rfl
  case csrr => rfl

/-- Settles O25: the register written, every other, `x0`. -/
theorem registerReadsTheLatestWrite : Obligations.RegisterReadsTheLatestWrite := by
  intro f r q v
  refine ⟨?_, f.read_x0, f.write_x0 v⟩
  by_cases hq : q = r
  · subst hq
    by_cases h0 : q = .x0
    · subst h0; rfl
    · rw [if_pos ⟨rfl, h0⟩, f.read_write_same q v h0]
  · rw [if_neg fun h => hq h.1, f.read_write_other r q v hq]

/-- Settles O10: every register and each of the CSRs 0 to 15, from the values of `State.powerUp`. -/
theorem resetStateHoldsTheResetValues : Obligations.ResetStateHoldsTheResetValues :=
  ⟨fun r => by cases r <;> rfl, by decide, rfl, rfl⟩

end Sys2Proof.Proofs
end

section
/-! The invariant of spec/10_state.md R28 and R45 and spec/44_huffman.md R271: each write of a command
keeps it, so every step and every run does. -/

namespace Sys2Proof.Proofs

open Machine

/-! ### What a table load leaves (spec/44_huffman.md R270, R271) -/

/-- A node entry points inside `nn` nodes and the leaf records `leaves` (R271); `State.NodeInv` says it
of the tables of a state (`nodeInv_setTree`). -/
def PointsInside (nn : Nat) (leaves : List LeafEntry) (e : NodeEntry) : Prop :=
  if e.bl = 0 then 1 ≤ e.ptr.toNat ∧ e.ptr.toNat + 1 < nn
  else ∃ f, leaves[e.ptr.toNat]? = some f ∧ f.clen.toNat = e.bl.toNat

section Tree

variable {recs rs : List NodeRecord} {r : NodeRecord} {e : NodeEntry} {ns es : List NodeEntry}
  {leaves : List LeafEntry} {s : State} {nn nl k : Nat} {tab : Table}

theorem resolveNode_pointsInside (hrecs : recs.length < 2 ^ 32) (hleaves : leaves.length < 2 ^ 32)
    (h : resolveNode recs leaves r = some e) : PointsInside recs.length leaves e := by
  obtain ⟨-, c, -, h1, hc, rfl⟩ | ⟨hbl, f, hf, hclen, rfl⟩ := resolveNode_cases h
  · have hptr : (BitVec.ofNat 32 c).toNat = c := Nat.mod_eq_of_lt (by omega)
    simpa [PointsInside, -BitVec.toNat_ofNat, hptr] using And.intro h1 hc
  · have hlt : r.ptr < leaves.length := (List.getElem?_eq_some_iff.1 hf).1
    have hptr : (BitVec.ofNat 32 r.ptr).toNat = r.ptr := Nat.mod_eq_of_lt (by omega)
    rw [PointsInside, if_neg hbl, hptr]
    exact ⟨f, hf, hclen⟩

/-- Each resolved entry comes from the record of the same number. -/
theorem resolveNodes_getElem? (h : resolveNodes recs leaves rs = some es) (hk : es[k]? = some e) :
    ∃ r, rs[k]? = some r ∧ resolveNode recs leaves r = some e := by
  have hall := (resolveNodes_iff _ _ _ _).1 h
  obtain ⟨hlt, rfl⟩ := List.getElem?_eq_some_iff.1 hk
  have hlt' : k < rs.length := hall.length_eq ▸ hlt
  exact ⟨rs[k], List.getElem?_eq_getElem hlt', hall.get hlt' hlt⟩

theorem readTable_lengths (h : s.readTable nn nl = some tab) :
    tab.nodes.length = nn ∧ tab.leaves.length = nl := by
  obtain ⟨-, recs, l, hrecs, -, -, hleaves, hnodes, -⟩ := State.readTable_cases h
  have hlen := ((resolveNodes_iff _ _ _ _).1 hnodes).length_eq
  exact ⟨hlen ▸ ((s.nodeRecords_iff ..).1 hrecs).1, by simp [hleaves]⟩

/-- Every entry of a table that was read points inside it. -/
theorem readTable_pointsInside (h : s.readTable nn nl = some tab) (hnn : nn < 2 ^ 32)
    (hnl : nl < 2 ^ 32) (hk : tab.nodes[k]? = some e) : PointsInside nn tab.leaves e := by
  obtain ⟨-, recs, l, hrecs, -, -, -, hnodes, -⟩ := State.readTable_cases h
  obtain ⟨r, -, hr⟩ := resolveNodes_getElem? hnodes hk
  have hlen : recs.length = nn := ((s.nodeRecords_iff ..).1 hrecs).1
  have hin := resolveNode_pointsInside (hlen ▸ hnn) ((readTable_lengths h).2 ▸ hnl) hr
  rwa [hlen] at hin

theorem readTable_root (h : s.readTable nn nl = some tab) (he : tab.nodes[0]? = some e) :
    e.bl = 0 := by
  obtain ⟨-, recs, l, -, -, hroot, -, hnodes, -⟩ := State.readTable_cases h
  obtain ⟨r, hr0, hr⟩ := resolveNodes_getElem? hnodes he
  have hbl : r.bl = 0 := by
    cases recs with
    | nil => cases hr0
    | cons q qs => cases hr0; exact eq_of_beq hroot
  obtain ⟨-, c, -, -, -, rfl⟩ | ⟨hne, -⟩ := resolveNode_cases hr
  · rfl
  · exact absurd hbl hne

theorem node_setTree (hk : ns[k]? = some e) : (s.setTree ns leaves).node k = e := by
  have hlt : k < ns.length := (List.getElem?_eq_some_iff.1 hk).1
  simp [State.node, List.getElem?_append_left hlt, hk]

theorem leaf_setTree {f : LeafEntry} (hk : leaves[k]? = some f) :
    (s.setTree ns leaves).leaf k = f := by
  have hlt : k < leaves.length := (List.getElem?_eq_some_iff.1 hk).1
  simp [State.leaf, List.getElem?_append_left hlt, hk]

theorem nodeInv_setTree (hns : ns.length < 2 ^ 32) (hls : leaves.length < 2 ^ 32)
    (hk : ns[k]? = some e) (he : PointsInside ns.length leaves e) :
    (s.setTree ns leaves).NodeInv k := by
  have hhnn : (s.setTree ns leaves).hnn.toNat = ns.length := Nat.mod_eq_of_lt hns
  have hhnl : (s.setTree ns leaves).hnl.toNat = leaves.length := Nat.mod_eq_of_lt hls
  unfold State.NodeInv
  rw [node_setTree hk, hhnn, hhnl]
  unfold PointsInside at he
  split at he
  next hbl => rwa [if_pos hbl]
  next hbl =>
    obtain ⟨f, hf, hclen⟩ := he
    rw [if_neg hbl, leaf_setTree hf]
    exact ⟨(List.getElem?_eq_some_iff.1 hf).1, hclen⟩

/-- The commit of `HUF.LOAD` establishes what R271 says of a loaded tree. -/
theorem loadedTree_setTree (hcap : s.cap.Legal) (hnn : nn ≤ s.cap.maxNodes)
    (hnl : nl ≤ s.cap.maxLeaves) (h : s.readTable nn nl = some tab) :
    (s.setTree tab.nodes tab.leaves).LoadedTree := by
  obtain ⟨-, -, ⟨-, hmaxn⟩, -, hmaxl⟩ := hcap
  obtain ⟨h3, -⟩ := State.readTable_cases h
  obtain ⟨hlenn, hlenl⟩ := readTable_lengths h
  have hns : tab.nodes.length < 2 ^ 32 := by omega
  have hls : tab.leaves.length < 2 ^ 32 := by omega
  have hhnn : (s.setTree tab.nodes tab.leaves).hnn.toNat = nn :=
    (Nat.mod_eq_of_lt hns).trans hlenn
  have hhnl : (s.setTree tab.nodes tab.leaves).hnl.toNat = nl :=
    (Nat.mod_eq_of_lt hls).trans hlenl
  have hentry : ∀ k < nn, ∃ e, tab.nodes[k]? = some e := fun k hk =>
    ⟨_, List.getElem?_eq_getElem (hlenn ▸ hk)⟩
  refine ⟨⟨by omega, hhnn ▸ hnn⟩, hhnl ▸ hnl, ?root, fun k hk => ?node⟩
  case root =>
    obtain ⟨e, he⟩ := hentry 0 (by omega)
    rw [node_setTree he]
    exact readTable_root h he
  case node =>
    obtain ⟨e, he⟩ := hentry k (hhnn ▸ hk)
    refine nodeInv_setTree hns hls he ?_
    rw [hlenn]
    exact readTable_pointsInside h (by omega) (by omega) he

end Tree

/-! ### Each write keeps each part of the invariant -/

namespace Update

variable {i : Instr} {s u : State}

theorem cursorInv (h : Update i s u) (hs : s.CursorInv) : u.CursorInv := by
  obtain ⟨hrange, hpos, hrbit⟩ := hs
  cases h with
  | range b l _ hbl => exact ⟨hbl, Nat.zero_le _, Nat.zero_le _⟩
  | pos p _ hp => exact ⟨hrange, hp, hrbit⟩
  | rbit p _ hp => exact ⟨hrange, hpos, hp⟩
  | rbitOfPos => exact ⟨hrange, hpos, Nat.mul_le_mul_left 8 hpos⟩
  | _ => exact ⟨hrange, hpos, hrbit⟩

theorem writerInv (h : Update i s u) (hs : s.WriterInv) : u.WriterInv := by
  cases h with
  | writer c p _ hc hp =>
    have hcnt : (BitVec.ofNat 3 c).toNat = c := Nat.mod_eq_of_lt hc
    change (BitVec.ofNat 7 p).toNat < 2 ^ (BitVec.ofNat 3 c).toNat
    rw [hcnt]
    exact (Nat.mod_le ..).trans_lt hp
  | _ => exact hs

theorem errorInv (h : Update i s u) (hs : s.ErrorInv) : u.ErrorInv := by
  cases h with
  | acknowledge => exact ⟨nofun, fun _ => rfl⟩
  | _ => exact hs

theorem unpackerInv (h : Update i s u) (hc : s.CursorInv) (hs : s.UnpackerInv) :
    u.UnpackerInv := by
  obtain ⟨huw, hudata, hucnt, hubuf⟩ := hs
  have hlen : s.len ≤ s.cap.memSize := by omega
  cases h with
  | lane w _ hw => exact ⟨(Nat.mod_le ..).trans hw, hudata, hucnt, hubuf⟩
  | block w v d _ hw hd =>
    exact ⟨(Nat.mod_le ..).trans hw, hd.trans hlen, hucnt, hubuf⟩
  | udata d _ hd => exact ⟨huw, hd.trans hlen, hucnt, hubuf⟩
  | run vs _ hvs =>
    refine ⟨huw, hudata, (Nat.mod_le ..).trans hvs, ?_⟩
    simp only [State.setRun_ubuf, State.setRun_cap, List.length_append, List.length_map,
      List.length_drop, hubuf]
    omega
  | _ => exact ⟨huw, hudata, hucnt, hubuf⟩

theorem treeInv (h : Update i s u) (hcap : s.cap.Legal) (hs : s.TreeInv) : u.TreeInv := by
  cases h with
  | noTree =>
    obtain ⟨⟨hhn, hhl⟩, -, -⟩ := hs
    exact ⟨⟨by simpa using hhn, by simpa using hhl⟩, nofun, fun _ => ⟨rfl, rfl⟩⟩
  | tree nn nl tab _ hnn hnl htab =>
    obtain ⟨⟨hhn, hhl⟩, -, -⟩ := hs
    obtain ⟨hlenn, hlenl⟩ := readTable_lengths htab
    refine ⟨⟨?_, ?_⟩, fun _ => loadedTree_setTree hcap hnn hnl htab, nofun⟩
    · simp only [State.setTree_hn, State.setTree_cap, List.length_append, List.length_drop]
      omega
    · simp only [State.setTree_hl, State.setTree_cap, List.length_append, List.length_drop]
      omega
  | _ => exact hs

theorem memInv (h : Update i s u) (hc : s.CursorInv) (hs : s.MemInv) : u.MemInv := by
  cases h with
  | bytes off bs _ hfit =>
    obtain ⟨hwf, haddr⟩ := hs
    refine ⟨Memory.wf_writeBytes bs _ _ hwf, fun c hmem => ?_⟩
    rcases Memory.mem_writeBytes bs _ _ c hmem with hold | ⟨-, hlt⟩
    · exact haddr c hold
    · change c.1 < s.cap.memSize
      omega
  | _ => exact hs

theorem inv (h : Update i s u) (hs : s.Inv) : u.Inv := by
  obtain ⟨hcap, hcursor, hwriter, herror, hunpacker, htree, hmem⟩ := hs
  exact ⟨h.cap_eq ▸ hcap, h.cursorInv hcursor, h.writerInv hwriter, h.errorInv herror,
    h.unpackerInv hcursor hunpacker, h.treeInv hcap htree, h.memInv hcursor hmem⟩

end Update

theorem Writes.inv {i : Instr} {s u : State} (h : Writes i s u) (hs : s.Inv) : u.Inv := by
  induction h with
  | refl => exact hs
  | tail _ hxy ih => exact hxy.inv ih

/-! ### Every step keeps the invariant -/

theorem recordError_inv {s : State} {st : Status} (hs : s.Inv) (hok : st ≠ .ok)
    (h4 : st ≠ .unimplementedOperation) : (s.recordError st).Inv := by
  obtain ⟨hcap, hcursor, hwriter, herror, hrest⟩ := hs
  unfold State.recordError
  split
  · exact ⟨hcap, hcursor, hwriter, ⟨h4, fun h => absurd h hok⟩, hrest⟩
  · exact ⟨hcap, hcursor, hwriter, herror, hrest⟩

theorem finish_inv {s : State} (hs : s.Inv) (st : Status) (v w : Word) : (s.finish st v w).Inv := hs

theorem setInput_inv {s : State} (hs : s.Inv) (es : List HostEvent) : (s.setInput es).Inv := hs

theorem ok_notMem_mayRaise (i : Instr) : Status.ok ∉ i.mayRaise := by
  cases i <;> simp [Instr.mayRaise]

/-- Code 4 is never raised (R303). -/
theorem unimplementedOperation_notMem_mayRaise (i : Instr) :
    Status.unimplementedOperation ∉ i.mayRaise := by
  cases i <;> simp [Instr.mayRaise]

theorem exec_inv {i : Instr} {s t : State} (hs : s.Inv) (h : exec i s = .next t) : t.Inv := by
  cases h ▸ exec_runs s i with
  | ok hw => exact finish_inv (hw.inv hs) ..
  | fault hw hst =>
    have hok := ne_of_mem_of_not_mem hst (ok_notMem_mayRaise i)
    have h4 := ne_of_mem_of_not_mem hst (unimplementedOperation_notMem_mayRaise i)
    exact finish_inv (recordError_inv (hw.inv hs) hok h4) ..

theorem faultState_inv {s : State} {st : Status} (hs : s.Inv) (hok : st ≠ .ok)
    (h4 : st ≠ .unimplementedOperation) : (faultState s st).Inv :=
  s.recordError_finish st ▸ finish_inv (recordError_inv hs hok h4) ..

theorem setMem_write_inv {s : State} {a : Nat} (b : Byte) (hs : s.Inv) (ha : a < s.cap.memSize) :
    (s.setMem (Memory.write s.mem a b)).Inv := by
  obtain ⟨hcap, hcursor, hwriter, herror, hunpacker, htree, hwf, haddr⟩ := hs
  refine ⟨hcap, hcursor, hwriter, herror, hunpacker, htree, Memory.wf_write _ _ _ hwf,
    fun c hc => ?_⟩
  rcases Memory.mem_write _ _ _ c hc with hold | heq
  · exact haddr c hold
  · exact heq ▸ ha

theorem powerUp_inv {cap : Capacities} {mem : Memory} (input : List HostEvent) (hcap : cap.Legal)
    (hwf : Memory.wf mem = true) (haddr : ∀ c ∈ mem, c.1 < cap.memSize) :
    (State.powerUp cap mem input).Inv := by
  refine ⟨hcap, ?cursor, ?writer, ?error, ?unpacker, ?tree, hwf, haddr⟩
  case cursor => exact ⟨Nat.zero_le _, Nat.le_refl _, Nat.le_refl _⟩
  case writer => exact Nat.one_pos
  case error => exact ⟨nofun, fun _ => rfl⟩
  case unpacker =>
    exact ⟨Nat.zero_le _, Nat.zero_le _, Nat.zero_le _, List.length_replicate⟩
  case tree =>
    exact ⟨⟨List.length_replicate, List.length_replicate⟩, nofun, fun _ => ⟨rfl, rfl⟩⟩

/-- Settles O11: a command word, an illegal word, a host write, a reset, and no event at all. -/
theorem stepKeepsTheInvariant : Obligations.StepKeepsTheInvariant := by
  intro s t hs h
  obtain ⟨-, rfl⟩ | ⟨c, es, i, -, -, hexec⟩ | ⟨c, es, e, -, -, rfl⟩ | ⟨a, b, es, -, ha, rfl⟩ |
    ⟨es, -, rfl⟩ := step_cases h
  · exact hs
  · exact exec_inv (setInput_inv hs es) hexec
  · exact faultState_inv (setInput_inv hs es) nofun nofun
  · exact setMem_write_inv b (setInput_inv hs es) ha
  · obtain ⟨hcap, -, -, -, -, -, hwf, haddr⟩ := hs
    exact powerUp_inv es hcap hwf haddr

/-! ### Every run keeps the invariant -/

/-- What every step keeps, every run keeps. -/
theorem runSteps_keeps {P : State → Prop} (hstep : ∀ s t, P s → step s = .next t → P t) {k : Nat}
    {s t : State} (hs : P s) (h : runSteps k s = .next t) : P t := by
  induction k generalizing s with
  | zero => cases h; exact hs
  | succ k ih =>
    unfold runSteps at h
    split at h
    next u hu => exact ih (hstep s u hs hu) h
    next hne => exact absurd h (hne t)

/-- Settles O13: from the state after reset, by `runSteps_keeps`. -/
theorem reachableStatesSatisfyTheInvariant : Obligations.ReachableStatesSatisfyTheInvariant :=
  fun _ _ input _ _ hcap hwf haddr =>
    runSteps_keeps stepKeepsTheInvariant (powerUp_inv input hcap hwf haddr)

/-- Settles O12: the capacities of `Config.capacities` are legal and `MEM` lists nothing. -/
theorem resetSatisfiesTheInvariant : Obligations.ResetSatisfiesTheInvariant :=
  powerUp_inv [] (by decide) rfl nofun

end Sys2Proof.Proofs
end

section
/-! The byte range under stores (spec/20_memory.md R60, R62): what every write of a command
keeps, the whole command and the step keep. -/

namespace Sys2Proof.Proofs

open Machine

section Preserves

variable {i : Instr} {s t u : State} {P : State → Prop}

theorem Writes.preserves (hP : ∀ {x y}, Update i x y → P x → P y) (h : Writes i s u) (hs : P s) :
    P u := by
  induction h with
  | refl => exact hs
  | tail _ hxy ih => exact hP hxy ih

/-- What every write of the command keeps, and the end of a command too, the command keeps. -/
theorem exec_preserves (hP : ∀ {x y}, Update i x y → P x → P y)
    (hend : ∀ (x : State) e q n r, P x → P { x with err := e, eseq := q, seq := n, resp := r })
    (hs : P s) (h : exec i s = .next t) : P t := by
  obtain ⟨u, e, q, r, hw, rfl⟩ := exec_next h
  exact hend u e q _ r (hw.preserves hP hs)

end Preserves

/-! ### Stores (R62) -/

/-- Address `a` lies outside the byte range of `x`, and its byte is that of `m`. -/
abbrev KeepsOutside (m : Memory) (a : Nat) (x : State) : Prop :=
  (a < x.base ∨ x.base + x.len ≤ a) ∧ Memory.read x.mem a = Memory.read m a

/-- A command that leaves the byte range in place stores inside it only: each store was checked. -/
theorem Update.keepsOutside {i : Instr} {x y : State} {m : Memory} {a : Nat}
    (hi : ∀ rs1 rs2, i ≠ .bcSetrange rs1 rs2) (h : Update i x y) (hx : KeepsOutside m a x) :
    KeepsOutside m a y := by
  obtain ⟨hout, hread⟩ := hx
  cases h with
  | range _ _ hw => obtain ⟨rs1, rs2, hw⟩ := hw; exact absurd hw (hi rs1 rs2)
  | bytes off bs _ hfit =>
    have hbeyond : a < x.base + off ∨ x.base + off + bs.length ≤ a := by omega
    exact ⟨hout, (Memory.read_writeBytes_outside bs x.mem _ a hbeyond).trans hread⟩
  | _ => exact ⟨hout, hread⟩

/-- Settles O21: a command stores nothing, or it leaves the byte range in place and
`Update.keepsOutside` holds of each of its writes. -/
theorem storesStayInTheByteRange : Obligations.StoresStayInTheByteRange := by
  intro i s t a h hout
  cases hi : i.writesMem with
  | false =>
    have hmem : t.mem = s.mem := exec_keeps State.mem (fun hu => hu.mem_eq hi) h
    rw [hmem]
  | true =>
    have hrange : ∀ rs1 rs2, i ≠ .bcSetrange rs1 rs2 := by rintro _ _ rfl; cases hi
    have hkeeps : KeepsOutside s.mem a t :=
      exec_preserves (Update.keepsOutside hrange) (fun _ _ _ _ _ hx => hx) ⟨hout, rfl⟩ h
    exact hkeeps.2

/-! ### The canonical form (R60) -/

theorem Update.mem_wf {i : Instr} {x y : State} (h : Update i x y) (hx : Memory.wf x.mem = true) :
    Memory.wf y.mem = true := by
  cases h with
  | bytes _ bs => exact Memory.wf_writeBytes bs _ _ hx
  | _ => exact hx

/-- Settles O14: a command word, an illegal word, a host write, a reset, and no event at all. -/
theorem memoryStaysCanonical : Obligations.MemoryStaysCanonical := by
  intro s t hs h
  obtain ⟨-, rfl⟩ | ⟨c, es, i, -, -, hexec⟩ | ⟨c, es, e, -, -, rfl⟩ | ⟨a, b, es, -, -, rfl⟩ |
    ⟨es, -, rfl⟩ := step_cases h
  · exact hs
  · exact exec_preserves (P := fun x => Memory.wf x.mem = true) Update.mem_wf
      (fun _ _ _ _ _ hx => hx) (s := s.setInput es) hs hexec
  · exact hs
  · exact Memory.wf_write _ a b hs
  · exact hs

end Sys2Proof.Proofs
end

section
/-! The byte range under loads (spec/20_memory.md R61, R62): a command run on two memories that
agree inside the byte range ends in states that differ in `MEM` only, and there outside the range
only. -/

namespace Sys2Proof.Proofs

open Machine

/-! ### Memories that agree in a range, and outcomes that do -/

/-- The memories agree at the `l` addresses from `b`. -/
def AgreeIn (b l : Nat) (m m' : Memory) : Prop :=
  ∀ off < l, Memory.read m' (b + off) = Memory.read m (b + off)

/-- The same bytes stored at the same place in both: where they agreed, they still do. -/
theorem AgreeIn.writeBytes {b l : Nat} {m m' : Memory} (h : AgreeIn b l m m') (a : Nat)
    (bs : List Byte) : AgreeIn b l (Memory.writeBytes m a bs) (Memory.writeBytes m' a bs) := by
  intro off hoff
  rw [Memory.read_writeBytes, Memory.read_writeBytes, h off hoff]

/-- The sticky error does not depend on `MEM`. -/
theorem recordError_setMem (s : State) (m : Memory) (st : Status) :
    (s.setMem m).recordError st = (s.recordError st).setMem m := by
  by_cases herr : s.err = .ok <;> simp [State.recordError, State.setMem, herr]

/-- Two next states that differ in `MEM` only, and agree on it at the `l` addresses from `b`. -/
inductive Alike (b l : Nat) : Out → Out → Prop
  | next {t : State} {m : Memory} (h : AgreeIn b l t.mem m) :
      Alike b l (.next t) (.next (t.setMem m))

namespace Alike

variable {b l : Nat} {u : State} {m : Memory}

theorem ite {c : Prop} [Decidable c] {o₁ o₁' o₂ o₂' : Out} (ht : c → Alike b l o₁ o₁')
    (hf : ¬c → Alike b l o₂ o₂') : Alike b l (if c then o₁ else o₂) (if c then o₁' else o₂') := by
  split
  · exact ht ‹_›
  · exact hf ‹_›

theorem complete (h : AgreeIn b l u.mem m) (v w : Word) :
    Alike b l (complete u v w) (complete (u.setMem m) v w) :=
  .next (t := u.finish .ok v w) h

theorem deliver (h : AgreeIn b l u.mem m) (rd : Reg) (v : Word) :
    Alike b l (deliver rd v u) (deliver rd v (u.setMem m)) :=
  complete (u := u.setReg rd v) h v 0

theorem deliverPair (h : AgreeIn b l u.mem m) (rd rd2 : Reg) (v k : Nat) :
    Alike b l (deliverPair rd rd2 v k u) (deliverPair rd rd2 v k (u.setMem m)) :=
  complete (u := (u.setReg rd _).setReg rd2 _) h _ _

theorem raiseWith (h : AgreeIn b l u.mem m) (st : Status) (v w : Word) :
    Alike b l (raiseWith st v w u) (raiseWith st v w (u.setMem m)) := by
  unfold Machine.raiseWith
  rw [recordError_setMem]
  exact .next (t := (u.recordError st).finish st v w) (by simpa using h)

theorem raise (h : AgreeIn b l u.mem m) (st : Status) :
    Alike b l (raise st u) (raise st (u.setMem m)) :=
  raiseWith h st 0 0

theorem failVar (h : AgreeIn b l u.mem m) (rd2 : Reg) :
    Alike b l (failVar rd2 u) (failVar rd2 (u.setMem m)) :=
  raiseWith (u := u.setReg rd2 sentinel) h .corruptData 0 sentinel

end Alike

section Loads

variable {s : State} {m : Memory} (hm : AgreeIn s.base s.len s.mem m)
include hm

/-! ### The reads, each inside the byte range -/

theorem rb_setMem : ∀ off < s.len, (s.setMem m).rb off = s.rb off := hm

theorem le_setMem {k off : Nat} (hfit : s.fits off k) : (s.setMem m).le k off = s.le k off :=
  s.le_congr _ k off off fun _ hi => rb_setMem hm _ (by omega)

theorem sbits_setMem {p n : Nat} (hfit : s.bitsFit p n) :
    (s.setMem m).sbits p n = s.sbits p n :=
  s.sbits_congr_bytes _ p n s.len hfit (rb_setMem hm)

theorem field_setMem {idx : Nat} (hfit : s.fieldBit (idx + 1) ≤ 8 * s.len) :
    (s.setMem m).field idx = s.field idx := by
  have hend : s.fieldBit (idx + 1) = s.fieldBit idx + s.uw.toNat := by
    unfold State.fieldBit; ring
  exact sbits_setMem hm (hend.ge.trans hfit)

theorem fields_setMem {first count : Nat}
    (hfit : count = 0 ∨ s.fieldBit (first + count) ≤ 8 * s.len) :
    (s.setMem m).fields first count = s.fields first count := by
  refine List.map_congr_left fun k hk => field_setMem hm ?_
  have hk : k < count := List.mem_range.1 hk
  have hmono : s.fieldBit (first + k + 1) ≤ s.fieldBit (first + count) :=
    Nat.add_le_add_left (Nat.mul_le_mul_right _ (by omega)) _
  omega

theorem decVar_setMem (off : Nat) : (s.setMem m).decVar off = s.decVar off :=
  s.decVar_congr _ off rfl (rb_setMem hm)

theorem readTable_setMem (nn nl : Nat) : (s.setMem m).readTable nn nl = s.readTable nn nl :=
  s.readTable_congr _ nn nl rfl rfl (rb_setMem hm)

theorem decodeSymbol_setMem : (s.setMem m).decodeSymbol = s.decodeSymbol :=
  s.walk_congr _ s.rbit _ 0 0 rfl fun _ _ =>
    ⟨Iff.rfl, fun hj => s.sbit_congr _ _ (rb_setMem hm _ (by omega))⟩

/-! ### The shared operations -/

theorem getHere_alike (k : Nat) (rd : Reg) :
    Alike s.base s.len (getHere k rd s) (getHere k rd (s.setMem m)) := by
  refine .ite (fun hfit => ?_) fun _ => .raise hm _
  rw [State.setMem_pos, le_setMem hm hfit]
  exact .deliver (u := s.setPos (s.pos + k)) hm rd _

theorem getAt_alike (k : Nat) (rd rs1 : Reg) (imm : Nat) :
    Alike s.base s.len (getAt k rd rs1 imm s) (getAt k rd rs1 imm (s.setMem m)) := by
  refine .ite (fun hfit => ?_) fun _ => .raise hm _
  have hle : (s.setMem m).le k ((s.setMem m).effective rs1 imm) = s.le k (s.effective rs1 imm) :=
    le_setMem hm hfit
  rw [hle]
  exact .deliver hm rd _

theorem putHere_alike (k : Nat) (rs2 : Reg) :
    Alike s.base s.len (putHere k rs2 s) (putHere k rs2 (s.setMem m)) :=
  .ite (fun _ => .complete
      (u := (s.putBytes s.pos (leBytes k (s.regNat rs2))).setPos (s.pos + k))
      (hm.writeBytes _ _) 0 0)
    fun _ => .raise hm _

theorem putAt_alike (k : Nat) (rs2 rs1 : Reg) (imm : Nat) :
    Alike s.base s.len (putAt k rs2 rs1 imm s) (putAt k rs2 rs1 imm (s.setMem m)) :=
  .ite (fun _ => .complete
      (u := s.putBytes (s.effective rs1 imm) (leBytes k (s.regNat rs2))) (hm.writeBytes _ _) 0 0)
    fun _ => .raise hm _

theorem nextBits_alike (rd : Reg) (n : Nat) :
    Alike s.base s.len (nextBits rd n s) (nextBits rd n (s.setMem m)) := by
  refine .ite (fun _ => .ite (fun hfit => ?_) fun _ => .raise hm _) fun _ => .raise hm _
  rw [State.setMem_rbit, sbits_setMem hm hfit]
  exact .deliver (u := s.setRbit (s.rbit + n)) hm rd _

theorem pushBits_alike (v n : Nat) :
    Alike s.base s.len (pushBits v n s) (pushBits v n (s.setMem m)) :=
  .ite (fun _ => .ite (fun _ => .complete (u := s.push v n) (hm.writeBytes _ _) 0 0)
    fun _ => .raise hm _) fun _ => .raise hm _

theorem withField_alike {idx : Nat} {use use' : Nat → Out}
    (huse : ∀ f, Alike s.base s.len (use f) (use' f)) :
    Alike s.base s.len (withField idx s use) (withField idx (s.setMem m) use') := by
  refine .ite (fun _ => .raise hm _) fun _ => .ite (fun _ => .raise hm _) fun _ =>
    .ite (fun hfit => ?_) fun _ => .raise hm _
  rw [field_setMem hm hfit]
  exact huse _

theorem withRun_alike {first count : Nat} {use use' : List Nat → Out}
    (huse : ∀ fs, Alike s.base s.len (use fs) (use' fs)) :
    Alike s.base s.len (withRun first count s use) (withRun first count (s.setMem m) use') := by
  refine .ite (fun _ => .raise hm _) fun _ => .ite (fun _ => .raise hm _) fun _ =>
    .ite (fun _ => .raise hm _) fun _ => .ite (fun hfit => ?_) fun _ => .raise hm _
  rw [fields_setMem hm hfit]
  exact huse _

/-! ### The commands with a form of their own -/

theorem execCsrr_alike (rd : Reg) (imm : Nat) :
    Alike s.base s.len (execCsrr rd imm s) (execCsrr rd imm (s.setMem m)) := by
  have hcsr : (s.setMem m).csr imm = s.csr imm := rfl
  unfold execCsrr
  rw [hcsr]
  split
  · exact .deliver hm rd _
  · exact .raise hm _

theorem execBcGetvar_alike (rd rd2 : Reg) :
    Alike s.base s.len (execBcGetvar rd rd2 s) (execBcGetvar rd rd2 (s.setMem m)) := by
  unfold execBcGetvar
  rw [State.setMem_pos, decVar_setMem hm]
  split
  · exact .failVar hm rd2
  next v l _ => exact .deliverPair (u := s.setPos (s.pos + l)) hm rd rd2 v l

theorem execBcGetvaro_alike (rd rd2 rs1 : Reg) (imm : Nat) :
    Alike s.base s.len (execBcGetvaro rd rd2 rs1 imm s)
      (execBcGetvaro rd rd2 rs1 imm (s.setMem m)) := by
  have hdec : (s.setMem m).decVar ((s.setMem m).effective rs1 imm) =
      s.decVar (s.effective rs1 imm) := decVar_setMem hm _
  unfold execBcGetvaro
  rw [hdec]
  split
  · exact .failVar hm rd2
  next v l _ => exact .deliverPair hm rd rd2 v l

theorem execBcPutvar_alike (rd rs2 : Reg) :
    Alike s.base s.len (execBcPutvar rd rs2 s) (execBcPutvar rd rs2 (s.setMem m)) :=
  .ite (fun _ => .deliver
      (u := (s.putBytes s.pos (encVar (s.regNat rs2))).setPos
        (s.pos + (encVar (s.regNat rs2)).length)) (hm.writeBytes _ _) rd _)
    fun _ => .raise hm _

theorem execBwFlush_alike : Alike s.base s.len (execBwFlush s) (execBwFlush (s.setMem m)) :=
  .ite (fun _ => .complete hm 0 0) fun _ => .ite
    (fun _ => .complete (u := ((s.putBytes s.pos [s.flushByte]).setPos (s.pos + 1)).setWriter 0 0)
      (hm.writeBytes _ _) 0 0)
    fun _ => .raise hm _

theorem execUnpHdr_alike (rd : Reg) :
    Alike s.base s.len (execUnpHdr rd s) (execUnpHdr rd (s.setMem m)) := by
  refine .ite (fun hpos => ?_) fun _ => .raise hm _
  rw [State.setMem_pos, rb_setMem hm _ hpos]
  refine .ite (fun _ => ?_) fun _ => .raise hm _
  rw [decVar_setMem hm]
  split
  · exact .raise hm _
  next v l _ =>
    exact .ite (fun _ => .ite
        (fun _ => .deliver
          (u := (s.setBlock (s.rb s.pos).toNat v (s.pos + 1 + l)).setPos
            (s.pos + 1 + l + s.payload (s.rb s.pos).toNat)) hm rd _)
        fun _ => .raise hm _)
      fun _ => .raise hm _

theorem execUnpAt_alike (rd rs1 : Reg) (imm : Nat) :
    Alike s.base s.len (execUnpAt rd rs1 imm s) (execUnpAt rd rs1 imm (s.setMem m)) :=
  withField_alike hm fun _ => .ite (fun _ => .deliver hm rd _) fun _ => .raise hm _

theorem execUnpRunref_alike (rs1 rs2 : Reg) :
    Alike s.base s.len (execUnpRunref rs1 rs2 s) (execUnpRunref rs1 rs2 (s.setMem m)) :=
  withRun_alike hm fun fs => .ite
    (fun _ => .complete (u := s.setRun (fs.map fun f => s.uref.toNat + f)) hm 0 0)
    fun _ => .raise hm _

theorem execHufLoad_alike (rs1 rs2 : Reg) :
    Alike s.base s.len (execHufLoad rs1 rs2 s) (execHufLoad rs1 rs2 (s.setMem m)) := by
  refine .ite (fun _ => ?_) fun _ => .raise hm _
  have htab : (s.setMem m).readTable ((s.setMem m).regNat rs1) ((s.setMem m).regNat rs2) =
      s.readTable (s.regNat rs1) (s.regNat rs2) := readTable_setMem hm _ _
  rw [htab]
  split
  · exact .raise (u := s.clearTree) hm _
  next tab _ =>
    exact .complete (u := (s.setTree tab.nodes tab.leaves).setPos tab.after) hm 0 0

theorem execHufDec_alike (rd rd2 : Reg) :
    Alike s.base s.len (execHufDec rd rd2 s) (execHufDec rd rd2 (s.setMem m)) := by
  refine .ite (fun _ => ?_) fun _ => .raise hm _
  rw [decodeSymbol_setMem hm]
  split
  · exact .raise hm _
  next w _ =>
    exact .ite
      (fun _ => .deliverPair
        (u := (s.setRbit (s.rbit + w.bits)).setAcc (s.hacc.toNat + s.symbolValue w)) hm rd rd2 _ _)
      fun _ => .raise hm _

/-! ### Every command -/

/-- Every command runs alike on two memories that agree inside the byte range it begins with. -/
theorem exec_alike (i : Instr) : Alike s.base s.len (exec i s) (exec i (s.setMem m)) := by
  cases i with
  | nop => exact .complete hm 0 0
  | li rd | lih rd | mov rd => exact .deliver hm rd _
  | csrr rd imm => exact execCsrr_alike hm rd imm
  | clrerr => exact .complete (u := s.acknowledge) hm 0 0
  | bcSetrange rs1 rs2 =>
    exact .ite (fun _ => .complete (u := s.setRange (s.regNat rs1) (s.regNat rs2)) hm 0 0)
      fun _ => .raise hm _
  | bcSeek rs1 imm =>
    exact .ite (fun _ => .complete (u := s.setPos (s.effective rs1 imm)) hm 0 0)
      fun _ => .raise hm _
  | bcReset => exact .complete (u := s.setPos 0) hm 0 0
  | bcGet8 rd | bcGet16 rd | bcGet32 rd | bcGet64 rd => exact getHere_alike hm _ rd
  | bcGeto8 rd rs1 imm | bcGeto16 rd rs1 imm | bcGeto32 rd rs1 imm | bcGeto64 rd rs1 imm =>
    exact getAt_alike hm _ rd rs1 imm
  | bcPut8 rs2 | bcPut16 rs2 | bcPut32 rs2 | bcPut64 rs2 => exact putHere_alike hm _ rs2
  | bcPuto8 rs2 rs1 imm | bcPuto16 rs2 rs1 imm | bcPuto32 rs2 rs1 imm | bcPuto64 rs2 rs1 imm =>
    exact putAt_alike hm _ rs2 rs1 imm
  | bcGetvar rd rd2 => exact execBcGetvar_alike hm rd rd2
  | bcGetvaro rd rd2 rs1 imm => exact execBcGetvaro_alike hm rd rd2 rs1 imm
  | bcPutvar rd rs2 => exact execBcPutvar_alike hm rd rs2
  | brOpen => exact .complete (u := s.setRbit (8 * s.pos)) hm 0 0
  | brSeek rs1 imm =>
    exact .ite (fun _ => .complete (u := s.setRbit (s.effective rs1 imm)) hm 0 0)
      fun _ => .raise hm _
  | brNext rd n => exact nextBits_alike hm rd n
  | brNextv rd rs1 => exact nextBits_alike hm rd (s.regNat rs1)
  | brHasnext rd => exact .deliver hm rd _
  | bwPush rs2 n => exact pushBits_alike hm (s.regNat rs2) n
  | bwPushv rs2 rs1 => exact pushBits_alike hm (s.regNat rs2) (s.regNat rs1)
  | bwFlush => exact execBwFlush_alike hm
  | unpSel rs1 imm =>
    exact .ite (fun _ => .complete (u := s.setLane (s.effective rs1 imm)) hm 0 0)
      fun _ => .raise hm _
  | unpBase rs1 imm =>
    exact .ite (fun _ => .complete (u := s.setUdata (s.effective rs1 imm)) hm 0 0)
      fun _ => .raise hm _
  | unpCount rs1 imm =>
    exact .ite (fun _ => .complete (u := s.setCount (s.effective rs1 imm)) hm 0 0)
      fun _ => .raise hm _
  | unpGet rd rs1 imm => exact withField_alike hm fun f => .deliver hm rd (BitVec.ofNat 64 f)
  | unpHdr rd => exact execUnpHdr_alike hm rd
  | unpAt rd rs1 imm => exact execUnpAt_alike hm rd rs1 imm
  | unpRun rs1 rs2 => exact withRun_alike hm fun fs => .complete (u := s.setRun fs) hm 0 0
  | unpRunref rs1 rs2 => exact execUnpRunref_alike hm rs1 rs2
  | unpRd rd | unpMinw rd => exact .ite (fun _ => .deliver hm rd _) fun _ => .raise hm _
  | hufLoad rs1 rs2 => exact execHufLoad_alike hm rs1 rs2
  | hufDec rd rd2 => exact execHufDec_alike hm rd rd2
  | hufAccset rs1 imm =>
    exact .ite (fun _ => .complete (u := s.setAcc (s.effective rs1 imm)) hm 0 0)
      fun _ => .raise hm _

end Loads

/-- Settles O22, by `exec_alike`. -/
theorem loadsStayInTheByteRange : Obligations.LoadsStayInTheByteRange := by
  intro i s t m hm h
  have halike : Alike s.base s.len (exec i s) (exec i (s.setMem m)) := exec_alike hm i
  generalize ho : exec i (s.setMem m) = o at halike
  rw [h] at halike
  obtain ⟨hagree⟩ := halike
  exact ⟨_, ho, hagree⟩

end Sys2Proof.Proofs
end

section
/-! What a load delivers (spec/20_memory.md R64 to R68): the bytes of a value stored before, in
place, and the sum of the stream bits, split anywhere. -/

namespace Sys2Proof.Proofs

open Machine

/-! ### Integers (R64, R65) -/

/-- The sum over bytes that are those of `v` from byte `d` on is that part of `v`. -/
theorem leSum_of_bytes {t : State} {k off v d n : Nat}
    (h : ∀ i < n, t.rb (off + i) = BitVec.ofNat 8 (v / 2 ^ (8 * (d + i)) % 256)) :
    t.leSum k off n = v / 2 ^ (8 * d) % 2 ^ (8 * n) := by
  induction n with
  | zero => simp [State.leSum, Nat.mod_one]
  | succ n ih =>
    have hbyte : (t.rb (off + n)).toNat = v / 2 ^ (8 * d) / 2 ^ (8 * n) % 256 := by
      rw [h n (by omega), Nat.div_div_eq_div_mul, ← pow_add, ← mul_add]
      simp
    have hpow : 2 ^ (8 * (n + 1)) = 2 ^ (8 * n) * 256 := pow_add 2 (8 * n) 8
    rw [State.leSum, ih fun i hi => h i (by omega), byteWeight_eq, hbyte, hpow, Nat.mod_mul,
      Nat.mul_comm (2 ^ (8 * n))]

/-- After a put of `k` bytes of `v`, the `j` bytes from byte `d` of them are that part of `v`. -/
theorem le_putBytes (s : State) {o k v d j : Nat} (hd : d + j ≤ k) :
    (s.putBytes o (leBytes k v)).le j (o + d) = v / 2 ^ (8 * d) % 2 ^ (8 * j) := by
  refine leSum_of_bytes fun i hi => ?_
  have hlt : d + i < (leBytes k v).length := by rw [leBytes_length]; omega
  have haddr : s.base + (o + d + i) = s.base + o + (d + i) := by ring
  calc (s.putBytes o (leBytes k v)).rb (o + d + i)
      = Memory.read (Memory.writeBytes s.mem (s.base + o) (leBytes k v))
          (s.base + (o + d + i)) := rfl
    _ = (leBytes k v)[d + i] := by rw [haddr, Memory.read_writeBytes_inside _ _ _ _ hlt]
    _ = BitVec.ofNat 8 (v / 2 ^ (8 * (d + i)) % 256) := leBytes_getElem ..

/-- A get of `j` bytes, `d` bytes behind the offset of a put of `k` bytes that ended with status 0,
delivers that part of the value put. -/
theorem getAt_after_putAt {s t : State} {rs1 rs2 : Reg} {k j d imm : Nat} (rd : Reg)
    (h : putAt k rs2 rs1 imm s = .next t) (hok : t.Ended .ok) (hd : d + j ≤ k) :
    ∃ u, getAt j rd rs1 (imm + d) t = .next u ∧ u.resp =
      some ⟨.ok, BitVec.ofNat 64 ((s.reg rs2).toNat / 2 ^ (8 * d) % 2 ^ (8 * j)), 0⟩ := by
  obtain ⟨hfit, ht⟩ | ⟨-, rfl⟩ := putAt_cases h
  · have heff : t.effective rs1 (imm + d) = s.effective rs1 imm + d := by
      rw [ht]
      exact (Nat.add_assoc ..).symm
    have hget : t.fits (t.effective rs1 (imm + d)) j := by
      rw [heff, ht]
      change s.effective rs1 imm + d + j ≤ s.len
      omega
    have hle : t.le j (s.effective rs1 imm + d) =
        (s.reg rs2).toNat / 2 ^ (8 * d) % 2 ^ (8 * j) := by
      rw [ht, ← le_putBytes s hd]
      exact State.le_congr _ _ _ _ _ fun _ _ => rfl
    refine ⟨_, if_pos hget, ?_⟩
    rw [heff, hle]
    rfl
  · obtain ⟨v, w, hresp⟩ := hok
    cases hresp

/-- Settles O35: each get is `getAt_after_putAt` at its own place in the value stored. -/
theorem getAfterPutReadsTheBytes : Obligations.GetAfterPutReadsTheBytes := by
  intro s t rd rs1 rs2 imm
  refine ⟨fun h hok => ⟨?whole64, fun j hj => ?byte⟩, fun h hok => ⟨?whole32, ?middle⟩⟩
  case whole64 =>
    change ∃ u, getAt 8 rd rs1 imm t = .next u ∧ _
    simpa [Nat.mod_eq_of_lt (s.reg rs2).isLt] using
      getAt_after_putAt (d := 0) (j := 8) rd h hok (by omega)
  case byte => exact getAt_after_putAt (j := 1) rd h hok (by omega)
  case whole32 =>
    change ∃ u, getAt 4 rd rs1 imm t = .next u ∧ _
    simpa using getAt_after_putAt (d := 0) (j := 4) rd h hok (by omega)
  case middle => exact getAt_after_putAt (d := 1) (j := 2) rd h hok (by omega)

/-! ### The bit stream (R66, R67) -/

/-- The bits gathered one by one are the sum of R67: a further bit doubles the weight of every
other. -/
theorem sbits_eq_bitsSpec (s : State) (p n : Nat) : s.sbits p n = s.bitsSpec p n := by
  induction n with
  | zero => rfl
  | succ n ih =>
    have hweight : ∀ i ∈ Finset.range n, s.bitSpec (p + i) * 2 ^ (n + 1 - 1 - i) =
        s.bitSpec (p + i) * 2 ^ (n - 1 - i) * 2 := by
      intro i hi
      have hi : i < n := Finset.mem_range.1 hi
      rw [show n + 1 - 1 - i = n - 1 - i + 1 by omega, pow_succ, mul_assoc]
    have hlast : s.bitSpec (p + n) * 2 ^ (n + 1 - 1 - n) = s.sbit (p + n) := by
      rw [Nat.add_sub_cancel, Nat.sub_self, pow_zero, mul_one]; rfl
    rw [State.bitsSpec, Finset.sum_range_succ, hlast, Finset.sum_congr rfl hweight,
      ← Finset.sum_mul, State.sbits, ih]
    rfl

theorem sbits_add (s : State) (p a b : Nat) :
    s.sbits p (a + b) = s.sbits p a * 2 ^ b + s.sbits (p + a) b := by
  induction b with
  | zero => simp [State.sbits]
  | succ b ih =>
    rw [← Nat.add_assoc, State.sbits, State.sbits, ih, Nat.add_assoc p, pow_succ]
    ring

/-- Settles O42: the sum is the model's read, which is below `2 ^ a` and splits. -/
theorem bitReadsSplit : Obligations.BitReadsSplit := by
  intro s p a b
  simp only [← sbits_eq_bitsSpec]
  exact ⟨trivial, s.sbits_lt p a, sbits_add s p a b⟩

end Sys2Proof.Proofs
end

section
/-! The command word (spec/30_encoding.md R91 to R97): the decoder is the opcode map of R96 with the
checks of R93, the encoder is its inverse, and the masks and matches of R93 are the same checks. Then
the words that are no command (R97) and the constants `LI64` builds (R101). -/

namespace Sys2Proof.Proofs

open Machine

/-! ### The decoder's checks (R93) -/

theorem decode_eq_ok_iff {c : CommandWord} {i : Instr} :
    decode c = .ok i ↔ ∃ fmt, decodeOp (fieldsOf c) = some (fmt, i) ∧ (fieldsOf c).z = 0 ∧
      fmt.unusedZero (fieldsOf c) = true := by
  unfold decode
  cases hop : decodeOp (fieldsOf c) with
  | none => simp
  | some p =>
    obtain ⟨fmt, j⟩ := p
    by_cases hz : (fieldsOf c).z = 0 <;> by_cases hu : fmt.unusedZero (fieldsOf c) = true <;>
      simp [hz, hu]

theorem exists_error_of_ne_ok {c : CommandWord} (h : ∀ i, decode c ≠ .ok i) :
    ∃ e, decode c = .error e := by
  cases hd : decode c with
  | ok i => exact absurd hd (h i)
  | error e => exact ⟨e, rfl⟩

/-! ### The encoder's fields (R92, R96) -/

/-- The opcode map reads a command's own fields as that command, in a format whose unused fields the
encoder leaves 0. -/
theorem decodeOp_fields (i : Instr) :
    ∃ fmt, decodeOp i.fields = some (fmt, i) ∧ i.fields.z = 0 ∧ fmt.unusedZero i.fields = true := by
  -- `whnf` picks the one arm of the opcode map; rewriting would walk past all arms before it.
  cases i
  all_goals
    conv in decodeOp _ => whnf
    simp only [Instr.fields, Reg.ofNum_num]
    exact ⟨_, rfl, trivial, rfl⟩

theorem wellFormed_of_fields_fit {i : Instr} (h : i.fields.Fit) : i.WellFormed := by
  have himm : immFits i.fields.imm = true := decide_eq_true h.imm
  have hn : countFits i.fields.n = true := decide_eq_true h.n
  cases i <;> simp only [Instr.WellFormed, Instr.wellFormed] <;> assumption

/-- The fields a format uses, and 0 for every other. -/
def usedFields (fmt : Format) (f : Fields) : Fields where
  op := f.op
  rd := if fmt.usesRd then f.rd else 0
  rs1 := if fmt.usesRs1 then f.rs1 else 0
  rs2 := if fmt.usesRs2 then f.rs2 else 0
  n := if fmt.usesN then f.n else 0
  imm := if fmt.usesImm then f.imm else 0

theorem usedFields_eq_self {fmt : Format} {f : Fields} (hz : f.z = 0)
    (hu : fmt.unusedZero f = true) : usedFields fmt f = f := by
  simp only [Format.unusedZero, Bool.and_eq_true, Bool.or_eq_true, beq_iff_eq] at hu
  obtain ⟨⟨⟨⟨hrd, hrs1⟩, hrs2⟩, hn⟩, himm⟩ := hu
  have keep : ∀ {u : Bool} {x : Nat}, u = true ∨ x = 0 → (if u then x else 0) = x := by
    rintro u x (rfl | rfl) <;> simp
  rw [usedFields, keep hrd, keep hrs1, keep hrs2, keep hn, keep himm, ← hz]

/-- The command the opcode map reads has exactly the fields its format uses. -/
theorem fields_of_decodeOp {f : Fields} {fmt : Format} {i : Instr} (hf : f.Fit)
    (h : decodeOp f = some (fmt, i)) : i.fields = usedFields fmt f := by
  have hrd := Reg.num_ofNum f.rd hf.rd
  have hrs1 := Reg.num_ofNum f.rs1 hf.rs1
  have hrs2 := Reg.num_ofNum f.rs2 hf.rs2
  unfold decodeOp at h
  split at h <;> rename_i hop <;> cases h <;>
    simp only [Instr.fields, usedFields, hrd, hrs1, hrs2, hop] <;> rfl

/-! ### The two round trips -/

/-- Settles O1: the fields survive assembly, and the opcode map reads them as the command. -/
theorem decodeInvertsEncode : Obligations.DecodeInvertsEncode := by
  intro i hi
  have hfields : fieldsOf (encode i) = i.fields := fieldsOf_assemble _ (i.fields_fit hi)
  rw [decode_eq_ok_iff, hfields]
  exact decodeOp_fields i

/-- Settles O2: no unused field is set, so the command's fields are all the fields of the word. -/
theorem encodeInvertsDecode : Obligations.EncodeInvertsDecode := by
  intro c i h
  obtain ⟨fmt, hop, hz, hu⟩ := decode_eq_ok_iff.1 h
  have hfields : i.fields = fieldsOf c :=
    (fields_of_decodeOp (fieldsOf_fit c) hop).trans (usedFields_eq_self hz hu)
  refine ⟨wellFormed_of_fields_fit (hfields ▸ fieldsOf_fit c), ?_⟩
  rw [encode, hfields, assemble_fieldsOf]

/-! ### The opcode map as a table (R96) -/

/-- The row of an opcode, `none` for a reserved one (R97). -/
def rowOf (op : Nat) : Option OpcodeRow := opcodeMap.find? (·.op == op)

theorem rowOf_eq_some_iff {op : Nat} {r : OpcodeRow} :
    rowOf op = some r ↔ r ∈ opcodeMap ∧ r.op = op := by
  constructor
  · intro h
    exact ⟨List.mem_of_find?_eq_some h, by simpa using List.find?_some h⟩
  · have hself : ∀ r ∈ opcodeMap, rowOf r.op = some r := by decide
    rintro ⟨hr, rfl⟩
    exact hself r hr

theorem eq_of_mnemonic_eq {r r' : OpcodeRow} (hr : r ∈ opcodeMap) (hr' : r' ∈ opcodeMap)
    (h : r.mnemonic = r'.mnemonic) : r = r' :=
  List.inj_on_of_nodup_map (f := OpcodeRow.mnemonic) (by decide) hr hr' h

/-- The decoder's match and the rows of R96 are the same map. -/
theorem decodeOp_row (f : Fields) :
    (decodeOp f).map (fun p => (⟨f.op, mnemonicOf p.2, p.1⟩ : OpcodeRow)) = rowOf f.op := by
  unfold decodeOp
  split
  case h_50 =>
    have hne : ∀ r ∈ opcodeMap, r.op ≠ f.op := by
      simp only [opcodeMap, commonRows, byteGetRows, bytePutRows, bitRows, unpackRows, huffmanRows,
        List.flatten_cons, List.flatten_nil, List.cons_append, List.nil_append,
        List.forall_mem_cons, List.not_mem_nil, false_imp_iff, implies_true, and_true, ne_eq,
        eq_comm (b := f.op)]
      and_intros <;> assumption
    rw [Option.map_none, eq_comm, rowOf, List.find?_eq_none]
    simpa using hne
  all_goals
    rename_i hop
    rw [hop]
    rfl

theorem exists_decodeOp_of_mem {f : Fields} {r : OpcodeRow} (hr : r ∈ opcodeMap)
    (hop : r.op = f.op) : ∃ i, decodeOp f = some (r.format, i) := by
  have hrow := (decodeOp_row f).trans (rowOf_eq_some_iff.2 ⟨hr, hop⟩)
  obtain ⟨⟨fmt, i⟩, hi, rfl⟩ := Option.map_eq_some_iff.1 hrow
  exact ⟨i, hi⟩

theorem row_mem_of_decodeOp {f : Fields} {fmt : Format} {i : Instr}
    (h : decodeOp f = some (fmt, i)) : ⟨f.op, mnemonicOf i, fmt⟩ ∈ opcodeMap := by
  have hrow := decodeOp_row f
  rw [h] at hrow
  exact (rowOf_eq_some_iff.1 hrow.symm).1

theorem row_eq_of_op_eq {r r' : OpcodeRow} (hr : r ∈ opcodeMap) (hr' : r' ∈ opcodeMap)
    (h : r.op = r'.op) : r = r' :=
  Option.some.inj ((rowOf_eq_some_iff.2 ⟨hr, h⟩).symm.trans (rowOf_eq_some_iff.2 ⟨hr', rfl⟩))

/-! ### Masks and matches (R93) -/

theorem bitField_and (a b lo width : Nat) :
    bitField (a &&& b) lo width = bitField a lo width &&& bitField b lo width := by
  rw [bitField, Nat.and_div_two_pow, Nat.and_mod_two_pow]; rfl

theorem fieldsOf_and (a b : CommandWord) :
    fieldsOf (a &&& b) =
      { op := (fieldsOf a).op &&& (fieldsOf b).op
        rd := (fieldsOf a).rd &&& (fieldsOf b).rd
        rs1 := (fieldsOf a).rs1 &&& (fieldsOf b).rs1
        rs2 := (fieldsOf a).rs2 &&& (fieldsOf b).rs2
        n := (fieldsOf a).n &&& (fieldsOf b).n
        z := (fieldsOf a).z &&& (fieldsOf b).z
        imm := (fieldsOf a).imm &&& (fieldsOf b).imm } := by
  simp only [fieldsOf, BitVec.toNat_and, bitField_and]

theorem fieldsOf_injective : Function.Injective fieldsOf :=
  Function.LeftInverse.injective assemble_fieldsOf

theorem fieldsOf_opcodeMatch {op : Nat} (h : op < 2 ^ 8) :
    fieldsOf (opcodeMatch op) = { op := op } :=
  have zero_lt (w : Nat) : 0 < 2 ^ w := Nat.two_pow_pos w
  fieldsOf_assemble _ ⟨h, zero_lt 3, zero_lt 3, zero_lt 3, zero_lt 7, zero_lt 8, zero_lt 32⟩

theorem fieldsOf_mask (fmt : Format) :
    fieldsOf fmt.mask =
      { op := 0xFF
        rd := if fmt.usesRd then 0 else 7
        rs1 := if fmt.usesRs1 then 0 else 7
        rs2 := if fmt.usesRs2 then 0 else 7
        n := if fmt.usesN then 0 else 127
        z := 0xFF
        imm := if fmt.usesImm then 0 else 0xFFFFFFFF } :=
  fieldsOf_assemble _ (by cases fmt <;> constructor <;> decide)

theorem and_allOnes {x : Nat} (w : Nat) (h : x < 2 ^ w) : x &&& (2 ^ w - 1) = x :=
  (Nat.and_two_pow_sub_one_eq_mod x w).trans (Nat.mod_eq_of_lt h)

/-- Masking a field the format does not use leaves 0 exactly when the field is 0. -/
theorem masked_eq_zero_iff {x : Nat} (w : Nat) (h : x < 2 ^ w) (used : Bool) :
    (x &&& if used then 0 else 2 ^ w - 1) = 0 ↔ (used || x == 0) = true := by
  cases used <;> simp [and_allOnes w h]

/-- Under the mask of R93 a word keeps its opcode, `z` and the fields its format does not use: it
matches exactly when it passes the checks of the decoder. -/
theorem matches_iff {r : OpcodeRow} {c : CommandWord} (hop : r.op < 2 ^ 8) :
    r.matches c = true ↔ (fieldsOf c).op = r.op ∧ (fieldsOf c).z = 0 ∧
      r.format.unusedZero (fieldsOf c) = true := by
  have hf := fieldsOf_fit c
  rw [OpcodeRow.matches, beq_iff_eq, ← fieldsOf_injective.eq_iff, fieldsOf_and, fieldsOf_mask,
    fieldsOf_opcodeMatch hop, Fields.mk.injEq]
  rw [show (fieldsOf c).op &&& 255 = _ from and_allOnes 8 hf.op,
    show (fieldsOf c).z &&& 255 = _ from and_allOnes 8 hf.z]
  simp only [Format.unusedZero, Bool.and_eq_true, ← masked_eq_zero_iff 3 hf.rd,
    ← masked_eq_zero_iff 3 hf.rs1, ← masked_eq_zero_iff 3 hf.rs2, ← masked_eq_zero_iff 7 hf.n,
    ← masked_eq_zero_iff 32 hf.imm]
  tauto

theorem op_lt_of_mem : ∀ r ∈ opcodeMap, r.op < 2 ^ 8 := by decide

/-- Settles O3: a row that matches is the row of the opcode, and the row's mnemonic is that of the
command. -/
theorem wordsAreMaskMatches : Obligations.WordsAreMaskMatches := by
  intro c
  refine ⟨⟨?row, ?command⟩, fun i h r hr => ?mnemonic⟩
  case row =>
    rintro ⟨i, h⟩
    obtain ⟨fmt, hop, hz, hu⟩ := decode_eq_ok_iff.1 h
    have hmem := row_mem_of_decodeOp hop
    exact ⟨_, hmem, (matches_iff (op_lt_of_mem _ hmem)).2 ⟨rfl, hz, hu⟩⟩
  case command =>
    rintro ⟨r, hr, hmatch⟩
    obtain ⟨hop, hz, hu⟩ := (matches_iff (op_lt_of_mem r hr)).1 hmatch
    obtain ⟨i, hi⟩ := exists_decodeOp_of_mem hr hop.symm
    exact ⟨i, decode_eq_ok_iff.2 ⟨r.format, hi, hz, hu⟩⟩
  case mnemonic =>
    obtain ⟨fmt, hop, hz, hu⟩ := decode_eq_ok_iff.1 h
    have hmem := row_mem_of_decodeOp hop
    constructor
    · intro hmatch
      obtain ⟨hrop, -, -⟩ := (matches_iff (op_lt_of_mem r hr)).1 hmatch
      rw [row_eq_of_op_eq hr hmem hrop.symm]
    · intro hm
      obtain rfl := eq_of_mnemonic_eq hr hmem hm
      exact (matches_iff (op_lt_of_mem _ hr)).2 ⟨rfl, hz, hu⟩

/-! ### Words that are no command (R97, R304) -/

theorem op_mem_of_decode {c : CommandWord} {i : Instr} (h : decode c = .ok i) :
    ∃ r ∈ opcodeMap, r.op = (fieldsOf c).op := by
  obtain ⟨fmt, hop, -, -⟩ := decode_eq_ok_iff.1 h
  exact ⟨_, row_mem_of_decodeOp hop, rfl⟩

/-- The reserved opcodes of R97. -/
def reservedOpcodes : Finset Nat :=
  Finset.Icc 0x06 0x0F ∪ Finset.Icc 0x13 0x17 ∪ Finset.Icc 0x2B 0x2F ∪ Finset.Icc 0x35 0x37 ∪
    Finset.Icc 0x3B 0x3F ∪ Finset.Icc 0x4A 0x4F ∪ Finset.Icc 0x53 0xFF

theorem op_not_reserved_of_mem : ∀ r ∈ opcodeMap, r.op ∉ reservedOpcodes := by
  simp only [reservedOpcodes, Finset.mem_union, Finset.mem_Icc]
  decide

theorem eq_nop_of_op_zero {c : CommandWord} {i : Instr} (hop : (fieldsOf c).op = 0)
    (h : decode c = .ok i) : i = .nop := by
  obtain ⟨fmt, hi, -, -⟩ := decode_eq_ok_iff.1 h
  simp only [decodeOp, hop, Option.some.injEq, Prod.mk.injEq] at hi
  exact hi.2.symm

/-- Settles O7: no row of R96 has a reserved opcode, and `NOP` has one word. -/
theorem reservedWordsAreIllegal : Obligations.ReservedWordsAreIllegal := by
  have hzero : encode .nop = 0 := rfl
  refine fun c => ⟨fun hres => ?reserved, fun hop hne => ?padded, ?zero⟩
  case reserved =>
    refine exists_error_of_ne_ok fun i h => ?_
    obtain ⟨r, hr, hrop⟩ := op_mem_of_decode h
    exact op_not_reserved_of_mem r hr (hrop ▸ hres)
  case padded =>
    refine exists_error_of_ne_ok fun i h => hne ?_
    obtain ⟨-, hword⟩ := encodeInvertsDecode c i h
    rw [← hword, eq_nop_of_op_zero hop h, hzero]
  case zero => exact hzero ▸ decodeInvertsEncode .nop rfl

/-- Settles O6: the fault step on the state with the word taken from the port. -/
theorem illegalWordsOnlyRaise : Obligations.IllegalWordsOnlyRaise :=
  fun _ _ _ _ h hd => (step_of_event h).trans (issueWord_error hd _)

/-! ### The pseudo-command `LI64` (R101) -/

/-- The lower half, then the upper half put above it. -/
theorem halves_build (v : Word) :
    BitVec.ofNat 64 (v.toNat / 2 ^ 32 * 2 ^ 32 +
      (BitVec.ofNat 64 (v.toNat % 2 ^ 32)).toNat % 2 ^ 32) = v := by
  have hlow : (BitVec.ofNat 64 (v.toNat % 2 ^ 32)).toNat = v.toNat % 2 ^ 32 := by
    rw [BitVec.toNat_ofNat]; omega
  rw [hlow, Nat.mod_mod, Nat.div_add_mod', BitVec.ofNat_toNat, BitVec.setWidth_eq]

/-- Settles O29: `LI` writes the lower half, `LIH` keeps it and adds the upper; both write `rd`
only. -/
theorem loadImmediate64BuildsTheConstant : Obligations.LoadImmediate64BuildsTheConstant := by
  intro s rd v hrd
  have hv := v.isLt
  refine ⟨_, _, _, _, rfl, decide_eq_true (by omega), decide_eq_true (by omega), rfl, rfl, ?_,
    fun r hr => ?_⟩
  · simp only [State.finish_reg, State.reg_setReg_same _ rd _ hrd, State.regNat]
    exact halves_build v
  · simp only [State.finish_reg, State.reg_setReg_other _ rd r _ hr]

end Sys2Proof.Proofs
end

section
/-! The common commands (spec/40_common_commands.md R120 to R125): their words as R91 writes them, the
CSRs as R28 lists them, and the exact next state of each command. -/

namespace Sys2Proof.Proofs

open Machine

/-! ### The words (R91) -/

/-- Settles O4: each word is closed, and the decoder evaluates on it. -/
theorem specWordsDecode : Obligations.SpecWordsDecode :=
  ⟨rfl, rfl, rfl, rfl, rfl, rfl, rfl, rfl, rfl, rfl, rfl, rfl⟩

/-- The encoder is the assembly formula on the command's fields: `z`, which the formula leaves out, is 0
for every command. -/
theorem encode_eq_wordOf (i : Instr) :
    encode i = wordOf i.fields.op i.fields.rd i.fields.rs1 i.fields.rs2 i.fields.n i.fields.imm := by
  obtain ⟨-, -, hz, -⟩ := decodeOp_fields i
  rw [encode, assemble, wordOf, hz, Nat.zero_mul, Nat.add_zero]

/-! ### One value delivered -/

theorem deliver_eq (rd : Reg) (v : Word) (s : State) :
    deliver rd v s = .next (okState s { s with regs := s.regs.write rd v } v 0) := rfl

theorem toNat_ofNat_of_lt {x : Nat} (h : x < 2 ^ 64) : (BitVec.ofNat 64 x).toNat = x := by
  rw [BitVec.toNat_ofNat, Nat.mod_eq_of_lt h]

/-- Settles O27: a padded `NOP` is illegal by R97, the values of `LI` and `LIH` fit in 64 bits, and each
command is the end of a command after one update. -/
theorem movesAndNopComplete : Obligations.MovesAndNopComplete := by
  intro s rd rs1 imm
  refine ⟨⟨encode_eq_wordOf .nop, complete_eq s 0 0, fun c => (reservedWordsAreIllegal c).2.1⟩,
    ⟨encode_eq_wordOf (.li rd imm), fun himm => ⟨BitVec.ofNat 64 imm, ?li, deliver_eq rd _ s⟩⟩,
    ⟨encode_eq_wordOf (.lih rd imm), fun himm => ⟨BitVec.ofNat 64 _, ?lih, deliver_eq rd _ s⟩⟩,
    ⟨encode_eq_wordOf (.mov rd rs1), deliver_eq rd _ s⟩, encode_eq_wordOf .clrerr, rfl⟩
  case li => exact toNat_ofNat_of_lt (by omega)
  case lih => exact toNat_ofNat_of_lt (by rw [State.regNat]; omega)

/-! ### The control and status registers (R26 to R28) -/

/-- `STATUS` is the sum of its fields. -/
theorem statusWord_eq (s : State) : s.statusWord = BitVec.ofNat 64 (s.csrSpec 0) := by
  rw [State.statusWord, State.csrSpec]
  cases s.hvalid <;> rfl

/-- Each of the 20 CSRs reads as its number; a narrow one is zero-extended. -/
theorem csr_eq_csrSpec (s : State) {k : Nat} (hk : k ≤ 19) :
    s.csr k = some (BitVec.ofNat 64 (s.csrSpec k)) := by
  obtain rfl | hpos := Nat.eq_zero_or_pos k
  · exact congrArg some (statusWord_eq s)
  · interval_cases k <;> simp [State.csr, State.csrSpec]

theorem csr_eq_none (s : State) {k : Nat} (hk : 20 ≤ k) : s.csr k = none := by
  obtain ⟨j, rfl⟩ := Nat.exists_eq_add_of_le' hk
  rfl

/-! ### The two ends of `CSRR` (R124) -/

theorem exec_csrr_of_some {s : State} {imm : Nat} {v : Word} (rd : Reg) (h : s.csr imm = some v) :
    exec (.csrr rd imm) s = deliver rd v s := by
  change execCsrr rd imm s = _
  rw [execCsrr, h]

theorem exec_csrr_of_none {s : State} {imm : Nat} (rd : Reg) (h : s.csr imm = none) :
    exec (.csrr rd imm) s = raise .illegalCommand s := by
  change execCsrr rd imm s = _
  rw [execCsrr, h]

/-- Settles O28: a CSR number that exists delivers the CSR, a reserved one raises. -/
theorem csrrReadsEveryCsr : Obligations.CsrrReadsEveryCsr := fun s rd imm =>
  ⟨encode_eq_wordOf (.csrr rd imm),
    fun hk => (exec_csrr_of_some rd (csr_eq_csrSpec s hk)).trans (deliver_eq rd _ s),
    fun hk => (exec_csrr_of_none rd (csr_eq_none s hk)).trans (raise_eq s _)⟩

end Sys2Proof.Proofs
end

section
/-! The Byte Cursor's range, position and fixed-width commands (spec/41_byte_cursor.md R145 to R167):
one rule for each end of a get and of a put, whatever its width. -/

namespace Sys2Proof.Proofs

open Machine

/-- A command that checks a bound raises where the bound is passed. -/
theorem raise_of_lt {a b : Nat} (h : b < a) (o : Out) (st : Status) (s : State) :
    (if a ≤ b then o else raise st s) = .next (faultState s st) :=
  (if_neg (Nat.not_le.2 h)).trans (raise_eq s st)

section Transfers

variable {s : State} {rd rs1 rs2 : Reg} {k imm : Nat}

/-! ### Gets (R64, R150 to R157) -/

/-- Byte `i` from `BASE + off` on is the byte of the range at offset `off + i`. -/
theorem read_eq_rb (s : State) (off i : Nat) :
    Memory.read s.mem (s.base + off + i) = s.rb (off + i) := by
  rw [State.rb, Nat.add_assoc]

theorem leSum_eq_leSpec (s : State) (k off n : Nat) : s.leSum k off n = s.leSpec n off := by
  induction n with
  | zero => rfl
  | succ n ih =>
    rw [State.leSum, ih, State.leSpec, State.leSpec, Finset.sum_range_succ, read_eq_rb,
      byteWeight_eq]

/-- Up to 8 bytes fit a register: zero-extension keeps the sum of R64. -/
theorem toNat_ofNat_le (s : State) (off : Nat) (hk : k ≤ 8) :
    (BitVec.ofNat 64 (s.le k off)).toNat = s.leSpec k off := by
  have hbits : (2 : Nat) ^ (8 * k) ≤ 2 ^ 64 := Nat.pow_le_pow_right (by decide) (by omega)
  rw [toNat_ofNat_of_lt ((s.le_lt k off).trans_le hbits), State.le, leSum_eq_leSpec]

theorem getHere_of_fits (hk : k ≤ 8) (h : s.pos + k ≤ s.len) :
    ∃ v : Word, v.toNat = s.leSpec k s.pos ∧ getHere k rd s =
      .next (okState s { s with regs := s.regs.write rd v, pos := s.pos + k } v 0) :=
  ⟨_, toNat_ofNat_le s s.pos hk, if_pos h⟩

theorem getAt_of_fits (hk : k ≤ 8) (h : s.effective rs1 imm + k ≤ s.len) :
    ∃ v : Word, v.toNat = s.leSpec k (s.effective rs1 imm) ∧ getAt k rd rs1 imm s =
      .next (okState s { s with regs := s.regs.write rd v } v 0) :=
  ⟨_, toNat_ofNat_le s _ hk, if_pos h⟩

/-! ### Puts (R64, R160 to R167) -/

theorem storedAt_writeBytes (m : Memory) (a : Nat) {bs : List Byte} {f : Nat → Byte}
    (hlen : bs.length = k) (hf : ∀ i (h : i < bs.length), bs[i] = f i) :
    StoredAt m (Memory.writeBytes m a bs) a k f := by
  subst hlen
  exact ⟨fun i hi => (Memory.read_writeBytes_inside bs m a i hi).trans (hf i hi),
    fun b hb => Memory.read_writeBytes_outside bs m a b hb⟩

theorem storedAt_leBytes (m : Memory) (a k v : Nat) :
    StoredAt m (Memory.writeBytes m a (leBytes k v)) a k
      fun i => BitVec.ofNat 8 (v / 2 ^ (8 * i) % 256) :=
  storedAt_writeBytes m a (leBytes_length k v) (leBytes_getElem k v)

theorem putHere_of_fits (h : s.pos + k ≤ s.len) :
    ∃ t, putHere k rs2 s = .next t ∧
      t = okState s { s with pos := s.pos + k, mem := t.mem } 0 0 ∧
      StoredAt s.mem t.mem (s.base + s.pos) k
        fun i => BitVec.ofNat 8 ((s.reg rs2).toNat / 2 ^ (8 * i) % 256) :=
  ⟨_, if_pos h, rfl, storedAt_leBytes s.mem _ k _⟩

theorem putAt_of_fits (h : s.effective rs1 imm + k ≤ s.len) :
    ∃ t, putAt k rs2 rs1 imm s = .next t ∧ t = okState s { s with mem := t.mem } 0 0 ∧
      StoredAt s.mem t.mem (s.base + s.effective rs1 imm) k
        fun i => BitVec.ofNat 8 ((s.reg rs2).toNat / 2 ^ (8 * i) % 256) :=
  ⟨_, if_pos h, rfl, storedAt_leBytes s.mem _ k _⟩

end Transfers

/-! ### The obligations -/

/-- Settles O30: each command is one checked bound, then one update. -/
theorem rangeAndPositionCommands : Obligations.RangeAndPositionCommands := fun s rs1 rs2 imm =>
  ⟨encode_eq_wordOf (.bcSetrange rs1 rs2), encode_eq_wordOf (.bcSeek rs1 imm),
    encode_eq_wordOf .bcReset,
    fun h => if_pos h, fun h => raise_of_lt h _ _ s,
    fun h => if_pos h, fun h => raise_of_lt h _ _ s,
    complete_eq (s.setPos 0) 0 0⟩

/-- Settles O31: the four gets are `getHere` of 1, 2, 4 and 8 bytes. -/
theorem getsAtThePosition : Obligations.GetsAtThePosition := by
  intro s rd p hp
  simp only [List.mem_cons, List.not_mem_nil, or_false] at hp
  obtain rfl | rfl | rfl | rfl := hp <;>
    exact ⟨encode_eq_wordOf _, getHere_of_fits (by simp), fun h => raise_of_lt h _ _ s⟩

/-- Settles O32: the four gets are `getAt` of 1, 2, 4 and 8 bytes. -/
theorem getsAtAnOffset : Obligations.GetsAtAnOffset := by
  intro s rd rs1 imm p hp
  simp only [List.mem_cons, List.not_mem_nil, or_false] at hp
  obtain rfl | rfl | rfl | rfl := hp <;>
    exact ⟨encode_eq_wordOf _, getAt_of_fits (by simp), fun h => raise_of_lt h _ _ s⟩

/-- Settles O33: the four puts are `putHere` of 1, 2, 4 and 8 bytes. -/
theorem putsAtThePosition : Obligations.PutsAtThePosition := by
  intro s rs2 p hp
  simp only [List.mem_cons, List.not_mem_nil, or_false] at hp
  obtain rfl | rfl | rfl | rfl := hp <;>
    exact ⟨encode_eq_wordOf _, putHere_of_fits, fun h => raise_of_lt h _ _ s⟩

/-- Settles O34: the four puts are `putAt` of 1, 2, 4 and 8 bytes. -/
theorem putsAtAnOffset : Obligations.PutsAtAnOffset := by
  intro s rs2 rs1 imm p hp
  simp only [List.mem_cons, List.not_mem_nil, or_false] at hp
  obtain rfl | rfl | rfl | rfl := hp <;>
    exact ⟨encode_eq_wordOf _, putAt_of_fits, fun h => raise_of_lt h _ _ s⟩

end Sys2Proof.Proofs
end

section
/-! The varint codec (spec/41_byte_cursor.md R142 to R144): `DecVar` is the sum of the 7-bit groups,
`EncVar` is the shortest list of bytes with that sum, and each inverts the other. -/

namespace Sys2Proof.Proofs

open Machine

/-! ### Sums of 7-bit groups -/

theorem pow_seven_succ (n : Nat) : 2 ^ (7 * (n + 1)) = 2 ^ (7 * n) * 128 := pow_add 2 (7 * n) 7

theorem sum_groups_lt (f : Nat → Nat) (n : Nat) :
    ∑ i ∈ Finset.range n, f i % 128 * 2 ^ (7 * i) < 2 ^ (7 * n) := by
  induction n with
  | zero => simp
  | succ n ih =>
    have hgroup : f n % 128 * 2 ^ (7 * n) ≤ 127 * 2 ^ (7 * n) := Nat.mul_le_mul_right _ (by omega)
    rw [Finset.sum_range_succ, pow_seven_succ]
    omega

/-- The groups of `v` sum up to its low bits. -/
theorem sum_groups_eq_mod (v n : Nat) :
    ∑ i ∈ Finset.range n, v / 2 ^ (7 * i) % 128 * 2 ^ (7 * i) = v % 2 ^ (7 * n) := by
  induction n with
  | zero => simp [Nat.mod_one]
  | succ n ih =>
    rw [Finset.sum_range_succ, ih, pow_seven_succ, Nat.mod_mul, Nat.mul_comm (2 ^ (7 * n))]

/-! ### `DecVar` (R142) -/

/-- What the loop of `DecVar` has still to find from byte `i` on, with the value `v` gathered so far,
to answer `(x, l)`. -/
def VarintFrom (s : State) (off i v x l : Nat) : Prop :=
  i < l ∧ l ≤ 10 ∧ off + l ≤ s.len ∧
    (∀ j, i ≤ j → j < l - 1 → 128 ≤ (s.rb (off + j)).toNat) ∧
    (s.rb (off + (l - 1))).toNat < 128 ∧
    (l = 10 → (s.rb (off + 9)).toNat ≤ 1) ∧
    x = v + ∑ j ∈ Finset.Ico i l, (s.rb (off + j)).toNat % 128 * 2 ^ (7 * j)

/-- From byte 0 on, that is the condition of R142. -/
theorem varintFrom_zero_iff {s : State} {off v l : Nat} :
    VarintFrom s off 0 0 v l ↔ s.VarintAt off v l := by
  simp only [VarintFrom, State.VarintAt, read_eq_rb, Nat.zero_le, true_imp_iff, Nat.zero_add,
    Nat.Ico_zero_eq_range, Nat.succ_le_iff]

section Loop

variable {s : State} {off i v x l : Nat}

/-- A byte without the continuation bit is the last. -/
theorem varintFrom_of_last (hlen : off + i < s.len) (hi : i < 10)
    (hten : ¬(i = 9 ∧ 1 < (s.rb (off + i)).toNat)) (hlast : (s.rb (off + i)).toNat < 128) :
    VarintFrom s off i v x l ↔ v + (s.rb (off + i)).toNat % 128 * 2 ^ (7 * i) = x ∧ i + 1 = l := by
  constructor
  · rintro ⟨hil, -, -, hcont, -, -, rfl⟩
    obtain rfl : l = i + 1 := by
      by_contra hne
      have := hcont i le_rfl (by omega)
      omega
    simp
  · rintro ⟨rfl, rfl⟩
    refine ⟨by omega, by omega, by omega, fun j _ _ => by omega, hlast, fun h9 => ?_, by simp⟩
    obtain rfl : i = 9 := by omega
    omega

/-- A byte with the continuation bit adds its group, and the loop goes on behind it. -/
theorem varintFrom_of_continued (hcont : 128 ≤ (s.rb (off + i)).toNat) :
    VarintFrom s off i v x l ↔
      VarintFrom s off (i + 1) (v + (s.rb (off + i)).toNat % 128 * 2 ^ (7 * i)) x l := by
  constructor
  · rintro ⟨hil, h10, hfit, hbytes, hlast, htenth, rfl⟩
    have hne : i + 1 ≠ l := by
      rintro rfl
      exact absurd hlast (Nat.not_lt.2 hcont)
    refine ⟨by omega, h10, hfit, fun j hj => hbytes j (by omega), hlast, htenth, ?_⟩
    rw [Finset.sum_eq_sum_Ico_succ_bot hil, Nat.add_assoc]
  · rintro ⟨hil, h10, hfit, hbytes, hlast, htenth, rfl⟩
    refine ⟨by omega, h10, hfit, fun j hj hjl => ?_, hlast, htenth, ?_⟩
    · obtain rfl | hlt := hj.eq_or_lt
      · exact hcont
      · exact hbytes j hlt hjl
    · rw [Finset.sum_eq_sum_Ico_succ_bot (Nat.lt_of_succ_lt hil), Nat.add_assoc]

end Loop

/-- The loop finds exactly the varint the bytes hold; `fuel` is the number of bytes up to the
tenth. -/
theorem decVarLoop_eq_some_iff {s : State} {off fuel i v x l : Nat} (hi : i + fuel = 10) :
    s.decVarLoop off fuel i v = some (x, l) ↔ VarintFrom s off i v x l := by
  induction fuel generalizing i v with
  | zero => simp only [State.decVarLoop, VarintFrom, reduceCtorEq, false_iff]; omega
  | succ fuel ih =>
    rw [State.decVarLoop]
    split_ifs with hend hten hlast
    · simp only [VarintFrom, false_iff]
      omega
    · obtain ⟨hnine, hbig⟩ := hten
      obtain rfl : i = 9 := hnine
      simp only [VarintFrom, false_iff]
      rintro ⟨hil, h10, -, -, -, htenth, -⟩
      exact absurd (htenth (by omega)) (Nat.not_le.2 hbig)
    · rw [Option.some_inj, Prod.mk_inj,
        varintFrom_of_last (Nat.not_le.1 hend) (by omega) hten hlast]
    · rw [ih (by omega), varintFrom_of_continued (Nat.not_lt.1 hlast)]

theorem decVar_eq_some_iff {s : State} {off v l : Nat} :
    s.decVar off = some (v, l) ↔ s.VarintAt off v l :=
  (decVarLoop_eq_some_iff rfl).trans varintFrom_zero_iff

theorem decVar_eq_none {s : State} {off : Nat} (h : ∀ v l, ¬ s.VarintAt off v l) :
    s.decVar off = none :=
  Option.eq_none_iff_forall_ne_some.2 fun (v, l) hd => h v l (decVar_eq_some_iff.1 hd)

section Value

variable {s : State} {off v l : Nat}

theorem varintAt_lt_pow (h : s.VarintAt off v l) : v < 2 ^ (7 * l) := by
  obtain ⟨-, -, -, -, -, -, rfl⟩ := h
  exact sum_groups_lt _ l

/-- Nine groups have 63 bits, and a tenth is at most 1. -/
theorem varintAt_lt (h : s.VarintAt off v l) : v < 2 ^ 64 := by
  obtain hlt | rfl : l < 10 ∨ l = 10 := by
    obtain ⟨-, h10, -⟩ := h
    omega
  · exact (varintAt_lt_pow h).trans_le (Nat.pow_le_pow_right (by decide) (by omega))
  · obtain ⟨-, -, -, -, -, htenth, rfl⟩ := h
    have hnine := sum_groups_lt (fun i => (Memory.read s.mem (s.base + off + i)).toNat) 9
    have hbyte := htenth rfl
    rw [Finset.sum_range_succ]
    omega

/-- The value depends on its own bytes only. -/
theorem varintAt_congr {t : State} (h : s.VarintAt off v l) (hfit : off + l ≤ t.len)
    (hbytes : ∀ i < l,
      Memory.read t.mem (t.base + off + i) = Memory.read s.mem (s.base + off + i)) :
    t.VarintAt off v l := by
  obtain ⟨h1, h10, -, hcont, hlast, htenth, hv⟩ := h
  refine ⟨h1, h10, hfit, fun i hi => ?_, ?_, fun hl => ?_, hv.trans ?_⟩
  · rw [hbytes i (by omega)]
    exact hcont i hi
  · rw [hbytes _ (by omega)]
    exact hlast
  · rw [hbytes 9 (by omega)]
    exact htenth hl
  · exact Finset.sum_congr rfl fun i hi => by rw [hbytes i (Finset.mem_range.1 hi)]

end Value

/-- Settles O36: the loop finds exactly the varint the bytes hold, and its groups fit 64 bits. -/
theorem decVarReadsTheGroups : Obligations.DecVarReadsTheGroups :=
  fun _ _ => ⟨fun _ _ => decVar_eq_some_iff, fun _ _ => varintAt_lt⟩

/-! ### `EncVar` (R143) -/

theorem bitlen_le_iff {v n : Nat} : bitlen v ≤ n ↔ v < 2 ^ n := by
  unfold bitlen
  split_ifs with h
  · simp [h]
  · rw [Nat.succ_le_iff, Nat.log2_lt h]

section Encoding

variable {fuel v n i : Nat}

theorem encVarLoop_of_lt (h : v < 128) : encVarLoop (fuel + 1) v = [BitVec.ofNat 8 (v % 128)] := by
  rw [encVarLoop, if_neg (by omega)]

theorem encVarLoop_of_ge (h : 128 ≤ v) :
    encVarLoop (fuel + 1) v = BitVec.ofNat 8 (v % 128 + 128) :: encVarLoop fuel (v / 128) := by
  rw [encVarLoop, if_pos (by omega)]

theorem lt_pow_succ_iff : v < 2 ^ (7 * (n + 1)) ↔ v / 128 < 2 ^ (7 * n) := by
  rw [pow_seven_succ, Nat.div_lt_iff_lt_mul (by decide)]

/-- The loop emits no more bytes than `v` needs. No number of bytes is too few for 0, but one is
emitted for it, so `v` or `n` is not 0. -/
theorem encVarLoop_length_le_iff (hfuel : v < 2 ^ (7 * fuel)) (hvn : v ≠ 0 ∨ n ≠ 0) :
    (encVarLoop fuel v).length ≤ n ↔ v < 2 ^ (7 * n) := by
  induction fuel generalizing v n with
  | zero =>
    obtain rfl : v = 0 := by omega
    simp [encVarLoop]
  | succ fuel ih =>
    cases n with
    | zero =>
      have hpos : (encVarLoop (fuel + 1) v).length ≠ 0 := by
        rw [encVarLoop]
        split <;> simp
      omega
    | succ n =>
      by_cases hv : v < 128
      · rw [encVarLoop_of_lt hv, lt_pow_succ_iff, Nat.div_eq_of_lt hv]
        simp
      · rw [encVarLoop_of_ge (Nat.not_lt.1 hv), lt_pow_succ_iff, List.length_cons,
          Nat.succ_le_succ_iff, ih (lt_pow_succ_iff.1 hfuel) (.inl (by omega))]

theorem encVarLoop_getElem? (hfuel : v < 2 ^ (7 * fuel)) (hi : i < (encVarLoop fuel v).length) :
    (encVarLoop fuel v)[i]? = some (BitVec.ofNat 8
      (v / 2 ^ (7 * i) % 128 + if i + 1 < (encVarLoop fuel v).length then 128 else 0)) := by
  induction fuel generalizing v i with
  | zero => simp [encVarLoop] at hi
  | succ fuel ih =>
    by_cases hv : v < 128
    · rw [encVarLoop_of_lt hv] at hi ⊢
      obtain rfl : i = 0 := by simpa using hi
      simp
    · have hrest : v / 128 < 2 ^ (7 * fuel) := lt_pow_succ_iff.1 hfuel
      rw [encVarLoop_of_ge (Nat.not_lt.1 hv)] at hi ⊢
      cases i with
      | zero =>
        have hmore : ¬ (encVarLoop fuel (v / 128)).length ≤ 0 := by
          rw [encVarLoop_length_le_iff hrest (.inl (by omega))]
          omega
        simp [Nat.not_le.1 hmore]
      | succ i =>
        have hdiv : v / 2 ^ (7 * (i + 1)) = v / 128 / 2 ^ (7 * i) := by
          rw [pow_seven_succ, Nat.mul_comm, Nat.div_div_eq_div_mul]
        rw [List.length_cons, Nat.succ_lt_succ_iff] at hi
        rw [List.getElem?_cons_succ, ih hrest hi, hdiv]
        simp

end Encoding

section Minimal

variable {v n i : Nat}

theorem lt_ten_groups (hv : v < 2 ^ 64) : v < 2 ^ (7 * 10) := hv.trans (by decide)

/-- `EncVar` is minimal: it has at most `n` bytes exactly where `n` groups hold the value. -/
theorem encVar_length_le_iff (hv : v < 2 ^ 64) (hn : 1 ≤ n) :
    (encVar v).length ≤ n ↔ v < 2 ^ (7 * n) :=
  encVarLoop_length_le_iff (lt_ten_groups hv) (.inr (by omega))

theorem encVar_length_eq (hv : v < 2 ^ 64) : (encVar v).length = max 1 ((bitlen v + 6) / 7) := by
  have hbits : ∀ n, 1 ≤ n → ((encVar v).length ≤ n ↔ bitlen v ≤ 7 * n) := fun n hn =>
    (encVar_length_le_iff hv hn).trans bitlen_le_iff.symm
  have hpos := encVar_length_pos v
  have hupper := hbits (max 1 ((bitlen v + 6) / 7)) (by omega)
  have hlower := hbits (encVar v).length hpos
  omega

theorem encVar_getElem? (hv : v < 2 ^ 64) (hi : i < (encVar v).length) :
    (encVar v)[i]? = some (BitVec.ofNat 8
      (v / 2 ^ (7 * i) % 128 + if i + 1 < (encVar v).length then 128 else 0)) :=
  encVarLoop_getElem? (lt_ten_groups hv) hi

end Minimal

/-- Settles O37: the length is the least number of groups that holds the value. -/
theorem encVarIsMinimal : Obligations.EncVarIsMinimal :=
  fun _ hv => ⟨encVar_length_eq hv, fun _ => encVar_getElem? hv⟩

/-! ### The laws of the codec (R144) -/

/-- The bytes of `EncVar(v)` are a varint of the value `v`. -/
theorem varintAt_of_encVar {s : State} {off v : Nat} (hv : v < 2 ^ 64)
    (hfit : off + (encVar v).length ≤ s.len)
    (hbytes : ∀ i < (encVar v).length,
      some (Memory.read s.mem (s.base + off + i)) = (encVar v)[i]?) :
    s.VarintAt off v (encVar v).length := by
  have hpos := encVar_length_pos v
  have hbyte : ∀ i < (encVar v).length, (Memory.read s.mem (s.base + off + i)).toNat =
      v / 2 ^ (7 * i) % 128 + if i + 1 < (encVar v).length then 128 else 0 := by
    intro i hi
    rw [Option.some_inj.1 ((hbytes i hi).trans (encVar_getElem? hv hi)), BitVec.toNat_ofNat]
    exact Nat.mod_eq_of_lt (by split <;> omega)
  refine ⟨hpos, encVar_length_le v, hfit, fun i hi => ?_, ?_, fun hten => ?_, ?_⟩
  · rw [hbyte i (by omega), if_pos (by omega)]
    omega
  · rw [hbyte _ (by omega), if_neg (by omega)]
    omega
  · rw [hbyte 9 (by omega), if_neg (by omega)]
    omega
  · have hgroup : ∀ i ∈ Finset.range (encVar v).length,
        (Memory.read s.mem (s.base + off + i)).toNat % 128 * 2 ^ (7 * i) =
          v / 2 ^ (7 * i) % 128 * 2 ^ (7 * i) := by
      intro i hi
      rw [hbyte i (Finset.mem_range.1 hi)]
      split <;> simp
    rw [Finset.sum_congr rfl hgroup, sum_groups_eq_mod,
      Nat.mod_eq_of_lt ((encVar_length_le_iff hv hpos).1 le_rfl)]

/-- A range that holds the value 0 in the two bytes 128 and 0. -/
def paddedZero : State := { State.reset with len := 2, mem := [(0, 128)] }

/-- Settles O38: (a) and (b) are laws of `VarintAt`, (c) is the minimality of `EncVar`, and
`paddedZero` holds a varint that is not the shortest. -/
theorem varintLaws : Obligations.VarintLaws := by
  refine ⟨fun s off v hv hfit hbytes => ?inverse, fun s t off v l h hfit hbytes => ?ownBytes,
    fun s off v l h => ?minimal, paddedZero, 0, 0, 2, by decide, by decide⟩
  case inverse => exact decVar_eq_some_iff.2 (varintAt_of_encVar hv hfit hbytes)
  case ownBytes => exact decVar_eq_some_iff.2 (varintAt_congr (decVar_eq_some_iff.1 h) hfit hbytes)
  case minimal =>
    have hat := decVar_eq_some_iff.1 h
    obtain ⟨hpos, -, -⟩ := s.decVar_bounds off v l h
    exact (encVar_length_le_iff (varintAt_lt hat) hpos).2 (varintAt_lt_pow hat)

end Sys2Proof.Proofs
end

section
/-! The Byte Cursor's varint commands (spec/41_byte_cursor.md R170 to R172, R144): each is the codec at
an offset, and a get reads back a put. -/

namespace Sys2Proof.Proofs

open Machine

section Commands

variable {s t : State} {rd rd2 rs1 rs2 : Reg} {imm v l : Nat}

/-! ### Gets (R170, R171) -/

theorem execBcGetvar_of_varintAt (h : s.VarintAt s.pos v l) :
    execBcGetvar rd rd2 s = deliverPair rd rd2 v l (s.setPos (s.pos + l)) := by
  rw [execBcGetvar, decVar_eq_some_iff.2 h]

theorem execBcGetvar_of_no_varint (h : ∀ v l, ¬ s.VarintAt s.pos v l) :
    execBcGetvar rd rd2 s = failVar rd2 s := by
  rw [execBcGetvar, decVar_eq_none h]

theorem execBcGetvaro_of_varintAt (h : s.VarintAt (s.effective rs1 imm) v l) :
    execBcGetvaro rd rd2 rs1 imm s = deliverPair rd rd2 v l s := by
  rw [execBcGetvaro, decVar_eq_some_iff.2 h]

theorem execBcGetvaro_of_no_varint (h : ∀ v l, ¬ s.VarintAt (s.effective rs1 imm) v l) :
    execBcGetvaro rd rd2 rs1 imm s = failVar rd2 s := by
  rw [execBcGetvaro, decVar_eq_none h]

/-! ### Put (R172) -/

/-- The state after a `BC.PUTVAR` whose bytes fit. -/
def afterPutvar (rd rs2 : Reg) (s : State) : State :=
  okState s
    { s with
      regs := s.regs.write rd (BitVec.ofNat 64 (encVar (s.regNat rs2)).length)
      pos := s.pos + (encVar (s.regNat rs2)).length
      mem := Memory.writeBytes s.mem (s.base + s.pos) (encVar (s.regNat rs2)) }
    (BitVec.ofNat 64 (encVar (s.regNat rs2)).length) 0

theorem execBcPutvar_of_fits (h : s.fits s.pos (encVar (s.regNat rs2)).length) :
    execBcPutvar rd rs2 s = .next (afterPutvar rd rs2 s) := if_pos h

theorem execBcPutvar_of_lt (h : s.len < s.pos + (encVar (s.regNat rs2)).length) :
    execBcPutvar rd rs2 s = .next (faultState s .outOfBounds) := raise_of_lt h _ _ s

theorem execBcPutvar_ended_ok (h : execBcPutvar rd rs2 s = .next t) (hok : t.Ended .ok) :
    s.fits s.pos (encVar (s.regNat rs2)).length ∧ t = afterPutvar rd rs2 s := by
  obtain hfit | hlt := le_or_gt (s.pos + (encVar (s.regNat rs2)).length) s.len
  · rw [execBcPutvar_of_fits hfit] at h
    cases h
    exact ⟨hfit, rfl⟩
  · rw [execBcPutvar_of_lt hlt] at h
    cases h
    obtain ⟨v, w, hresp⟩ := hok
    cases hresp

/-- A put leaves a varint of its value where it wrote. -/
theorem varintAt_afterPutvar (h : s.fits s.pos (encVar (s.regNat rs2)).length) :
    ({ afterPutvar rd rs2 s with pos := s.pos } : State).VarintAt s.pos (s.regNat rs2)
      (encVar (s.regNat rs2)).length :=
  varintAt_of_encVar (s.reg rs2).isLt h fun i hi =>
    (congrArg some (Memory.read_writeBytes_inside (encVar (s.regNat rs2)) s.mem _ i hi)).trans
      (List.getElem?_eq_getElem hi).symm

end Commands

/-! ### The obligations -/

/-- Settles O39: each get is `DecVar` at its offset, which finds the varint or none. -/
theorem varintGets : Obligations.VarintGets := fun s rd rd2 rs1 imm =>
  ⟨encode_eq_wordOf (.bcGetvar rd rd2), encode_eq_wordOf (.bcGetvaro rd rd2 rs1 imm),
    fun _ _ h => (execBcGetvar_of_varintAt h).trans (complete_eq _ _ _),
    fun h => (execBcGetvar_of_no_varint h).trans (failVar_eq s rd2),
    fun _ _ h => (execBcGetvaro_of_varintAt h).trans (complete_eq _ _ _),
    fun h => (execBcGetvaro_of_no_varint h).trans (failVar_eq s rd2)⟩

/-- Settles O40: the bytes of `EncVar` are stored in order, or do not fit and nothing is. -/
theorem varintPut : Obligations.VarintPut := fun s rd rs2 =>
  ⟨encode_eq_wordOf (.bcPutvar rd rs2),
    fun h => ⟨afterPutvar rd rs2 s, execBcPutvar_of_fits h, rfl,
      storedAt_writeBytes s.mem _ rfl fun _ hi => (List.getD_eq_getElem _ 0 hi).symm⟩,
    execBcPutvar_of_lt⟩

/-- Settles O41: a put that ends with status 0 fits, and the varint it leaves is the one the get
delivers. -/
theorem getvarReadsBackPutvar : Obligations.GetvarReadsBackPutvar := by
  intro s t rd rs2 ra rb h hok
  obtain ⟨hfit, rfl⟩ := execBcPutvar_ended_ok h hok
  refine ⟨_, execBcGetvar_of_varintAt (varintAt_afterPutvar hfit), rfl, ?_⟩
  change some _ = some _
  rw [State.regNat, BitVec.ofNat_toNat, BitVec.setWidth_eq]

end Sys2Proof.Proofs
end

section
/-! The Bit Cursor commands (spec/42_bit_cursor.md R194 to R201): one rule for each end of a bit read
and of a push, whichever form gives the count. -/

namespace Sys2Proof.Proofs

open Machine

/-! ### The count (R193) -/

theorem not_validCount {n : Nat} (h : n = 0 ∨ 65 ≤ n) : ¬ validCount n := by
  rintro ⟨hpos, hmax⟩
  simp only [Config.bitsMax] at hmax
  omega

/-- A transfer that checks its count raises where the count is none. -/
theorem raise_of_not_validCount {n : Nat} (h : n = 0 ∨ 65 ≤ n) (o : Out) (st : Status) (s : State) :
    (if validCount n then o else raise st s) = .next (faultState s st) :=
  (if_neg (not_validCount h)).trans (raise_eq s st)

section Transfers

variable {s : State} {rd : Reg} {v n : Nat}

/-! ### Reads (R196, R197) -/

/-- Up to 64 bits fit a register: zero-extension keeps the sum of R67. -/
theorem toNat_ofNat_sbits (s : State) (p : Nat) (hn : n ≤ 64) :
    (BitVec.ofNat 64 (s.sbits p n)).toNat = s.sbits p n :=
  toNat_ofNat_of_lt ((s.sbits_lt p n).trans_le (Nat.pow_le_pow_right (by decide) hn))

theorem nextBits_of_fits (hpos : 1 ≤ n) (hmax : n ≤ 64) (h : s.rbit + n ≤ 8 * s.len) :
    nextBits rd n s =
      deliver rd (BitVec.ofNat 64 (s.sbits s.rbit n)) (s.setRbit (s.rbit + n)) :=
  (if_pos ⟨hpos, hmax⟩).trans (if_pos h)

theorem nextBits_of_lt (hpos : 1 ≤ n) (hmax : n ≤ 64) (h : 8 * s.len < s.rbit + n) :
    nextBits rd n s = .next (faultState s .outOfBounds) :=
  (if_pos ⟨hpos, hmax⟩).trans (raise_of_lt h _ _ s)

/-! ### Pushes (R199, R200) -/

theorem pushBits_of_fits (hpos : 1 ≤ n) (hmax : n ≤ 64)
    (h : s.pos + s.pushedBits n / 8 ≤ s.len) :
    pushBits v n s = .next ((s.push v n).finish .ok 0 0) :=
  (if_pos ⟨hpos, hmax⟩).trans (if_pos h)

theorem pushBits_of_lt (hpos : 1 ≤ n) (hmax : n ≤ 64)
    (h : s.len < s.pos + s.pushedBits n / 8) :
    pushBits v n s = .next (faultState s .outOfBounds) :=
  (if_pos ⟨hpos, hmax⟩).trans (raise_of_lt h _ _ s)

/-- The number of bits left of whole bytes fits the field `WCNT`. -/
theorem push_wcnt_toNat (s : State) (v n : Nat) :
    (s.push v n).wcnt.toNat = s.pushedBits n % 8 :=
  (BitVec.toNat_ofNat _ _).trans (Nat.mod_mod _ 8)

/-- The bits left of whole bytes are fewer than 8 and fit `WPEND`. -/
theorem push_wpend_toNat (s : State) (v n : Nat) :
    (s.push v n).wpend.toNat = s.pushed v n % 2 ^ (s.pushedBits n % 8) := by
  have hfew : s.pushedBits n % 8 ≤ 7 := by omega
  have hlt : s.pushed v n % 2 ^ (s.pushedBits n % 8) < 2 ^ 7 :=
    (Nat.mod_lt _ (Nat.two_pow_pos _)).trans_le (Nat.pow_le_pow_right (by decide) hfew)
  exact (BitVec.toNat_ofNat _ _).trans (Nat.mod_eq_of_lt hlt)

theorem storedAt_topBytes (m : Memory) (a buf tot k : Nat) :
    StoredAt m (Memory.writeBytes m a (topBytes buf tot k)) a k
      fun i => BitVec.ofNat 8 (buf / 2 ^ (tot - 8 * (i + 1)) % 256) :=
  storedAt_writeBytes m a (topBytes_length buf tot k) (topBytes_getElem buf tot k)

end Transfers

/-! ### The obligations -/

/-- Settles O43: each command is one update of `RBIT` or one value delivered; `BR.SEEK` checks one
bound. -/
theorem readerPositionCommands : Obligations.ReaderPositionCommands := by
  intro s rd rs1 imm
  have hhas : exec (.brHasnext rd) s = deliver rd (if s.rbit < 8 * s.len then 1 else 0) s := rfl
  refine ⟨encode_eq_wordOf .brOpen, encode_eq_wordOf (.brSeek rs1 imm),
    encode_eq_wordOf (.brHasnext rd), complete_eq (s.setRbit (8 * s.pos)) 0 0,
    fun h => if_pos h, fun h => raise_of_lt h _ _ s, fun h => ?more, fun h => ?atEnd⟩
  case more => rw [hhas, if_pos h, deliver_eq]
  case atEnd => rw [hhas, if_neg (Nat.not_lt.2 h), deliver_eq]

/-- Settles O44: both forms are `nextBits` of their count. -/
theorem bitReads : Obligations.BitReads := by
  intro s rd rs1 k
  refine ⟨encode_eq_wordOf (.brNext rd k), encode_eq_wordOf (.brNextv rd rs1),
    fun p a b => (bitReadsSplit s p a b).2, fun p hp => ?_⟩
  have hread : exec p.2 s = nextBits rd p.1 s := by
    simp only [List.mem_cons, List.not_mem_nil, or_false] at hp
    obtain rfl | rfl := hp <;> rfl
  rw [hread]
  exact ⟨fun hpos hmax h => ⟨_, (toNat_ofNat_sbits s s.rbit hmax).trans (sbits_eq_bitsSpec s _ _),
      (nextBits_of_fits hpos hmax h).trans (deliver_eq rd _ _)⟩,
    nextBits_of_lt, fun h => raise_of_not_validCount h _ _ s⟩

/-- Settles O45: both forms are `pushBits` of their count. -/
theorem bitPushes : Obligations.BitPushes := by
  intro s rs2 rs1 k
  refine ⟨encode_eq_wordOf (.bwPush rs2 k), encode_eq_wordOf (.bwPushv rs2 rs1), ?_⟩
  rintro p hp _ _ rfl rfl
  have hpush : exec p.2 s = pushBits (s.regNat rs2) p.1 s := by
    simp only [List.mem_cons, List.not_mem_nil, or_false] at hp
    obtain rfl | rfl := hp <;> rfl
  rw [hpush]
  exact ⟨fun hpos hmax h => ⟨(s.push (s.regNat rs2) p.1).finish .ok 0 0,
      pushBits_of_fits hpos hmax h, rfl, push_wcnt_toNat s (s.regNat rs2) p.1,
      push_wpend_toNat s (s.regNat rs2) p.1, storedAt_topBytes s.mem _ _ _ _⟩,
    pushBits_of_lt, fun h => raise_of_not_validCount h _ _ s⟩

/-- Settles O46: nothing pending, a byte that fits, a byte that does not. -/
theorem flushPadsWithZeros : Obligations.FlushPadsWithZeros := fun s =>
  ⟨encode_eq_wordOf .bwFlush, fun h => if_pos h,
    fun hne h => ⟨_, (if_neg hne).trans (if_pos h), rfl,
      storedAt_writeBytes s.mem _ rfl fun i _ => by simp [State.flushByte]⟩,
    fun hne h => (if_neg hne).trans (raise_of_lt h _ _ s)⟩

end Sys2Proof.Proofs
end

section
/-! What the bit writer stores the bit reader reads back (spec/42_bit_cursor.md R202): a push or a flush
appends its bits to the stream that starts at the writer's position, and a stream is read count by
count. -/

namespace Sys2Proof.Proofs

open Machine

/-! ### Strings of bits -/

/-- The number of bits of the pairs of value and count. -/
abbrev bitCount (ps : List (Nat × Nat)) : Nat := (ps.map Prod.snd).sum

/-- The concatenation of the values' bits, as the number R202 compares. -/
abbrev bitString (ps : List (Nat × Nat)) : Nat := ps.foldl (fun acc q => acc * 2 ^ q.2 + q.1) 0

/-- What stands before the string is shifted past all its bits. -/
theorem foldl_bits (ps : List (Nat × Nat)) (acc : Nat) :
    ps.foldl (fun acc q => acc * 2 ^ q.2 + q.1) acc = acc * 2 ^ bitCount ps + bitString ps := by
  induction ps generalizing acc with
  | nil => exact (Nat.mul_one acc).symm
  | cons q ps ih =>
    have hcount : bitCount (q :: ps) = q.2 + bitCount ps := rfl
    rw [bitString, List.foldl_cons, List.foldl_cons, ih, ih (0 * _ + _), hcount, pow_add]
    ring

theorem bitString_cons (q : Nat × Nat) (ps : List (Nat × Nat)) :
    bitString (q :: ps) = q.1 * 2 ^ bitCount ps + bitString ps := by
  rw [bitString, List.foldl_cons, foldl_bits, Nat.zero_mul, Nat.zero_add]

/-- A string splits at a bit in one way only. -/
theorem split_unique {x x' y y' n : Nat} (h : x * 2 ^ n + y = x' * 2 ^ n + y') (hy : y < 2 ^ n)
    (hy' : y' < 2 ^ n) : x = x' ∧ y = y' := by
  have htop {a b : Nat} (hb : b < 2 ^ n) : (a * 2 ^ n + b) / 2 ^ n = a := by
    rw [Nat.add_comm, Nat.add_mul_div_right _ _ (Nat.two_pow_pos n), Nat.div_eq_of_lt hb,
      Nat.zero_add]
  obtain rfl : x = x' := by rw [← htop (a := x) hy, h, htop hy']
  exact ⟨rfl, Nat.add_left_cancel h⟩

/-- Two strings in a row are no longer than both lengths say. -/
theorem append_lt {x y a b : Nat} (hx : x < 2 ^ a) (hy : y < 2 ^ b) :
    x * 2 ^ b + y < 2 ^ (a + b) :=
  calc x * 2 ^ b + y < (x + 1) * 2 ^ b := by rw [Nat.succ_mul]; omega
    _ ≤ 2 ^ a * 2 ^ b := Nat.mul_le_mul_right _ hx
    _ = 2 ^ (a + b) := (pow_add 2 a b).symm

theorem bitString_lt {ps : List (Nat × Nat)} (h : ∀ q ∈ ps, q.1 < 2 ^ q.2) :
    bitString ps < 2 ^ bitCount ps := by
  induction ps with
  | nil => simp
  | cons q ps ih =>
    obtain ⟨hq, hps⟩ := List.forall_mem_cons.1 h
    rw [bitString_cons]
    exact append_lt hq (ih hps)

/-! ### The stream bits of stored bytes (R66) -/

/-- The first `n` stream bits of a byte are its top `n` bits. -/
theorem sbits_of_byte (s : State) (o : Nat) {n : Nat} (hn : n ≤ 8) :
    s.sbits (8 * o) n = (s.rb o).toNat / 2 ^ (8 - n) := by
  induction n with
  | zero => exact (Nat.div_eq_of_lt (s.rb o).isLt).symm
  | succ n ih =>
    have hbit : s.sbit (8 * o + n) = (s.rb o).toNat / 2 ^ (8 - (n + 1)) % 2 := by
      rw [State.sbit, streamBit_eq, show (8 * o + n) / 8 = o by omega,
        show 7 - (8 * o + n) % 8 = 8 - (n + 1) by omega]
    have htop : (s.rb o).toNat / 2 ^ (8 - n) = (s.rb o).toNat / 2 ^ (8 - (n + 1)) / 2 := by
      rw [Nat.div_div_eq_div_mul, ← pow_succ, show 8 - (n + 1) + 1 = 8 - n by omega]
    rw [State.sbits, ih (by omega), hbit, htop]
    omega

/-- The bytes cut from the top of a string of `tot` bits hold its first bits. -/
theorem sbits_of_topBytes {s : State} {o k buf tot : Nat} (hk : 8 * k ≤ tot)
    (h : ∀ i < k, s.rb (o + i) = BitVec.ofNat 8 (buf / 2 ^ (tot - 8 * (i + 1)) % 256)) :
    s.sbits (8 * o) (8 * k) = buf / 2 ^ (tot - 8 * k) % 2 ^ (8 * k) := by
  induction k with
  | zero => simp [State.sbits, Nat.mod_one]
  | succ k ih =>
    have hbyte : s.sbits (8 * o + 8 * k) 8 = buf / 2 ^ (tot - 8 * (k + 1)) % 2 ^ 8 := by
      rw [← Nat.mul_add, sbits_of_byte s (o + k) le_rfl, h k (by omega)]
      simp
    have hshift : buf / 2 ^ (tot - 8 * k) = buf / 2 ^ (tot - 8 * (k + 1)) / 2 ^ 8 := by
      rw [Nat.div_div_eq_div_mul, ← pow_add, show tot - 8 * (k + 1) + 8 = tot - 8 * k by omega]
    have hsplit (x : Nat) : x / 2 ^ 8 % 2 ^ (8 * k) * 2 ^ 8 + x % 2 ^ 8 = x % 2 ^ (8 * (k + 1)) := by
      rw [show 8 * (k + 1) = 8 + 8 * k by ring, pow_add, Nat.mod_mul]
      ring
    rw [← hsplit, ← hshift, ← ih (by omega) fun i hi => h i (by omega), ← hbyte]
    exact sbits_add s (8 * o) (8 * k) 8

/-- A read of only zeros read no other bit. -/
theorem bitSpec_eq_zero {s : State} {p n : Nat} (h : s.sbits p n = 0) {i : Nat} (hi : i < n) :
    s.bitSpec (p + i) = 0 := by
  rw [sbits_eq_bitsSpec, State.bitsSpec, Finset.sum_eq_zero_iff] at h
  exact (Nat.mul_eq_zero.1 (h i (Finset.mem_range.2 hi))).resolve_right (Nat.two_pow_pos _).ne'

/-! ### What the writer appends -/

/-- From `s` to `t` the writer took the `n` bits of `v`: the bits stored since `s` with the bits pending
in `t` are the bits pending in `s` with those of `v`. -/
structure Appended (s t : State) (n v : Nat) : Prop where
  len : t.len = s.len
  inv : t.WriterInv
  pos_le : s.pos ≤ t.pos
  count : 8 * t.pos + t.wcnt.toNat = 8 * s.pos + s.wcnt.toNat + n
  before : ∀ off < s.pos, t.rb off = s.rb off
  bits : t.sbits (8 * s.pos) (8 * (t.pos - s.pos)) * 2 ^ t.wcnt.toNat + t.wpend.toNat =
    s.wpend.toNat * 2 ^ n + v
  inside : n = 0 ∨ t.pos ≤ t.len

namespace Appended

variable {s t u : State} {n m v w : Nat}

/-- A command that leaves the writer and its bytes as they were appended nothing. -/
theorem of_same (hinv : s.WriterInv) (hlen : t.len = s.len) (hpos : t.pos = s.pos)
    (hwcnt : t.wcnt = s.wcnt) (hwpend : t.wpend = s.wpend)
    (hrb : ∀ off < s.pos, t.rb off = s.rb off) : Appended s t 0 0 where
  len := hlen
  inv := by rwa [State.WriterInv, hwcnt, hwpend]
  pos_le := hpos.ge
  count := by rw [hpos, hwcnt, Nat.add_zero]
  before := hrb
  bits := by simp [hpos, hwpend, State.sbits]
  inside := .inl rfl

theorem trans (h : Appended s t n v) (h' : Appended t u m w) :
    Appended s u (n + m) (v * 2 ^ m + w) where
  len := h'.len.trans h.len
  inv := h'.inv
  pos_le := h.pos_le.trans h'.pos_le
  count := by rw [h'.count, h.count]; ring
  before off hoff := (h'.before off (hoff.trans_le h.pos_le)).trans (h.before off hoff)
  bits := by
    have hpos := h.pos_le
    have hpos' := h'.pos_le
    have hcount' := h'.count
    have hpending : 8 * (u.pos - t.pos) + u.wcnt.toNat = t.wcnt.toNat + m := by omega
    have hsplit : u.sbits (8 * s.pos) (8 * (u.pos - s.pos)) =
        t.sbits (8 * s.pos) (8 * (t.pos - s.pos)) * 2 ^ (8 * (u.pos - t.pos)) +
          u.sbits (8 * t.pos) (8 * (u.pos - t.pos)) := by
      rw [show 8 * (u.pos - s.pos) = 8 * (t.pos - s.pos) + 8 * (u.pos - t.pos) by omega, sbits_add,
        show 8 * s.pos + 8 * (t.pos - s.pos) = 8 * t.pos by omega,
        State.sbits_congr_bytes t u _ _ t.pos (by omega) h'.before]
    calc u.sbits (8 * s.pos) (8 * (u.pos - s.pos)) * 2 ^ u.wcnt.toNat + u.wpend.toNat
        = t.sbits (8 * s.pos) (8 * (t.pos - s.pos)) * 2 ^ (8 * (u.pos - t.pos) + u.wcnt.toNat) +
            (u.sbits (8 * t.pos) (8 * (u.pos - t.pos)) * 2 ^ u.wcnt.toNat + u.wpend.toNat) := by
          rw [hsplit, pow_add]; ring
      _ = (t.sbits (8 * s.pos) (8 * (t.pos - s.pos)) * 2 ^ t.wcnt.toNat + t.wpend.toNat) * 2 ^ m +
            w := by
          rw [hpending, h'.bits, pow_add]; ring
      _ = s.wpend.toNat * 2 ^ (n + m) + (v * 2 ^ m + w) := by
          rw [h.bits, pow_add]; ring
  inside := by
    obtain ⟨hlen', -, -, hcount', -, -, hinside'⟩ := h'
    have hinside := h.inside
    have hfew := t.wcnt.isLt
    have hfew' := u.wcnt.isLt
    omega

end Appended

section Writer

variable {s t u : State} {n v : Nat}

/-- The pending bits and the new ones are no more than their number says. -/
theorem pushed_lt (hinv : s.WriterInv) (v n : Nat) : s.pushed v n < 2 ^ s.pushedBits n :=
  append_lt hinv (Nat.mod_lt _ (Nat.two_pow_pos n))

/-- The complete bytes of a push hold all its bits but those left pending. -/
theorem sbits_push (hinv : s.WriterInv) (v n : Nat) :
    (s.push v n).sbits (8 * s.pos) (8 * (s.pushedBits n / 8)) =
      s.pushed v n / 2 ^ (s.pushedBits n % 8) := by
  obtain ⟨hbytes, -⟩ := storedAt_topBytes s.mem (s.base + s.pos) (s.pushed v n) (s.pushedBits n)
    (s.pushedBits n / 8)
  have hrest : s.pushedBits n - 8 * (s.pushedBits n / 8) = s.pushedBits n % 8 := by omega
  have hlt : s.pushed v n / 2 ^ (s.pushedBits n % 8) < 2 ^ (8 * (s.pushedBits n / 8)) := by
    refine Nat.div_lt_of_lt_mul ?_
    rw [← pow_add, Nat.mod_add_div]
    exact pushed_lt hinv v n
  rw [sbits_of_topBytes (by omega) fun i hi =>
    (read_eq_rb (s.push v n) s.pos i).symm.trans (hbytes i hi), hrest, Nat.mod_eq_of_lt hlt]

theorem appended_push (hinv : s.WriterInv) (hv : v < 2 ^ n)
    (hfit : s.fits s.pos (s.pushedBits n / 8)) :
    Appended s ((s.push v n).finish .ok 0 0) n v where
  len := rfl
  inv := by
    change (s.push v n).wpend.toNat < 2 ^ (s.push v n).wcnt.toNat
    rw [push_wpend_toNat, push_wcnt_toNat]
    exact Nat.mod_lt _ (Nat.two_pow_pos _)
  pos_le := Nat.le_add_right _ _
  count := by
    change 8 * (s.pos + s.pushedBits n / 8) + (s.push v n).wcnt.toNat = _
    rw [push_wcnt_toNat, Nat.add_assoc, ← State.pushedBits]
    omega
  before off hoff :=
    Memory.read_writeBytes_outside _ s.mem _ (s.base + off) (.inl (Nat.add_lt_add_left hoff _))
  bits := by
    change ((s.push v n).finish .ok 0 0).sbits _ (8 * (s.pos + s.pushedBits n / 8 - s.pos)) *
      2 ^ (s.push v n).wcnt.toNat + (s.push v n).wpend.toNat = _
    rw [State.sbits_congr (s.push v n) ((s.push v n).finish .ok 0 0) _ _ fun _ _ => rfl,
      Nat.add_sub_cancel_left, sbits_push hinv, push_wcnt_toNat, push_wpend_toNat,
      Nat.div_add_mod', State.pushed, Nat.mod_eq_of_lt hv]
  inside := .inr hfit

theorem pushedBits_padding (s : State) : s.pushedBits (8 - s.wcnt.toNat) = 8 := by
  have hfew := s.wcnt.isLt
  rw [State.pushedBits]
  omega

/-- A flush of pending bits is a push of zeros up to the byte boundary. -/
theorem push_padding (s : State) : s.push 0 (8 - s.wcnt.toNat) =
    ((s.putBytes s.pos [s.flushByte]).setPos (s.pos + 1)).setWriter 0 0 := by
  have hbyte : topBytes (s.pushed 0 (8 - s.wcnt.toNat)) 8 1 = [s.flushByte] := by
    refine congrArg (· :: []) (BitVec.eq_of_toNat_eq ?_)
    simp [State.pushed, State.flushByte]
  rw [State.push, pushedBits_padding, hbyte, Nat.mod_self, pow_zero, Nat.mod_one]

end Writer

/-! ### Commands that end with status 0 -/

section Commands

variable {s t u : State} {n v : Nat}

theorem okExec_eq_some {i : Instr} :
    okExec i s = some t ↔ exec i s = .next t ∧ t.Ended .ok := by
  unfold okExec
  constructor
  · intro h
    split at h
    · split at h
      · cases h
        exact ⟨‹_›, _, _, ‹_›⟩
      · cases h
    · cases h
  · rintro ⟨hexec, v, v2, hresp⟩
    simp only [hexec, hresp]

theorem pushBits_ended_ok (h : pushBits v n s = .next t) (hok : t.Ended .ok) :
    s.fits s.pos (s.pushedBits n / 8) ∧ t = (s.push v n).finish .ok 0 0 := by
  obtain ⟨val, val2, hresp⟩ := hok
  obtain ⟨-, hfit, ht⟩ | ⟨-, -, rfl⟩ | ⟨-, rfl⟩ := pushBits_cases h
  · exact ⟨hfit, ht⟩
  · cases hresp
  · cases hresp

theorem execBwFlush_ended_ok (h : execBwFlush s = .next t) (hok : t.Ended .ok) :
    (s.wcnt = 0 ∧ t = s.finish .ok 0 0) ∨
    (s.wcnt ≠ 0 ∧ s.fits s.pos 1 ∧ t = (s.push 0 (8 - s.wcnt.toNat)).finish .ok 0 0) := by
  unfold execBwFlush at h
  split at h
  · exact .inl ⟨‹_›, complete_cases h⟩
  · split at h
    · rw [push_padding]
      exact .inr ⟨‹_›, ‹_›, complete_cases h⟩
    · rw [raise_eq] at h
      cases h
      obtain ⟨val, val2, hresp⟩ := hok
      cases hresp

/-- A push of a value brought in a register appends the value. -/
theorem appended_okExec_bwPush (hinv : s.WriterInv) (hn : n ≤ 64) (hv : v < 2 ^ n)
    (h : okExec (.bwPush .x1 n) (s.setReg .x1 (BitVec.ofNat 64 v)) = some t) :
    Appended s t n v := by
  obtain ⟨hexec, hok⟩ := okExec_eq_some.1 h
  have hval : (s.setReg .x1 (BitVec.ofNat 64 v)).regNat .x1 = v :=
    toNat_ofNat_of_lt (hv.trans_le (Nat.pow_le_pow_right (by decide) hn))
  change pushBits ((s.setReg .x1 (BitVec.ofNat 64 v)).regNat .x1) n _ = _ at hexec
  rw [hval] at hexec
  obtain ⟨hfit, rfl⟩ := pushBits_ended_ok hexec hok
  obtain ⟨hlen, hinv', hpos, hcount, hbefore, hbits, hinside⟩ :=
    appended_push (s := s.setReg .x1 (BitVec.ofNat 64 v)) hinv hv hfit
  exact ⟨hlen, hinv', hpos, hcount, hbefore, hbits, hinside⟩

theorem appended_pushAll {ps : List (Nat × Nat)} (hinv : s.WriterInv)
    (hps : ∀ q ∈ ps, 1 ≤ q.2 ∧ q.2 ≤ 64 ∧ q.1 < 2 ^ q.2) (h : pushAll ps s = some t) :
    Appended s t (bitCount ps) (bitString ps) := by
  induction ps generalizing s with
  | nil =>
    cases h
    exact .of_same hinv rfl rfl rfl rfl fun _ _ => rfl
  | cons q ps ih =>
    obtain ⟨⟨-, hn, hv⟩, hrest⟩ := List.forall_mem_cons.1 hps
    rw [pushAll] at h
    split at h
    · have hhead := appended_okExec_bwPush hinv hn hv ‹_›
      rw [bitString_cons]
      exact hhead.trans (ih hhead.inv hrest h)
    · cases h

/-- A flush appends zeros up to the byte boundary and leaves nothing pending. -/
theorem appended_okExec_bwFlush (hinv : s.WriterInv) (h : okExec .bwFlush s = some t) :
    t.wcnt = 0 ∧ Appended s t ((8 - s.wcnt.toNat) % 8) 0 := by
  obtain ⟨hexec, hok⟩ := okExec_eq_some.1 h
  obtain ⟨hzero, rfl⟩ | ⟨hne, hfit, rfl⟩ := execBwFlush_ended_ok hexec hok
  · rw [hzero]
    exact ⟨hzero, .of_same hinv rfl rfl rfl rfl fun _ _ => rfl⟩
  · have hpos : s.wcnt.toNat ≠ 0 := fun h0 => hne (BitVec.eq_of_toNat_eq h0)
    rw [Nat.mod_eq_of_lt (by omega)]
    refine ⟨BitVec.eq_of_toNat_eq (x := (s.push 0 _).wcnt) ?_,
      appended_push hinv (Nat.two_pow_pos _) ?_⟩
    · rw [push_wcnt_toNat, pushedBits_padding]
      rfl
    · rwa [pushedBits_padding]

/-! ### Reading back, count by count -/

/-- The state after a read of `n` bits that are in the range. -/
def afterRead (rd : Reg) (n : Nat) (s : State) : State :=
  okState s { s with
    regs := s.regs.write rd (BitVec.ofNat 64 (s.sbits s.rbit n))
    rbit := s.rbit + n } (BitVec.ofNat 64 (s.sbits s.rbit n)) 0

theorem okExec_brNext_of_fits {rd : Reg} (hpos : 1 ≤ n) (hmax : n ≤ 64)
    (h : s.rbit + n ≤ 8 * s.len) : okExec (.brNext rd n) s = some (afterRead rd n s) :=
  okExec_eq_some.2 ⟨nextBits_of_fits hpos hmax h, _, _, rfl⟩

theorem afterRead_sbits (rd : Reg) (n : Nat) (s : State) (p m : Nat) :
    (afterRead rd n s).sbits p m = s.sbits p m :=
  State.sbits_congr _ _ _ _ fun _ _ => rfl

theorem afterRead_reg (s : State) (hmax : n ≤ 64) :
    ((afterRead .x1 n s).reg .x1).toNat = s.sbits s.rbit n :=
  toNat_ofNat_sbits s s.rbit hmax

/-- Where the stream at `RBIT` is the string of the values, reads with their counts deliver them. -/
theorem readAll_of_bitString {ps : List (Nat × Nat)}
    (hps : ∀ q ∈ ps, 1 ≤ q.2 ∧ q.2 ≤ 64 ∧ q.1 < 2 ^ q.2)
    (hfit : ps ≠ [] → s.rbit + bitCount ps ≤ 8 * s.len)
    (hbits : s.sbits s.rbit (bitCount ps) = bitString ps) :
    readAll (ps.map Prod.snd) s = some (ps.map Prod.fst) := by
  induction ps generalizing s with
  | nil => rfl
  | cons q ps ih =>
    obtain ⟨⟨hpos, hmax, -⟩, hrest⟩ := List.forall_mem_cons.1 hps
    have hcount : bitCount (q :: ps) = q.2 + bitCount ps := rfl
    have hfit := hfit (List.cons_ne_nil _ _)
    rw [hcount, ← Nat.add_assoc] at hfit
    rw [hcount, sbits_add, bitString_cons] at hbits
    obtain ⟨hhead, htail⟩ := split_unique hbits (s.sbits_lt _ _)
      (bitString_lt fun r hr => (hrest r hr).2.2)
    have hreads : readAll (ps.map Prod.snd) (afterRead .x1 q.2 s) = some (ps.map Prod.fst) :=
      ih hrest (fun _ => hfit) ((afterRead_sbits ..).trans htail)
    rw [List.map_cons, readAll, okExec_brNext_of_fits hpos hmax (by omega)]
    simp [hreads, afterRead_reg s hmax, hhead]

/-! ### The obligation -/

/-- Pushes and a flush from an empty writer leave the string of the values, then zeros up to the byte
boundary. -/
theorem sbits_after_flush {ps : List (Nat × Nat)} (hinv : s.WriterInv) (hempty : s.wcnt = 0)
    (hps : ∀ q ∈ ps, 1 ≤ q.2 ∧ q.2 ≤ 64 ∧ q.1 < 2 ^ q.2) (hpush : pushAll ps s = some t)
    (hflush : okExec .bwFlush t = some u) :
    ∃ pad < 8, 8 * u.pos = 8 * s.pos + bitCount ps + pad ∧ (bitCount ps = 0 ∨ u.pos ≤ u.len) ∧
      u.sbits (8 * s.pos) (bitCount ps) = bitString ps ∧
      u.sbits (8 * s.pos + bitCount ps) pad = 0 := by
  have hpushed := appended_pushAll hinv hps hpush
  obtain ⟨hdone, hflushed⟩ := appended_okExec_bwFlush hpushed.inv hflush
  have hall := hpushed.trans hflushed
  have hcount := hall.count
  have hbits := hall.bits
  have hinside := hall.inside
  have hnone : s.wpend.toNat = 0 := by simpa [State.WriterInv, hempty] using hinv
  have hnone' : u.wpend.toNat = 0 := by simpa [State.WriterInv, hdone] using hall.inv
  generalize hpad : (8 - t.wcnt.toNat) % 8 = pad at *
  have hstart : s.wcnt.toNat = 0 := congrArg BitVec.toNat hempty
  have hend : u.wcnt.toNat = 0 := congrArg BitVec.toNat hdone
  have hlen : 8 * (u.pos - s.pos) = bitCount ps + pad := by omega
  rw [hlen, hend, hnone, hnone', pow_zero, Nat.mul_one, Nat.zero_mul, Nat.zero_add, sbits_add]
    at hbits
  obtain ⟨hvalue, hzero⟩ := split_unique hbits (u.sbits_lt _ _) (Nat.two_pow_pos pad)
  exact ⟨pad, by omega, by omega, by omega, hvalue, hzero⟩

end Commands

/-- Settles O47: the stream after the flush is the string of the values and its padding. -/
theorem writerReaderRoundTrip : Obligations.WriterReaderRoundTrip := by
  intro ps s t u hinv hempty hps hpush hflush
  obtain ⟨pad, hlt, hpos, hinside, hvalue, hzero⟩ := sbits_after_flush hinv hempty hps hpush hflush
  have hsum : (ps.map Prod.snd).sum = bitCount ps := rfl
  refine ⟨by omega, readAll_of_bitString hps (fun hne => ?fits) ?stream,
    (sbits_eq_bitsSpec u _ _).symm.trans hvalue, fun j hfrom hto => ?padding⟩
  case fits =>
    obtain ⟨q, hq⟩ := List.exists_mem_of_ne_nil ps hne
    have hsome : q.2 ≤ bitCount ps := List.single_le_sum (by simp) _ (List.mem_map_of_mem hq)
    obtain ⟨hone, -⟩ := hps q hq
    change 8 * s.pos + bitCount ps ≤ 8 * u.len
    omega
  case stream =>
    exact (State.sbits_congr u (u.setRbit (8 * s.pos)) _ _ fun _ _ => rfl).trans hvalue
  case padding =>
    obtain ⟨i, rfl⟩ := Nat.exists_eq_add_of_le hfrom
    exact bitSpec_eq_zero hzero (by omega)

end Sys2Proof.Proofs
end

section
/-! The Unpacker's commands (spec/43_unpacker.md R225 to R234): one rule for each end of a
single-field command and of a run command, whatever it does with the fields. -/

namespace Sys2Proof.Proofs

open Machine

/-! ### Checks and widths -/

/-- A command that requires a condition raises where the condition fails. -/
theorem raise_of_not {c : Prop} [Decidable c] (h : ¬ c) (o : Out) (st : Status) (s : State) :
    (if c then o else raise st s) = .next (faultState s st) :=
  (if_neg h).trans (raise_eq s st)

/-- A command that excludes a condition raises where the condition holds. -/
theorem raise_of {c : Prop} [Decidable c] (h : c) (o : Out) (st : Status) (s : State) :
    (if c then raise st s else o) = .next (faultState s st) :=
  (if_pos h).trans (raise_eq s st)

theorem not_validLane {w : Nat} (h : w = 0 ∨ 33 ≤ w) : ¬ validLane w := by
  rintro ⟨hpos, hmax⟩
  simp only [Config.lanes] at hmax
  omega

/-- A lane fits the field `UW`. -/
theorem toNat_ofNat_lane {w : Nat} (h : w ≤ 32) : (BitVec.ofNat 6 w).toNat = w := by
  rw [BitVec.toNat_ofNat, Nat.mod_eq_of_lt (by omega)]

/-- A 32-bit ID fits `UREF`, `UN`, `UCNT` and an entry of `UBUF`. -/
theorem toNat_ofNat_id {x : Nat} (h : x < 2 ^ 32) : (BitVec.ofNat 32 x).toNat = x := by
  rw [BitVec.toNat_ofNat, Nat.mod_eq_of_lt h]

/-! ### Fields (R221, R222) -/

theorem field_eq_fieldSpec (s : State) (idx : Nat) : s.field idx = s.fieldSpec idx :=
  sbits_eq_bitsSpec s _ _

/-- A field of any width that `UW` can hold fits a register. -/
theorem toNat_ofNat_field (s : State) (idx : Nat) :
    (BitVec.ofNat 64 (s.field idx)).toNat = s.field idx :=
  toNat_ofNat_sbits s _ s.uw.isLt.le

/-- A field of a legal lane is a 32-bit ID. -/
theorem field_lt {s : State} (huw : s.uw.toNat ≤ 32) (idx : Nat) : s.field idx < 2 ^ 32 :=
  (s.sbits_lt _ _).trans_le (Nat.pow_le_pow_right (by decide) huw)

section Fields

variable {s : State} {idx : Nat} {use : Nat → Out}

/-! ### Single-field commands (R228) -/

theorem withField_of_no_lane (h : s.uw = 0) :
    withField idx s use = .next (faultState s .unsupportedFeature) := raise_of h _ _ s

theorem withField_of_no_field (huw : s.uw ≠ 0) (h : s.un.toNat ≤ idx) :
    withField idx s use = .next (faultState s .outOfBounds) :=
  (if_neg huw).trans (raise_of h _ _ s)

theorem withField_beyond (huw : s.uw ≠ 0) (hun : idx < s.un.toNat)
    (h : 8 * s.len < s.fieldBit (idx + 1)) :
    withField idx s use = .next (faultState s .corruptData) :=
  (if_neg huw).trans ((if_neg (Nat.not_le.2 hun)).trans (raise_of_lt h _ _ s))

theorem withField_of_fits (huw : s.uw ≠ 0) (hun : idx < s.un.toNat)
    (h : s.fieldBit (idx + 1) ≤ 8 * s.len) : withField idx s use = use (s.field idx) :=
  (if_neg huw).trans ((if_neg (Nat.not_le.2 hun)).trans (if_pos h))

theorem exec_field_eq {i : Instr} {rd rs1 : Reg} {imm : Nat}
    (hi : i ∈ [Instr.unpGet rd rs1 imm, .unpAt rd rs1 imm]) (s : State) :
    ∃ use, exec i s = withField (s.effective rs1 imm) s use := by
  simp only [List.mem_cons, List.not_mem_nil, or_false] at hi
  obtain rfl | rfl := hi
  · exact ⟨_, (rfl : execUnpGet rd rs1 imm s = _)⟩
  · exact ⟨_, (rfl : execUnpAt rd rs1 imm s = _)⟩

section Fits

variable {rd rs1 : Reg} {imm : Nat} (huw : s.uw ≠ 0) (hun : s.effective rs1 imm < s.un.toNat)
  (hfit : s.fieldBit (s.effective rs1 imm + 1) ≤ 8 * s.len)

include huw hun hfit

theorem execUnpGet_of_fits : execUnpGet rd rs1 imm s =
    deliver rd (BitVec.ofNat 64 (s.field (s.effective rs1 imm))) s :=
  withField_of_fits huw hun hfit

theorem execUnpAt_of_fits (hid : s.uref.toNat + s.field (s.effective rs1 imm) < 2 ^ 32) :
    execUnpAt rd rs1 imm s =
      deliver rd (BitVec.ofNat 64 (s.uref.toNat + s.field (s.effective rs1 imm))) s :=
  (withField_of_fits huw hun hfit).trans (if_pos hid)

theorem execUnpAt_of_wide_sum (hge : 2 ^ 32 ≤ s.uref.toNat + s.field (s.effective rs1 imm)) :
    execUnpAt rd rs1 imm s = .next (faultState s .corruptData) :=
  (withField_of_fits huw hun hfit).trans (raise_of_not (Nat.not_lt.2 hge) _ _ s)

end Fits

end Fields

section Run

variable {s : State} {first count : Nat} {use : List Nat → Out}

/-! ### Run commands (R231, R232) -/

theorem withRun_of_no_lane (h : s.uw = 0) :
    withRun first count s use = .next (faultState s .unsupportedFeature) := raise_of h _ _ s

theorem withRun_of_no_room (huw : s.uw ≠ 0) (h : s.cap.ubufN < count) :
    withRun first count s use = .next (faultState s .outOfBounds) :=
  (if_neg huw).trans (raise_of h _ _ s)

theorem withRun_of_no_fields (huw : s.uw ≠ 0) (hroom : count ≤ s.cap.ubufN)
    (h : s.un.toNat < first + count) :
    withRun first count s use = .next (faultState s .outOfBounds) :=
  (if_neg huw).trans ((if_neg (Nat.not_lt.2 hroom)).trans (raise_of h _ _ s))

theorem withRun_beyond (huw : s.uw ≠ 0) (hroom : count ≤ s.cap.ubufN)
    (hun : first + count ≤ s.un.toNat) (hpos : 0 < count)
    (h : 8 * s.len < s.fieldBit (first + count)) :
    withRun first count s use = .next (faultState s .corruptData) :=
  (if_neg huw).trans ((if_neg (Nat.not_lt.2 hroom)).trans ((if_neg (Nat.not_lt.2 hun)).trans
    (raise_of_not (not_or.2 ⟨hpos.ne', Nat.not_le.2 h⟩) _ _ s)))

theorem withRun_of_fits (huw : s.uw ≠ 0) (hroom : count ≤ s.cap.ubufN)
    (hun : first + count ≤ s.un.toNat)
    (h : count = 0 ∨ s.fieldBit (first + count) ≤ 8 * s.len) :
    withRun first count s use = use (s.fields first count) :=
  (if_neg huw).trans ((if_neg (Nat.not_lt.2 hroom)).trans ((if_neg (Nat.not_lt.2 hun)).trans
    (if_pos h)))

theorem exec_run_eq {i : Instr} {rs1 rs2 : Reg}
    (hi : i ∈ [Instr.unpRun rs1 rs2, .unpRunref rs1 rs2]) (s : State) :
    ∃ use, exec i s = withRun (s.regNat rs1) (s.regNat rs2) s use := by
  simp only [List.mem_cons, List.not_mem_nil, or_false] at hi
  obtain rfl | rfl := hi
  · exact ⟨_, (rfl : execUnpRun rs1 rs2 s = _)⟩
  · exact ⟨_, (rfl : execUnpRunref rs1 rs2 s = _)⟩

theorem forall_mem_fields {p : Nat → Prop} :
    (∀ f ∈ s.fields first count, p f) ↔ ∀ k < count, p (s.field (first + k)) := by
  simp [State.fields]

/-! ### `UBUF` after a run (R231, R240) -/

theorem bufEntry_setRun_of_lt (s : State) {vs : List Nat} {k : Nat} (h : k < vs.length) :
    (s.setRun vs).bufEntry k = BitVec.ofNat 32 vs[k] := by
  rw [State.bufEntry, State.setRun_ubuf, List.getD_append _ _ _ _ (by simpa using h),
    List.getD_eq_getElem _ _ (by simpa using h), List.getElem_map]

theorem bufEntry_setRun_of_ge (s : State) {vs : List Nat} {k : Nat} (h : vs.length ≤ k) :
    (s.setRun vs).bufEntry k = s.bufEntry k := by
  rw [State.bufEntry, State.setRun_ubuf, List.getD_append_right _ _ _ _ (by simpa using h),
    List.length_map, List.getD_eq_getElem?_getD, List.getElem?_drop, Nat.add_sub_cancel' h,
    ← List.getD_eq_getElem?_getD, State.bufEntry]

/-- A run of 32-bit IDs puts them in the first entries of `UBUF` and keeps the others. -/
theorem complete_setRun {vs : List Nat} {f : Nat → Nat} (hlen : vs.length = count)
    (hcount : count < 2 ^ 32) (hvs : ∀ k (h : k < vs.length), vs[k] = f k)
    (hf : ∀ k < count, f k < 2 ^ 32) :
    ∃ t, complete (s.setRun vs) 0 0 = .next t ∧
      t = okState s { s with ubuf := t.ubuf, ucnt := t.ucnt } 0 0 ∧ t.ucnt.toNat = count ∧
      (∀ k < count, (t.bufEntry k).toNat = f k) ∧ ∀ k, count ≤ k → t.bufEntry k = s.bufEntry k := by
  subst hlen
  refine ⟨_, rfl, rfl, toNat_ofNat_id hcount, fun k hk => ?_,
    fun k hk => bufEntry_setRun_of_ge s hk⟩
  calc ((s.setRun vs).bufEntry k).toNat = (BitVec.ofNat 32 (f k)).toNat := by
        rw [bufEntry_setRun_of_lt s hk, hvs k hk]
    _ = f k := toNat_ofNat_id (hf k hk)

section Fits

variable {rs1 rs2 : Reg} (huw : s.uw ≠ 0) (hroom : s.regNat rs2 ≤ s.cap.ubufN)
  (hun : s.regNat rs1 + s.regNat rs2 ≤ s.un.toNat)
  (hfit : s.regNat rs2 = 0 ∨ s.fieldBit (s.regNat rs1 + s.regNat rs2) ≤ 8 * s.len)

include huw hroom hun hfit

theorem execUnpRun_of_fits :
    execUnpRun rs1 rs2 s = complete (s.setRun (s.fields (s.regNat rs1) (s.regNat rs2))) 0 0 :=
  withRun_of_fits huw hroom hun hfit

theorem execUnpRunref_of_fits
    (hids : ∀ k < s.regNat rs2, s.uref.toNat + s.field (s.regNat rs1 + k) < 2 ^ 32) :
    execUnpRunref rs1 rs2 s = complete
      (s.setRun ((s.fields (s.regNat rs1) (s.regNat rs2)).map fun f => s.uref.toNat + f)) 0 0 :=
  (withRun_of_fits huw hroom hun hfit).trans (if_pos (forall_mem_fields.2 hids))

theorem execUnpRunref_of_wide_sum {k : Nat} (hk : k < s.regNat rs2)
    (hge : 2 ^ 32 ≤ s.uref.toNat + s.field (s.regNat rs1 + k)) :
    execUnpRunref rs1 rs2 s = .next (faultState s .corruptData) :=
  (withRun_of_fits huw hroom hun hfit).trans
    (raise_of_not (fun hall => Nat.not_lt.2 hge (forall_mem_fields.1 hall k hk)) _ _ s)

end Fits

end Run

section Header

variable {s : State} {rd : Reg} {v l : Nat}

/-! ### The block header (R229) -/

theorem execUnpHdr_at_end (h : s.len ≤ s.pos) :
    execUnpHdr rd s = .next (faultState s .corruptData) := raise_of_not (Nat.not_lt.2 h) _ _ s

theorem execUnpHdr_of_no_lane (hpos : s.pos < s.len) (h : ¬ validLane (s.rb s.pos).toNat) :
    execUnpHdr rd s = .next (faultState s .unsupportedFeature) :=
  (if_pos hpos).trans (raise_of_not h _ _ s)

section Lane

variable (hpos : s.pos < s.len) (hw : validLane (s.rb s.pos).toNat)

include hpos hw

theorem execUnpHdr_of_no_varint (h : ∀ v l, ¬ s.VarintAt (s.pos + 1) v l) :
    execUnpHdr rd s = .next (faultState s .corruptData) := by
  rw [execUnpHdr, if_pos hpos, if_pos hw, decVar_eq_none h]
  exact raise_eq s _

theorem execUnpHdr_of_wide_reference (h : s.VarintAt (s.pos + 1) v l) (hv : 2 ^ 32 ≤ v) :
    execUnpHdr rd s = .next (faultState s .corruptData) := by
  rw [execUnpHdr, if_pos hpos, if_pos hw, decVar_eq_some_iff.2 h]
  exact raise_of_not (Nat.not_lt.2 hv) _ _ s

theorem execUnpHdr_of_long_payload (h : s.VarintAt (s.pos + 1) v l) (hv : v < 2 ^ 32)
    (hlt : s.len < s.pos + 1 + l + s.payload (s.rb s.pos).toNat) :
    execUnpHdr rd s = .next (faultState s .corruptData) := by
  rw [execUnpHdr, if_pos hpos, if_pos hw, decVar_eq_some_iff.2 h]
  exact (if_pos hv).trans (raise_of_lt (by omega) _ _ s)

theorem execUnpHdr_of_block (h : s.VarintAt (s.pos + 1) v l) (hv : v < 2 ^ 32)
    (hfit : s.pos + 1 + l + s.payload (s.rb s.pos).toNat ≤ s.len) :
    execUnpHdr rd s = deliver rd (BitVec.ofNat 64 (1 + l + s.payload (s.rb s.pos).toNat))
      ((s.setBlock (s.rb s.pos).toNat v (s.pos + 1 + l)).setPos
        (s.pos + 1 + l + s.payload (s.rb s.pos).toNat)) := by
  rw [execUnpHdr, if_pos hpos, if_pos hw, decVar_eq_some_iff.2 h]
  exact (if_pos hv).trans (if_pos (by omega))

end Lane

end Header

/-! ### The minimal width (R234, R235) -/

/-- `max(1, bitlen(m))` is the least lane that holds a 32-bit ID. -/
theorem minimalWidth_spec {m : Nat} {v : Word} (hv : v = BitVec.ofNat 64 (max 1 (bitlen m)))
    (hm : m < 2 ^ 32) :
    1 ≤ v.toNat ∧ v.toNat ≤ 32 ∧ m < 2 ^ v.toNat ∧ (v.toNat = 1 ∨ 2 ^ (v.toNat - 1) ≤ m) := by
  have hmax : bitlen m ≤ 32 := bitlen_le_iff.2 hm
  have hwidth : v.toNat = max 1 (bitlen m) := by rw [hv, toNat_ofNat_of_lt (by omega)]
  refine ⟨by omega, by omega, bitlen_le_iff.1 (by omega), or_iff_not_imp_left.2 fun hone => ?_⟩
  have hshort : ¬ bitlen m ≤ v.toNat - 1 := by omega
  exact Nat.not_lt.1 fun hlt => hshort (bitlen_le_iff.2 hlt)

/-! ### The obligations -/

/-- Settles O48: each command is one check, then one update, and the value fits its CSR. -/
theorem unpackerSetUp : Obligations.UnpackerSetUp := by
  rintro s rs1 imm _ rfl
  exact ⟨encode_eq_wordOf (.unpSel rs1 imm), encode_eq_wordOf (.unpBase rs1 imm),
    encode_eq_wordOf (.unpCount rs1 imm),
    fun hpos hmax => ⟨_, toNat_ofNat_lane hmax, if_pos ⟨hpos, hmax⟩⟩,
    fun h => raise_of_not (not_validLane h) _ _ s,
    fun h => if_pos h, fun h => raise_of_lt h _ _ s,
    fun h => ⟨_, toNat_ofNat_id h, if_pos h⟩, fun h => raise_of_not (Nat.not_lt.2 h) _ _ s⟩

/-- Settles O49: the width byte, the varint and the payload are checked in this order, and the values
of a block that passes fit their CSRs. -/
theorem blockHeader : Obligations.BlockHeader := by
  rintro s rd _ rfl
  refine ⟨encode_eq_wordOf (.unpHdr rd), execUnpHdr_at_end,
    fun hpos h => execUnpHdr_of_no_lane hpos (not_validLane h),
    fun hpos h1 h32 h => execUnpHdr_of_no_varint hpos ⟨h1, h32⟩ h, ?_⟩
  rintro v l _ hpos h1 h32 h rfl
  exact ⟨execUnpHdr_of_wide_reference hpos ⟨h1, h32⟩ h,
    execUnpHdr_of_long_payload hpos ⟨h1, h32⟩ h,
    fun hv hfit => ⟨_, execUnpHdr_of_block hpos ⟨h1, h32⟩ h hv hfit, rfl, toNat_ofNat_lane h32,
      toNat_ofNat_id hv⟩⟩

/-- Settles O50: both commands are `withField`, and what they deliver fits a register. -/
theorem fieldReads : Obligations.FieldReads := by
  rintro s rd rs1 imm _ _ rfl rfl
  rw [← field_eq_fieldSpec]
  refine ⟨encode_eq_wordOf (.unpGet rd rs1 imm), encode_eq_wordOf (.unpAt rd rs1 imm),
    fun i hi => ?_, fun huw hun hfit => ⟨⟨_, toNat_ofNat_field s _, execUnpGet_of_fits huw hun hfit⟩,
      fun hid => ⟨_, toNat_ofNat_of_lt (hid.trans (by decide)), execUnpAt_of_fits huw hun hfit hid⟩,
      execUnpAt_of_wide_sum huw hun hfit⟩⟩
  obtain ⟨use, huse⟩ := exec_field_eq hi s
  rw [huse]
  exact ⟨withField_of_no_lane, withField_of_no_field, withField_beyond⟩

/-- Settles O51: both commands are `withRun`, and every value they store is a 32-bit ID. -/
theorem runs : Obligations.Runs := by
  rintro s rs1 rs2 _ _ ⟨hlane, -⟩ hcap rfl rfl
  simp only [← field_eq_fieldSpec]
  refine ⟨encode_eq_wordOf (.unpRun rs1 rs2), encode_eq_wordOf (.unpRunref rs1 rs2),
    fun i hi => ?faults,
    fun huw hroom hun hfit => ⟨?run, fun hids => ?runref, fun k hk hge => ?wide⟩⟩
  case faults =>
    obtain ⟨use, huse⟩ := exec_run_eq hi s
    rw [huse]
    exact ⟨withRun_of_no_lane, withRun_of_no_room, withRun_of_no_fields, withRun_beyond⟩
  case run =>
    obtain ⟨t, ht, hspec⟩ := complete_setRun (s := s) (s.fields_length _ _) (hroom.trans_lt hcap)
      (s.fields_getElem _ _) fun k _ => field_lt hlane _
    exact ⟨t, (execUnpRun_of_fits huw hroom hun hfit).trans ht, hspec⟩
  case runref =>
    obtain ⟨t, ht, hspec⟩ := complete_setRun (s := s)
      ((List.length_map _).trans (s.fields_length _ _)) (hroom.trans_lt hcap)
      (fun k hk => (List.getElem_map _).trans (congrArg _ (s.fields_getElem _ _ k _))) hids
    exact ⟨t, (execUnpRunref_of_fits huw hroom hun hfit hids).trans ht, hspec⟩
  case wide => exact execUnpRunref_of_wide_sum huw hroom hun hfit hk hge

/-- Settles O52: an entry of `UBUF` fits a register, and so does the minimal width. -/
theorem entryReadAndMinimalWidth : Obligations.EntryReadAndMinimalWidth := fun s rd rs1 imm =>
  ⟨encode_eq_wordOf (.unpRd rd rs1 imm), encode_eq_wordOf (.unpMinw rd rs1),
    fun h => ⟨_, BitVec.toNat_setWidth_of_le (by decide), if_pos h⟩,
    fun h => raise_of_not (Nat.not_lt.2 h) _ _ s,
    fun h =>
      have ⟨hpos, hmax, hholds, hleast⟩ := minimalWidth_spec rfl h
      ⟨_, hpos, hmax, hholds, hleast, if_pos h⟩,
    fun h => raise_of_not (Nat.not_lt.2 h) _ _ s⟩

end Sys2Proof.Proofs
end

section
/-! The Unpacker and the other ways to the same bits (spec/43_unpacker.md R238): a field is a seek
and a bit read, an entry of a run, and what the bit writer packed. -/

namespace Sys2Proof.Proofs

open Machine

section Agree

variable {s t u : State} {rd rs1 rs2 : Reg} {v : Word} {imm idx k : Nat}

@[simp] theorem effective_x0 (s : State) (imm : Nat) : s.effective .x0 imm = imm := by
  simp [State.effective]

/-! ### Commands that end with status 0 -/

theorem execUnpGet_ended_ok (h : execUnpGet rd rs1 imm s = .next t)
    (hresp : t.resp = some ⟨.ok, v, 0⟩) :
    s.uw ≠ 0 ∧ s.effective rs1 imm < s.un.toNat ∧
      s.fieldBit (s.effective rs1 imm + 1) ≤ 8 * s.len ∧
      v = BitVec.ofNat 64 (s.field (s.effective rs1 imm)) := by
  obtain ⟨huw, hun, hfit, hget⟩ | ⟨-, rfl⟩ | ⟨-, -, rfl⟩ | ⟨-, -, -, rfl⟩ := withField_cases h
  · obtain rfl := deliver_cases hget
    cases hresp
    exact ⟨huw, hun, hfit, rfl⟩
  all_goals cases hresp

theorem execUnpRun_ended_ok (h : execUnpRun rs1 rs2 s = .next t) (hok : t.Ended .ok) :
    s.regNat rs2 ≤ s.cap.ubufN ∧
      complete (s.setRun (s.fields (s.regNat rs1) (s.regNat rs2))) 0 0 = .next t := by
  obtain ⟨val, val2, hresp⟩ := hok
  obtain ⟨-, hroom, -, -, hrun⟩ | ⟨-, rfl⟩ | ⟨-, -, rfl⟩ | ⟨-, -, -, -, -, rfl⟩ :=
    withRun_cases h
  · exact ⟨hroom, hrun⟩
  all_goals cases hresp

/-! ### One field read in three ways (R238) -/

/-- (b): a seek to the field's first bit and a read of `UW` bits. -/
theorem seek_next_field (huw : s.uw ≠ 0) (hfit : s.fieldBit (idx + 1) ≤ 8 * s.len) :
    ∃ u w, execBrSeek .x0 (s.fieldBit idx) s = .next u ∧
      execBrNext .x0 s.uw.toNat u = .next w ∧
      w.resp = some ⟨.ok, BitVec.ofNat 64 (s.field idx), 0⟩ := by
  have hpos : s.uw.toNat ≠ 0 := fun h0 => huw (BitVec.eq_of_toNat_eq h0)
  have hend : s.fieldBit idx + s.uw.toNat ≤ 8 * s.len := by
    simpa only [State.fieldBit, Nat.succ_mul, Nat.add_assoc] using hfit
  have hseek : execBrSeek .x0 (s.fieldBit idx) s =
      .next ((s.setRbit (s.fieldBit idx)).finish .ok 0 0) := by
    rw [execBrSeek, effective_x0, if_pos (by omega), complete]
  have hbits : ((s.setRbit (s.fieldBit idx)).finish .ok 0 0).sbits (s.fieldBit idx) s.uw.toNat =
      s.field idx := State.sbits_congr s _ _ _ fun _ _ => rfl
  exact ⟨_, _, hseek, nextBits_of_fits (by omega) s.uw.isLt.le hend,
    congrArg (fun x => some (Response.mk .ok (BitVec.ofNat 64 x) 0)) hbits⟩

/-- (c): an entry of a run that holds the field. -/
theorem run_rd_field (huw : s.uw.toNat ≤ 32) (hcap : s.cap.ubufN < 2 ^ 32)
    (hk : k < s.regNat rs2) (h : execUnpRun rs1 rs2 s = .next u) (hok : u.Ended .ok) :
    ∃ w, execUnpRd .x0 .x0 k u = .next w ∧
      w.resp = some ⟨.ok, BitVec.ofNat 64 (s.field (s.regNat rs1 + k)), 0⟩ := by
  obtain ⟨hroom, hrun⟩ := execUnpRun_ended_ok h hok
  obtain ⟨t, ht, -, hcount, hentries, -⟩ := complete_setRun (s := s) (s.fields_length _ _)
    (hroom.trans_lt hcap) (s.fields_getElem _ _) fun k _ => field_lt huw _
  cases hrun.symm.trans ht
  have hentry : (u.bufEntry k).zeroExtend 64 = BitVec.ofNat 64 (s.field (s.regNat rs1 + k)) := by
    refine BitVec.eq_of_toNat_eq ?_
    rw [toNat_ofNat_field, ← hentries k hk]
    exact BitVec.toNat_setWidth_of_le (show 32 ≤ 64 by decide)
  refine ⟨_, if_pos (by rwa [effective_x0, hcount]), ?_⟩
  rw [effective_x0, hentry]
  rfl

/-- `UNP.GET` of a field that lies in the range delivers it. -/
theorem get_field (huw : s.uw ≠ 0) (hun : idx < s.un.toNat)
    (hfit : s.fieldBit (idx + 1) ≤ 8 * s.len) :
    ∃ u, execUnpGet .x0 .x0 idx s = .next u ∧
      u.resp = some ⟨.ok, BitVec.ofNat 64 (s.field idx), 0⟩ := by
  rw [← effective_x0 s idx] at hun hfit
  refine ⟨_, execUnpGet_of_fits huw hun hfit, ?_⟩
  rw [effective_x0]
  rfl

/-- (d): the element is the field plus the reference. -/
theorem at_field (huw : s.uw ≠ 0) (hun : idx < s.un.toNat)
    (hfit : s.fieldBit (idx + 1) ≤ 8 * s.len) (hid : s.uref.toNat + s.field idx < 2 ^ 32) :
    ∃ u, execUnpAt .x0 .x0 idx s = .next u ∧
      u.resp = some ⟨.ok, BitVec.ofNat 64 (s.uref.toNat + s.field idx), 0⟩ := by
  rw [← effective_x0 s idx] at hun hfit hid
  refine ⟨_, execUnpAt_of_fits huw hun hfit hid, ?_⟩
  rw [effective_x0]
  rfl

end Agree

/-- Settles O53: the field `UNP.GET` delivers is what each of the other ways delivers. -/
theorem fieldReadsAgree : Obligations.FieldReadsAgree := by
  rintro s t v idx ⟨hlane, -⟩ hcap h hresp
  obtain ⟨huw, hun, hfit, rfl⟩ := execUnpGet_ended_ok h hresp
  rw [effective_x0] at hun hfit ⊢
  rw [toNat_ofNat_field]
  refine ⟨seek_next_field huw hfit, ?_, at_field huw hun hfit⟩
  rintro u rs1 rs2 k rfl hk hrun hok
  exact run_rd_field hlane hcap hk hrun hok

/-! ### Pack and unpack (R238) -/

section Pack

variable {s : State} {fs : List Nat} {w : Nat}

theorem bitCount_fields (fs : List Nat) (w : Nat) :
    bitCount (fs.map fun f => (f, w)) = fs.length * w := by
  simp [bitCount, Function.comp_def]

/-- Where the stream is the string of the fields, field `i` is `w` bits from bit `i·w` on. -/
theorem sbits_field_of_bitString {p : Nat} (hfs : ∀ f ∈ fs, f < 2 ^ w)
    (h : s.sbits p (fs.length * w) = bitString (fs.map fun f => (f, w))) {i : Nat}
    (hi : i < fs.length) : s.sbits (p + i * w) w = fs[i] := by
  induction fs generalizing p i with
  | nil => cases hi
  | cons f fs ih =>
    obtain ⟨hf, hrest⟩ := List.forall_mem_cons.1 hfs
    rw [List.length_cons, Nat.succ_mul, Nat.add_comm, sbits_add, List.map_cons, bitString_cons,
      bitCount_fields] at h
    have hlt : bitString (fs.map fun f => (f, w)) < 2 ^ (fs.length * w) := by
      rw [← bitCount_fields]
      exact bitString_lt (by simpa using hrest)
    obtain ⟨hhead, htail⟩ := split_unique h (s.sbits_lt _ _) hlt
    cases i with
    | zero => simpa using hhead
    | succ i =>
      rw [Nat.succ_mul, Nat.add_comm (i * w), ← Nat.add_assoc]
      exact ih hrest htail (Nat.lt_of_succ_lt_succ hi)

/-- In a lane of `w` bits a field that lies in the range is read as the `w` bits at its place. -/
theorem get_of_sbits {i f : Nat} (huw : s.uw.toNat = w) (hpos : 1 ≤ w) (hun : i < s.un.toNat)
    (hfit : 8 * s.udata + (i + 1) * w ≤ 8 * s.len) (hbits : s.sbits (8 * s.udata + i * w) w = f) :
    ∃ r, execUnpGet .x0 .x0 i s = .next r ∧ r.resp = some ⟨.ok, BitVec.ofNat 64 f, 0⟩ := by
  subst huw hbits
  have hlane : s.uw ≠ 0 := fun h0 => by simp [h0] at hpos
  exact get_field hlane hun hfit

end Pack

/-- Settles O54: the stream after the flush is the string of the fields, so each field `UNP.GET`
reads is in the range and is the one pushed. -/
theorem packThenUnpack : Obligations.PackThenUnpack := by
  intro fs w s t u hpos hmax hinv hempty hcount hfs hpush hflush
  obtain ⟨pad, hpad, hend, hinside, hvalue, -⟩ := sbits_after_flush hinv hempty
    (by simpa using fun f hf => ⟨hpos, by omega, hfs f hf⟩) hpush hflush
  rw [bitCount_fields] at hend hinside hvalue
  refine ⟨by omega, fun i hi => get_of_sbits (toNat_ofNat_lane hmax) hpos ?count ?fits ?bits⟩
  case count => exact hi.trans_eq (toNat_ofNat_id hcount).symm
  case fits =>
    have hle : (i + 1) * w ≤ fs.length * w := Nat.mul_le_mul_right w hi
    have hne : 1 * w ≤ (i + 1) * w := Nat.mul_le_mul_right w (Nat.le_add_left 1 i)
    change 8 * s.pos + (i + 1) * w ≤ 8 * u.len
    omega
  case bits =>
    exact Eq.trans (State.sbits_congr u _ _ _ fun _ _ => rfl)
      (sbits_field_of_bitString hfs hvalue hi)

end Sys2Proof.Proofs
end

section
/-! The tree of the Huffman walker (spec/44_huffman.md R270 to R272, R276): the three ends of
`HUF.LOAD`, what a loaded tree promises a walk, and that nothing else touches it. -/

namespace Sys2Proof.Proofs

open Machine

section Load

variable {s t : State} {rs1 rs2 : Reg} {tab : Table}

/-! ### The ends of `HUF.LOAD` (R270, R272) -/

theorem execHufLoad_over_capacity
    (h : s.cap.maxNodes < s.regNat rs1 ∨ s.cap.maxLeaves < s.regNat rs2) :
    execHufLoad rs1 rs2 s = .next (faultState s .unsupportedFeature) :=
  raise_of_not (by omega) _ _ s

section Fits

variable (hnn : s.regNat rs1 ≤ s.cap.maxNodes) (hnl : s.regNat rs2 ≤ s.cap.maxLeaves)

include hnn hnl

theorem execHufLoad_of_table (h : s.readTable (s.regNat rs1) (s.regNat rs2) = some tab) :
    execHufLoad rs1 rs2 s =
      complete ((s.setTree tab.nodes tab.leaves).setPos tab.after) 0 0 := by
  rw [execHufLoad, if_pos ⟨hnn, hnl⟩, h]

theorem execHufLoad_of_no_table (h : s.readTable (s.regNat rs1) (s.regNat rs2) = none) :
    execHufLoad rs1 rs2 s = .next (faultState s.clearTree .corruptData) := by
  rw [execHufLoad, if_pos ⟨hnn, hnl⟩, h]
  exact raise_eq s.clearTree _

end Fits

/-- Only a table that was read lets a load end with status 0. -/
theorem execHufLoad_ended_ok (h : execHufLoad rs1 rs2 s = .next t) (hok : t.Ended .ok) :
    s.regNat rs1 ≤ s.cap.maxNodes ∧ s.regNat rs2 ≤ s.cap.maxLeaves ∧
      ∃ tab, s.readTable (s.regNat rs1) (s.regNat rs2) = some tab ∧
        t = ((s.setTree tab.nodes tab.leaves).setPos tab.after).finish .ok 0 0 := by
  obtain ⟨v, v2, hresp⟩ := hok
  by_cases hcap : s.regNat rs1 ≤ s.cap.maxNodes ∧ s.regNat rs2 ≤ s.cap.maxLeaves
  · obtain ⟨hnn, hnl⟩ := hcap
    cases htab : s.readTable (s.regNat rs1) (s.regNat rs2) with
    | none => rw [execHufLoad_of_no_table hnn hnl htab] at h; cases h; cases hresp
    | some tab =>
      rw [execHufLoad_of_table hnn hnl htab] at h
      exact ⟨hnn, hnl, tab, rfl, complete_cases h⟩
  · rw [execHufLoad_over_capacity (by omega)] at h
    cases h
    cases hresp

end Load

/-! ### A loaded tree (R271) -/

section LoadedTree

variable {s : State} {k b : Nat}

theorem child_lt_hnn (h : s.LoadedTree) (hk : k < s.hnn.toNat) (hb : b < 2)
    (hbl : (s.node k).bl = 0) : (s.node k).ptr.toNat + b < s.hnn.toNat := by
  obtain ⟨-, -, -, hnodes⟩ := h
  have hnode := hnodes k hk
  rw [State.NodeInv, if_pos hbl] at hnode
  omega

theorem terminal_names_leaf (h : s.LoadedTree) (hk : k < s.hnn.toNat) (hbl : (s.node k).bl ≠ 0) :
    (s.node k).ptr.toNat < s.hnl.toNat ∧
      (s.leaf (s.node k).ptr.toNat).clen.toNat = (s.node k).bl.toNat := by
  obtain ⟨-, -, -, hnodes⟩ := h
  have hnode := hnodes k hk
  rwa [State.NodeInv, if_neg hbl] at hnode

end LoadedTree

/-! ### The obligations -/

/-- Settles O15: the commit of a load establishes the tree, every other end and every other command
leaves it, and the entries of a loaded tree point inside it. -/
theorem treeInvariantStandsUntilTheNextLoad : Obligations.TreeInvariantStandsUntilTheNextLoad := by
  refine ⟨fun s t rs1 rs2 hcap h => ⟨fun hok => ?loaded, fun hover => ?kept⟩,
    fun i s t hi h => ?other, fun s t es hin h => ?reset,
    fun s k b hs hk hb => ⟨child_lt_hnn hs hk hb, fun hbl => (terminal_names_leaf hs hk hbl).1⟩⟩
  case loaded =>
    obtain ⟨hnn, hnl, tab, htab, rfl⟩ := execHufLoad_ended_ok h hok
    exact ⟨rfl, loadedTree_setTree hcap hnn hnl htab⟩
  case kept =>
    cases (execHufLoad_over_capacity hover).symm.trans h
    exact ⟨rfl, rfl, rfl, rfl, rfl⟩
  case other =>
    obtain ⟨-, -, -, -, -, -, -, -, -, -, -, htree, -⟩ := onlyTheNamedCommandsWrite i s t h
    exact htree hi
  case reset =>
    cases (step_of_event hin).symm.trans h
    rfl

/-- Settles O60: one check, and the sum fits `HACC`. -/
theorem accumulatorSet : Obligations.AccumulatorSet := fun s rs1 imm =>
  ⟨encode_eq_wordOf (.hufAccset rs1 imm), fun h => ⟨_, toNat_ofNat_id h, if_pos h⟩,
    fun h => raise_of_not (Nat.not_lt.2 h) _ _ s⟩

end Sys2Proof.Proofs
end

section
/-! The table `HUF.LOAD` reads (spec/44_huffman.md R261 to R265, R270): the model's lists of records
and entries against the numbered records of R270, in both directions. -/

namespace Sys2Proof.Proofs

open Machine

/-! ### The node records (R261, R263) -/

/-- What R270, step 3, finds at record `k` of the table at offset `t`. -/
abbrev RecordHolds (s : State) (t : Nat) (S bl p : Nat → Nat) (k : Nat) : Prop :=
  t + S k < s.len ∧ bl k = (Memory.read s.mem (s.base + (t + S k))).toNat ∧ p k < 2 ^ 32 ∧
    ∃ l, s.VarintAt (t + S k + 1) (p k) l ∧ S (k + 1) = S k + 1 + l

/-- Record `k` of the list starts at `S k` and holds `bl k` and `p k`. -/
def ListsRecords (rs : List NodeRecord) (S bl p : Nat → Nat) : Prop :=
  ∀ k r, rs[k]? = some r → r.start = S k ∧ r.bl.toNat = bl k ∧ r.ptr = p k

section Records

variable {s : State} {rs : List NodeRecord} {S bl p : Nat → Nat} {t o c n : Nat}

theorem exists_numbers_of_records (rs : List NodeRecord) (e : Nat) :
    ∃ S bl p, ListsRecords rs S bl p ∧ S rs.length = e := by
  refine ⟨fun k => (rs[k]?.map (·.start)).getD e, fun k => (rs[k]?.map (·.bl.toNat)).getD 0,
    fun k => (rs[k]?.map (·.ptr)).getD 0, fun k r hr => ?_, ?_⟩
  · simp only [hr, Option.map_some, Option.getD_some, and_self]
  · simp only [List.getElem?_eq_none le_rfl, Option.map_none, Option.getD_none]

theorem exists_records_of_numbers (hbl : ∀ k < n, bl k < 2 ^ 8) :
    ∃ rs, rs.length = n ∧ ListsRecords rs S bl p := by
  refine ⟨(List.range n).map fun k => ⟨S k, BitVec.ofNat 8 (bl k), p k⟩, by simp, fun k r hr => ?_⟩
  obtain ⟨j, hj, rfl⟩ := Option.map_eq_some_iff.1 (List.getElem?_map ▸ hr)
  obtain ⟨hk, rfl⟩ := List.getElem?_eq_some_iff.1 hj
  rw [List.length_range] at hk
  simp only [List.getElem_range, BitVec.toNat_ofNat, Nat.mod_eq_of_lt (hbl k hk), and_self]

/-- The first record, or the end where there is none, stands at the first offset. -/
theorem recordsFrom_start (hl : ListsRecords rs S bl p) (h : s.RecordsFrom t o rs (S rs.length)) :
    S 0 = o := by
  cases h with
  | nil => rfl
  | cons => exact (hl 0 _ rfl).1.symm

/-- The records of the model's list are those of R270: each ends where the next starts. -/
theorem recordsFrom_iff (hl : ListsRecords rs S bl p) :
    s.RecordsFrom t (S 0) rs (S rs.length) ↔ ∀ k < rs.length, RecordHolds s t S bl p k := by
  induction rs generalizing S bl p with
  | nil => exact ⟨fun _ => nofun, fun _ => .nil _⟩
  | cons r rs ih =>
    obtain ⟨hstart, hbl, hptr⟩ := hl 0 r rfl
    have htail : ListsRecords rs (fun k => S (k + 1)) (fun k => bl (k + 1)) fun k => p (k + 1) :=
      fun k q hq => hl (k + 1) q hq
    constructor
    · intro h
      cases h with
      | cons _ q l _ _ hlt hq hid hrs =>
        have hnext : S 1 = S 0 + 1 + l := recordsFrom_start htail hrs
        rintro (_ | k) hk
        · exact ⟨hlt, hbl.symm, hptr ▸ hid, l, hptr ▸ decVar_eq_some_iff.1 hq, hnext⟩
        · exact (ih htail).1 (hnext ▸ hrs) k (Nat.lt_of_succ_lt_succ hk)
    · intro h
      obtain ⟨hlt, hbyte, hid, l, hvar, hnext⟩ := h 0 (Nat.succ_pos _)
      obtain rfl : r = ⟨S 0, s.rb (t + S 0), p 0⟩ := by
        cases r
        simp only [NodeRecord.mk.injEq]
        exact ⟨hstart, BitVec.eq_of_toNat_eq (hbl.trans hbyte), hptr⟩
      have hrest := (ih htail).2 fun k hk => h (k + 1) (Nat.succ_lt_succ hk)
      exact .cons _ _ l _ rs hlt (decVar_eq_some_iff.2 hvar) hid (hnext ▸ hrest)

theorem recordsFrom_pairwise {e : Nat} (h : s.RecordsFrom t o rs e) :
    rs.Pairwise (·.start < ·.start) := by
  induction h with
  | nil => exact .nil
  | cons o p l e rs _ _ _ hrs ih =>
    exact .cons (fun r hr => by have := hrs.start_le.2 r hr; simp only; omega) ih

/-- Starts rise, so the record at an offset is the only one there (R264). -/
theorem recordAt_start (hrise : rs.Pairwise (·.start < ·.start)) {r : NodeRecord}
    (hc : rs[c]? = some r) : recordAt rs r.start = some c := by
  induction rs generalizing c with
  | nil => cases hc
  | cons q qs ih =>
    obtain ⟨hq, hqs⟩ := List.pairwise_cons.1 hrise
    cases c with
    | zero => cases hc; exact if_pos rfl
    | succ c =>
      have hne : q.start ≠ r.start := (hq r (List.mem_of_getElem? hc)).ne
      rw [recordAt, if_neg hne, ih hqs hc]
      rfl

theorem rootNonTerminal_iff (hl : ListsRecords rs S bl p) (hlen : 0 < rs.length) :
    rootNonTerminal rs = true ↔ bl 0 = 0 := by
  cases rs with
  | nil => cases hlen
  | cons r rs =>
    obtain ⟨-, hbl, -⟩ := hl 0 r rfl
    rw [rootNonTerminal, beq_iff_eq, ← hbl]
    exact BitVec.toNat_inj.symm

end Records

/-! ### The leaf records (R262) -/

section Leaves

variable {s : State} {lt nl j : Nat}

theorem leafRecord_value_toNat (s : State) (lt j : Nat) :
    (s.leafRecord lt j).value.toNat = s.leSpec 4 (lt + 7 * j) := by
  have hlt : s.le 4 (lt + 7 * j) < 2 ^ 32 := s.le_lt 4 _
  rw [← leSum_eq_leSpec s 4]
  exact toNat_ofNat_id hlt

theorem leafRecord_clen_toNat (s : State) (lt j : Nat) :
    (s.leafRecord lt j).clen.toNat = s.leSpec 3 (lt + 7 * j + 4) := by
  have hlt : s.le 3 (lt + 7 * j + 4) < 2 ^ 24 := s.le_lt 3 _
  rw [← leSum_eq_leSpec s 3]
  exact (BitVec.toNat_ofNat _ _).trans (Nat.mod_eq_of_lt hlt)

theorem getElem?_leafRecords (hj : j < nl) :
    ((List.range nl).map (s.leafRecord lt))[j]? = some (s.leafRecord lt j) := by
  simp [hj]

end Leaves

/-! ### The pointers (R264, R265, R270 step 5) -/

/-- What R270, step 5, asks of the pointer of node `k`; the leaf records stand at offset `lt`. -/
abbrev PointerOk (s : State) (nn nl lt : Nat) (S bl p : Nat → Nat) (k : Nat) : Prop :=
  (bl k = 0 → ∃ c, 1 ≤ c ∧ c + 1 < nn ∧ S c = p k) ∧
    (bl k ≠ 0 → p k < nl ∧ s.leSpec 3 (lt + 7 * p k + 4) = bl k)

/-- What the entry of node `k` holds after the load. -/
abbrev EntryHolds (e : NodeEntry) (nn : Nat) (S bl p : Nat → Nat) (k : Nat) : Prop :=
  e.bl.toNat = bl k ∧ (bl k = 0 → e.ptr.toNat < nn ∧ S e.ptr.toNat = p k) ∧
    (bl k ≠ 0 → e.ptr.toNat = p k)

section Pointers

variable {s : State} {rs : List NodeRecord} {r : NodeRecord} {e : NodeEntry} {S bl p : Nat → Nat}
  {leaves : List LeafEntry} {lt nl k : Nat}

theorem resolveNode_of_child {c : Nat} {q : NodeRecord} (hrise : rs.Pairwise (·.start < ·.start))
    (hbl : r.bl = 0) (hq : rs[c]? = some q) (hptr : q.start = r.ptr) (hpos : 1 ≤ c)
    (hc : c + 1 < rs.length) : resolveNode rs leaves r = some ⟨0, BitVec.ofNat 32 c⟩ := by
  rw [resolveNode, if_pos hbl, ← hptr, recordAt_start hrise hq]
  exact if_pos ⟨hpos, hc⟩

theorem resolveNode_of_leaf {f : LeafEntry} (hbl : r.bl ≠ 0) (hf : leaves[r.ptr]? = some f)
    (hclen : f.clen.toNat = r.bl.toNat) :
    resolveNode rs leaves r = some ⟨r.bl, BitVec.ofNat 32 r.ptr⟩ := by
  rw [resolveNode, if_neg hbl, hf]
  exact if_pos hclen

theorem bl_eq_zero_iff (hl : ListsRecords rs S bl p) (hr : rs[k]? = some r) :
    r.bl = 0 ↔ bl k = 0 := by
  obtain ⟨-, hbl, -⟩ := hl k r hr
  rw [← hbl]
  exact BitVec.toNat_inj.symm

/-- A record resolves where R270 accepts its pointer. -/
theorem exists_resolveNode (hl : ListsRecords rs S bl p) (hrise : rs.Pairwise (·.start < ·.start))
    (hr : rs[k]? = some r) (h : PointerOk s rs.length nl lt S bl p k) :
    ∃ e, resolveNode rs ((List.range nl).map (s.leafRecord lt)) r = some e := by
  obtain ⟨hinner, hterm⟩ := h
  obtain ⟨-, hbl, hptr⟩ := hl k r hr
  by_cases hzero : r.bl = 0
  · obtain ⟨c, hpos, hc, hstart⟩ := hinner ((bl_eq_zero_iff hl hr).1 hzero)
    have hq := List.getElem?_eq_getElem (Nat.lt_of_succ_lt hc)
    obtain ⟨hq0, -⟩ := hl c _ hq
    exact ⟨_, resolveNode_of_child hrise hzero hq (by rw [hq0, hstart, hptr]) hpos hc⟩
  · obtain ⟨hlt, hclen⟩ := hterm (mt (bl_eq_zero_iff hl hr).2 hzero)
    exact ⟨_, resolveNode_of_leaf hzero (getElem?_leafRecords (hptr ▸ hlt))
      (by rw [leafRecord_clen_toNat, hptr, hclen, hbl])⟩

/-- A record that resolves has a pointer R270 accepts, and its entry holds what the record holds. -/
theorem resolveNode_spec (hl : ListsRecords rs S bl p) (hr : rs[k]? = some r)
    (hn : rs.length < 2 ^ 32) (hnl : nl < 2 ^ 32)
    (h : resolveNode rs ((List.range nl).map (s.leafRecord lt)) r = some e) :
    PointerOk s rs.length nl lt S bl p k ∧ EntryHolds e rs.length S bl p k := by
  obtain ⟨-, hbl, hptr⟩ := hl k r hr
  obtain ⟨hzero, c, hat, hpos, hc, rfl⟩ | ⟨hne, f, hf, hclen, rfl⟩ := resolveNode_cases h
  · obtain ⟨q, hq, hstart⟩ := recordAt_some hat
    obtain ⟨hq0, -⟩ := hl c q hq
    have hS : S c = p k := by rw [← hq0, hstart, hptr]
    have hk := (bl_eq_zero_iff hl hr).1 hzero
    have hcnum : (BitVec.ofNat 32 c).toNat = c := toNat_ofNat_id (by omega)
    refine ⟨⟨fun _ => ⟨c, hpos, hc, hS⟩, fun h => absurd hk h⟩, hk.symm, fun _ => ?_,
      fun h => absurd hk h⟩
    rw [hcnum]
    exact ⟨Nat.lt_of_succ_lt hc, hS⟩
  · obtain ⟨hlt, rfl⟩ := List.getElem?_eq_some_iff.1 hf
    rw [List.length_map, List.length_range] at hlt
    rw [List.getElem_map, List.getElem_range, leafRecord_clen_toNat, hptr, hbl] at hclen
    have hk := mt (bl_eq_zero_iff hl hr).2 hne
    have hpnum : (BitVec.ofNat 32 r.ptr).toNat = r.ptr := toNat_ofNat_id (by omega)
    exact ⟨⟨fun h => absurd h hk, fun _ => ⟨hptr ▸ hlt, hclen⟩⟩, hbl, fun h => absurd h hk,
      fun _ => hpnum.trans hptr⟩

theorem exists_resolveNodes {recs : List NodeRecord}
    (h : ∀ r ∈ rs, ∃ e, resolveNode recs leaves r = some e) :
    ∃ es, resolveNodes recs leaves rs = some es := by
  induction rs with
  | nil => exact ⟨[], rfl⟩
  | cons r rs ih =>
    obtain ⟨⟨e, he⟩, hrs⟩ := List.forall_mem_cons.1 h
    obtain ⟨es, hes⟩ := ih hrs
    exact ⟨e :: es, by rw [resolveNodes, he, hes]⟩

end Pointers

/-! ### The whole table (R270) -/

section Whole

variable {s : State} {tab : Table} {S bl p : Nat → Nat} {nn nl : Nat}

theorem readTable_of_records {recs : List NodeRecord} {nodes : List NodeEntry} {l : Nat}
    (h3 : 3 ≤ nn) (hrecs : s.nodeRecords s.pos nn 0 = some (recs, l))
    (hfit : s.pos + l + 7 * nl ≤ s.len) (hroot : rootNonTerminal recs = true)
    (hnodes : resolveNodes recs ((List.range nl).map (s.leafRecord (s.pos + l))) recs =
      some nodes) :
    s.readTable nn nl =
      some ⟨nodes, (List.range nl).map (s.leafRecord (s.pos + l)), s.pos + l + 7 * nl⟩ := by
  rw [State.readTable, if_pos h3, hrecs]
  simp only [if_pos hroot, hnodes]
  exact if_pos hfit

/-- The node records of a legal table, as the model's list. -/
theorem nodeRecords_of_tableAt (h : s.TableAt nn nl S bl p) :
    ∃ rs, rs.length = nn ∧ ListsRecords rs S bl p ∧ rs.Pairwise (·.start < ·.start) ∧
      s.nodeRecords s.pos nn 0 = some (rs, S nn) := by
  obtain ⟨-, h0, hrec, -⟩ := h
  have hbyte : ∀ k < nn, bl k < 2 ^ 8 := fun k hk => by
    obtain ⟨-, hbl, -⟩ := hrec k hk
    exact hbl ▸ BitVec.isLt _
  obtain ⟨rs, rfl, hl⟩ := exists_records_of_numbers (S := S) (p := p) hbyte
  have hfrom := (recordsFrom_iff hl).2 hrec
  exact ⟨rs, rfl, hl, recordsFrom_pairwise hfrom, (s.nodeRecords_iff ..).2 ⟨rfl, h0 ▸ hfrom⟩⟩

/-- A legal table is read, and the entries are those of its numbers. -/
theorem readTable_of_tableAt (hnn : nn < 2 ^ 32) (hnl : nl < 2 ^ 32)
    (h : s.TableAt nn nl S bl p) :
    ∃ nodes, s.readTable nn nl = some ⟨nodes, (List.range nl).map (s.leafRecord (s.pos + S nn)),
        s.pos + S nn + 7 * nl⟩ ∧
      ∀ k < nn, ∃ e, nodes[k]? = some e ∧ EntryHolds e nn S bl p k := by
  obtain ⟨rs, rfl, hl, hrise, hrecs⟩ := nodeRecords_of_tableAt h
  obtain ⟨h3, -, -, hfit, hroot, hptr⟩ := h
  have hresolve : ∀ r ∈ rs, ∃ e, resolveNode rs
      ((List.range nl).map (s.leafRecord (s.pos + S rs.length))) r = some e := fun r hr => by
    obtain ⟨k, hk⟩ := List.mem_iff_getElem?.1 hr
    exact exists_resolveNode hl hrise hk (hptr k (List.getElem?_eq_some_iff.1 hk).1)
  obtain ⟨nodes, hnodes⟩ := exists_resolveNodes hresolve
  have hroot' := (rootNonTerminal_iff hl (by omega)).2 hroot
  refine ⟨nodes, readTable_of_records h3 hrecs hfit hroot' hnodes, fun k hk => ?_⟩
  have hlen := ((resolveNodes_iff _ _ _ _).1 hnodes).length_eq
  have he := List.getElem?_eq_getElem (hlen ▸ hk)
  obtain ⟨r, hr, hres⟩ := resolveNodes_getElem? hnodes he
  exact ⟨_, he, (resolveNode_spec hl hr hnn hnl hres).2⟩

/-- Only a legal table is read. -/
theorem tableAt_of_readTable (hnn : nn < 2 ^ 32) (hnl : nl < 2 ^ 32)
    (h : s.readTable nn nl = some tab) : ∃ S bl p, s.TableAt nn nl S bl p := by
  obtain ⟨h3, rs, l, hrecs, hfit, hroot, hleaves, hnodes, -⟩ := State.readTable_cases h
  obtain ⟨rfl, hfrom⟩ := (s.nodeRecords_iff ..).1 hrecs
  obtain ⟨S, bl, p, hl, rfl⟩ := exists_numbers_of_records rs l
  have h0 : S 0 = 0 := recordsFrom_start hl hfrom
  rw [hleaves] at hnodes
  refine ⟨S, bl, p, h3, h0, (recordsFrom_iff hl).1 (h0.symm ▸ hfrom), hfit,
    (rootNonTerminal_iff hl (by omega)).1 hroot, fun k hk => ?_⟩
  have hall := (resolveNodes_iff _ _ _ _).1 hnodes
  exact (resolveNode_spec hl (List.getElem?_eq_getElem hk) hnn hnl
    (hall.get hk (hall.length_eq ▸ hk))).1

/-- The commit of a table that holds these numbers. -/
theorem holdsTable_setTree {nodes : List NodeEntry}
    (hnodes : ∀ k < nn, ∃ e, nodes[k]? = some e ∧ EntryHolds e nn S bl p k) :
    (s.setTree nodes ((List.range nl).map (s.leafRecord (s.pos + S nn)))).HoldsTable s nn nl
      S bl p := by
  refine ⟨fun k hk => ?_, fun j hj => ?_⟩
  · obtain ⟨e, he, hholds⟩ := hnodes k hk
    rwa [node_setTree he]
  · rw [leaf_setTree (getElem?_leafRecords hj)]
    exact ⟨leafRecord_value_toNat s _ j, leafRecord_clen_toNat s _ j⟩

end Whole

/-! ### The obligation -/

/-- Settles O55: the table is read where one lies, and nowhere else. -/
theorem tableLoad : Obligations.TableLoad := by
  rintro s rs1 rs2 _ _ ⟨-, -, ⟨-, hmaxn⟩, -, hmaxl⟩ rfl rfl
  refine ⟨encode_eq_wordOf (.hufLoad rs1 rs2), execHufLoad_over_capacity,
    fun hnn hnl => ⟨fun S bl p htab => ?legal, fun hnone => ?corrupt⟩⟩
  case legal =>
    obtain ⟨nodes, hread, hnodes⟩ :=
      readTable_of_tableAt (hnn.trans_lt hmaxn) (hnl.trans_lt hmaxl) htab
    obtain ⟨hlenn, hlenl⟩ := readTable_lengths hread
    refine ⟨_, execHufLoad_of_table hnn hnl hread, rfl, ?_, ?_, holdsTable_setTree hnodes⟩
    · exact (toNat_ofNat_id (by omega)).trans hlenn
    · exact (toNat_ofNat_id (by omega)).trans hlenl
  case corrupt =>
    have hread : s.readTable (s.regNat rs1) (s.regNat rs2) = none :=
      Option.eq_none_iff_forall_ne_some.2 fun tab htab =>
        hnone (tableAt_of_readTable (hnn.trans_lt hmaxn) (hnl.trans_lt hmaxl) htab)
    exact ⟨_, execHufLoad_of_no_table hnn hnl hread, rfl⟩

end Sys2Proof.Proofs
end

section
/-! The decode of a symbol (spec/44_huffman.md R275, R278): the walk ends where R275 says, each end
of `HUF.DEC`, and a stream of code words decoded symbol by symbol. -/

namespace Sys2Proof.Proofs

open Machine

/-! ### The walk (R266, R275) -/

/-- What a walk that has consumed `cnt` bits at `RBIT` has still to meet to end after `n` bits. -/
def WalkEndsFrom (s : State) (cnt n : Nat) : Prop :=
  cnt < n ∧ n ≤ 255 ∧ s.rbit + n ≤ 8 * s.len ∧
    (∀ i < n, cnt < i → (s.node (s.pathNode i)).bl = 0) ∧ (s.node (s.pathNode n)).bl.toNat = n

section Walk

variable {s t : State} {w : WalkEnd} {cnt fuel n : Nat}

/-- From the root on, that is the condition of R275. -/
theorem walkEndsFrom_zero_iff : WalkEndsFrom s 0 n ↔ s.WalkEndsAt n :=
  and_assoc.symm

/-- A node with the bit-length of its depth ends the walk. -/
theorem walkEndsFrom_of_end (hlen : s.rbit + cnt < 8 * s.len) (hcnt : cnt < 255)
    (hend : (s.node (s.pathNode (cnt + 1))).bl.toNat = cnt + 1) :
    WalkEndsFrom s cnt n ↔ n = cnt + 1 := by
  constructor
  · rintro ⟨hlt, -, -, hinner, -⟩
    by_contra hne
    have hbl := hinner (cnt + 1) (by omega) (Nat.lt_succ_self cnt)
    rw [hbl] at hend
    cases hend
  · rintro rfl
    exact ⟨Nat.lt_succ_self cnt, hcnt, hlen, fun i _ _ => by omega, hend⟩

/-- A node that does not end the walk is passed only if it is non-terminal. -/
theorem walkEndsFrom_of_inner (hend : (s.node (s.pathNode (cnt + 1))).bl.toNat ≠ cnt + 1) :
    WalkEndsFrom s cnt n ↔
      (s.node (s.pathNode (cnt + 1))).bl = 0 ∧ WalkEndsFrom s (cnt + 1) n := by
  constructor
  · rintro ⟨hlt, hmax, hlen, hinner, hn⟩
    have hne : cnt + 1 ≠ n := by rintro rfl; exact hend hn
    exact ⟨hinner _ (by omega) (Nat.lt_succ_self cnt), by omega, hmax, hlen,
      fun i hi hci => hinner i hi (by omega), hn⟩
  · rintro ⟨hbl, hlt, hmax, hlen, hinner, hn⟩
    refine ⟨by omega, hmax, hlen, fun i hi hci => ?_, hn⟩
    obtain rfl | hlt := Nat.eq_or_lt_of_le (Nat.succ_le_of_lt hci)
    · exact hbl
    · exact hinner i hi hlt

/-- The loop finds exactly the end of the walk; `fuel` is the number of bits up to the 255th. -/
theorem walk_eq_some_iff (hfuel : cnt + fuel = 255) :
    s.walk s.rbit fuel (s.pathNode cnt) cnt = some w ↔
      WalkEndsFrom s cnt w.bits ∧ w.node = s.pathNode w.bits := by
  induction fuel generalizing cnt with
  | zero => simp only [State.walk, WalkEndsFrom, reduceCtorEq, false_iff]; omega
  | succ fuel ih =>
    have hnext : (s.node (s.pathNode cnt)).ptr.toNat + s.sbit (s.rbit + cnt) =
        s.pathNode (cnt + 1) := rfl
    rw [State.walk, hnext]
    split_ifs with hlen hend hinner
    · rw [walkEndsFrom_of_end hlen (by omega) hend, Option.some_inj]
      constructor
      · rintro rfl
        exact ⟨rfl, rfl⟩
      · rintro ⟨hbits, hnode⟩
        obtain ⟨node, bits⟩ := w
        obtain rfl : bits = cnt + 1 := hbits
        obtain rfl : node = s.pathNode (cnt + 1) := hnode
        rfl
    · rw [ih (by omega), walkEndsFrom_of_inner hend, and_assoc, and_iff_right hinner.1]
    · rw [walkEndsFrom_of_inner hend]
      simp only [Config.walkMax, WalkEndsFrom, false_iff] at hinner ⊢
      rintro ⟨⟨hbl, hlt, hmax, -⟩, -⟩
      exact hinner ⟨hbl, by omega⟩
    · simp only [WalkEndsFrom, false_iff]
      omega

theorem decodeSymbol_eq_some_iff :
    s.decodeSymbol = some w ↔ s.WalkEndsAt w.bits ∧ w.node = s.pathNode w.bits :=
  (walk_eq_some_iff (s := s) (cnt := 0) rfl).trans (and_congr_left' walkEndsFrom_zero_iff)

theorem decodeSymbol_of_walkEndsAt (h : s.WalkEndsAt cnt) :
    s.decodeSymbol = some ⟨s.pathNode cnt, cnt⟩ :=
  decodeSymbol_eq_some_iff.2 ⟨h, rfl⟩

theorem decodeSymbol_eq_none (h : ∀ cnt, ¬ s.WalkEndsAt cnt) : s.decodeSymbol = none :=
  Option.eq_none_iff_forall_ne_some.2 fun w hw => h w.bits (decodeSymbol_eq_some_iff.1 hw).1

/-- A walk in a loaded tree stays inside the valid nodes as long as it passes non-terminal ones. -/
theorem pathNode_lt_hnn (htree : s.LoadedTree)
    (hinner : ∀ i < n, 1 ≤ i → (s.node (s.pathNode i)).bl = 0) {i : Nat} (hi : i ≤ n) :
    s.pathNode i < s.hnn.toNat := by
  have ⟨⟨h3, _⟩, _, hroot, _⟩ := htree
  induction i with
  | zero => exact Nat.zero_lt_of_lt h3
  | succ i ih =>
    have hbl : (s.node (s.pathNode i)).bl = 0 := by
      obtain rfl | hpos := Nat.eq_zero_or_pos i
      · exact hroot
      · exact hinner i hi hpos
    exact child_lt_hnn htree (ih (by omega)) (s.sbit_lt (s.rbit + i)) hbl

/-- Where a walk in a loaded tree ends it names a valid leaf record of its own length (R278 (b)). -/
theorem walkEnd_names_leaf (htree : s.LoadedTree) (h : s.WalkEndsAt n) :
    (s.node (s.pathNode n)).ptr.toNat < s.hnl.toNat ∧
      (s.leaf (s.node (s.pathNode n)).ptr.toNat).clen.toNat = n := by
  obtain ⟨⟨hpos, -⟩, -, hinner, hend⟩ := h
  have hterm : (s.node (s.pathNode n)).bl ≠ 0 := fun h0 => by
    rw [h0] at hend
    exact absurd hend (Nat.ne_of_lt hpos)
  have hleaf := terminal_names_leaf htree (pathNode_lt_hnn htree hinner le_rfl) hterm
  rwa [hend] at hleaf

end Walk

/-! ### The ends of `HUF.DEC` (R275) -/

section Decode

variable {s t : State} {rd rd2 : Reg} {w : WalkEnd}

/-- The state after a `HUF.DEC` whose walk ended at `w`. -/
def afterDecode (rd rd2 : Reg) (w : WalkEnd) (s : State) : State :=
  okState s
    { s with
      rbit := s.rbit + w.bits
      hacc := BitVec.ofNat 32 (s.hacc.toNat + s.symbolValue w)
      regs := (s.regs.write rd (BitVec.ofNat 64 (s.symbolValue w))).write rd2
        (BitVec.ofNat 64 w.bits) }
    (BitVec.ofNat 64 (s.symbolValue w)) (BitVec.ofNat 64 w.bits)

theorem execHufDec_of_no_tree (h : s.hvalid = false) :
    execHufDec rd rd2 s = .next (faultState s .illegalCommand) :=
  raise_of_not (by simp [h]) _ _ s

theorem execHufDec_of_no_symbol (htree : s.hvalid = true) (h : s.decodeSymbol = none) :
    execHufDec rd rd2 s = .next (faultState s .corruptData) := by
  rw [execHufDec, if_pos htree, h]
  exact raise_eq s _

theorem execHufDec_of_wide_sum (htree : s.hvalid = true) (hw : s.decodeSymbol = some w)
    (h : 2 ^ 32 ≤ s.hacc.toNat + s.symbolValue w) :
    execHufDec rd rd2 s = .next (faultState s .corruptData) := by
  rw [execHufDec, if_pos htree, hw]
  exact raise_of_not (Nat.not_lt.2 h) _ _ s

theorem execHufDec_of_symbol (htree : s.hvalid = true) (hw : s.decodeSymbol = some w)
    (h : s.hacc.toNat + s.symbolValue w < 2 ^ 32) :
    execHufDec rd rd2 s = .next (afterDecode rd rd2 w s) := by
  rw [execHufDec, if_pos htree, hw]
  exact if_pos h

/-- Everything `HUF.DEC` can do. -/
theorem execHufDec_cases (h : execHufDec rd rd2 s = .next t) :
    (s.hvalid = false ∧ t = faultState s .illegalCommand) ∨
    (s.hvalid = true ∧ s.decodeSymbol = none ∧ t = faultState s .corruptData) ∨
    (∃ w, s.hvalid = true ∧ s.decodeSymbol = some w ∧
      2 ^ 32 ≤ s.hacc.toNat + s.symbolValue w ∧ t = faultState s .corruptData) ∨
    ∃ w, s.hvalid = true ∧ s.decodeSymbol = some w ∧
      s.hacc.toNat + s.symbolValue w < 2 ^ 32 ∧ t = afterDecode rd rd2 w s := by
  cases htree : s.hvalid with
  | false =>
    cases (execHufDec_of_no_tree htree).symm.trans h
    exact .inl ⟨rfl, rfl⟩
  | true =>
    cases hw : s.decodeSymbol with
    | none =>
      cases (execHufDec_of_no_symbol htree hw).symm.trans h
      exact .inr (.inl ⟨rfl, rfl, rfl⟩)
    | some w =>
      obtain hfit | hwide := Nat.lt_or_ge (s.hacc.toNat + s.symbolValue w) (2 ^ 32)
      · cases (execHufDec_of_symbol htree hw hfit).symm.trans h
        exact .inr (.inr (.inr ⟨w, rfl, rfl, hfit, rfl⟩))
      · cases (execHufDec_of_wide_sum htree hw hwide).symm.trans h
        exact .inr (.inr (.inl ⟨w, rfl, rfl, hwide, rfl⟩))

theorem execHufDec_ended_ok (h : execHufDec rd rd2 s = .next t) (hok : t.Ended .ok) :
    ∃ w, s.hvalid = true ∧ s.decodeSymbol = some w ∧
      s.hacc.toNat + s.symbolValue w < 2 ^ 32 ∧ t = afterDecode rd rd2 w s := by
  obtain ⟨v, v2, hresp⟩ := hok
  obtain ⟨-, rfl⟩ | ⟨-, -, rfl⟩ | ⟨w, -, -, -, rfl⟩ | hdec := execHufDec_cases h
  · cases hresp
  · cases hresp
  · cases hresp
  · exact hdec

/-- A symbol fits a register. -/
theorem toNat_ofNat_symbolValue (s : State) (w : WalkEnd) :
    (BitVec.ofNat 64 (s.symbolValue w)).toNat = s.symbolValue w :=
  toNat_ofNat_of_lt ((s.leaf (s.node w.node).ptr.toNat).value.isLt.trans (by decide))

theorem symbolValue_pathNode (s : State) (cnt : Nat) :
    s.symbolValue ⟨s.pathNode cnt, cnt⟩ = s.walkValue cnt := rfl

theorem symbolValue_congr (hn : t.hn = s.hn) (hl : t.hl = s.hl) (w : WalkEnd) :
    t.symbolValue w = s.symbolValue w := by
  simp only [State.symbolValue, State.node, State.leaf, hn, hl]

end Decode

/-! ### Streams of code words (R278) -/

section Stream

variable {s t : State} {path bs : List Bool} {cur last i j p : Nat}

theorem pathLeads_congr (hn : t.hn = s.hn) :
    t.pathLeads cur path last ↔ s.pathLeads cur path last := by
  induction path generalizing cur with
  | nil => rfl
  | cons b bs ih => simp only [State.pathLeads, State.node, hn, ih]

/-- Code words are a matter of the node table alone. -/
theorem codeWord_congr (h : s.CodeWord path j) (hn : t.hn = s.hn) : t.CodeWord path j := by
  simpa only [State.CodeWord, pathLeads_congr hn, State.node, hn] using h

theorem streamIs_of_append (h : s.StreamIs p (path ++ bs)) :
    s.StreamIs p path ∧ s.StreamIs (p + path.length) bs := by
  obtain ⟨hlen, hbits⟩ := h
  rw [List.length_append] at hlen
  refine ⟨⟨by omega, fun k hk => ?_⟩, by omega, fun k hk => ?_⟩
  · rw [hbits k (by rw [List.length_append]; omega), List.getElem_append_left hk]
  · rw [Nat.add_assoc, hbits (path.length + k) (by rw [List.length_append]; omega),
      List.getElem_append_right (Nat.le_add_right _ _)]
    simp only [Nat.add_sub_cancel_left]

/-- Where the stream holds a path, the walk follows it. -/
theorem pathNode_of_pathLeads (hlead : s.pathLeads (s.pathNode i) path last)
    (hbits : ∀ k (h : k < path.length), s.bitSpec (s.rbit + (i + k)) = (path[k]).toNat) :
    s.pathNode (i + path.length) = last ∧
      ∀ k < path.length, (s.node (s.pathNode (i + k))).bl = 0 := by
  induction path generalizing i with
  | nil => exact ⟨hlead, nofun⟩
  | cons b bs ih =>
    obtain ⟨hbl, hrest⟩ := hlead
    have hb : s.bitSpec (s.rbit + i) = b.toNat := hbits 0 (Nat.succ_pos _)
    rw [← hb] at hrest
    obtain ⟨hlast, hinner⟩ := ih (i := i + 1) hrest fun k hk => by
      rw [Nat.add_assoc i, Nat.add_comm 1]
      exact hbits (k + 1) (Nat.succ_lt_succ hk)
    refine ⟨by rwa [List.length_cons, Nat.add_comm _ 1, ← Nat.add_assoc], fun k hk => ?_⟩
    cases k with
    | zero => exact hbl
    | succ k =>
      rw [Nat.add_comm k 1, ← Nat.add_assoc]
      exact hinner k (Nat.lt_of_succ_lt_succ hk)

/-- A code word in the stream at `RBIT` is a walk that ends with it and yields its value. -/
theorem walkEndsAt_of_codeWord (h : s.CodeWord path j) (hs : s.StreamIs s.rbit path) :
    s.WalkEndsAt path.length ∧ s.walkValue path.length = (s.leaf j).value.toNat := by
  obtain ⟨hne, hmax, last, hlead, hend, hleaf⟩ := h
  obtain ⟨hlen, hbits⟩ := hs
  obtain ⟨rfl, hinner⟩ := pathNode_of_pathLeads (i := 0) hlead
    (by simpa only [Nat.zero_add] using hbits)
  simp only [Nat.zero_add] at hinner hend hleaf
  refine ⟨⟨⟨List.length_pos_of_ne_nil hne, hmax⟩, hlen, fun k hk _ => hinner k hk, hend⟩, ?_⟩
  rw [State.walkValue, hleaf]

/-- `HUF.DEC` at a code word delivers the value of its leaf record and moves behind it. -/
theorem okExec_hufDec_of_codeWord (htree : s.hvalid = true) (h : s.CodeWord path j)
    (hs : s.StreamIs s.rbit path)
    (hsum : s.hacc.toNat + (s.leaf j).value.toNat < 2 ^ 32) :
    ∃ w, s.symbolValue w = (s.leaf j).value.toNat ∧ w.bits = path.length ∧
      okExec (.hufDec .x1 .x2) s = some (afterDecode .x1 .x2 w s) := by
  obtain ⟨hend, hvalue⟩ := walkEndsAt_of_codeWord h hs
  rw [← symbolValue_pathNode] at hvalue
  rw [← hvalue] at hsum
  exact ⟨_, hvalue, rfl, okExec_eq_some.2
    ⟨execHufDec_of_symbol htree (decodeSymbol_of_walkEndsAt hend) hsum, _, _, rfl⟩⟩

theorem afterDecode_reg_x1 (s : State) (w : WalkEnd) :
    ((afterDecode .x1 .x2 w s).reg .x1).toNat = s.symbolValue w :=
  toNat_ofNat_symbolValue s w

theorem decodeAll_succ {m : Nat} {vs : List Nat} {u : State}
    (ht : okExec (.hufDec .x1 .x2) s = some t) (h : decodeAll m t = some (vs, u)) :
    decodeAll (m + 1) s = some ((t.reg .x1).toNat :: vs, u) := by
  rw [decodeAll, ht]
  exact congrArg (Option.map _) h

end Stream

/-! ### The obligations -/

/-- Settles O56: the walk that ends is the one the loop finds, and the sum is checked last. -/
theorem symbolDecode : Obligations.SymbolDecode := by
  intro s rd rd2
  refine ⟨encode_eq_wordOf (.hufDec rd rd2), execHufDec_of_no_tree, fun htree =>
    ⟨fun cnt hcnt => ?_, fun hnone => execHufDec_of_no_symbol htree (decodeSymbol_eq_none hnone)⟩⟩
  have hw := decodeSymbol_of_walkEndsAt hcnt
  rw [← symbolValue_pathNode]
  exact ⟨fun hfit => ⟨_, execHufDec_of_symbol htree hw hfit, rfl, toNat_ofNat_id hfit⟩,
    execHufDec_of_wide_sum htree hw⟩

/-- Settles O57: the walk ended, and in a loaded tree its end names a leaf record of its length. -/
theorem decodeConsumesTheCodeLength : Obligations.DecodeConsumesTheCodeLength := by
  rintro s t rd rd2 v l ⟨-, hloaded, -⟩ h hresp
  obtain ⟨w, htree, hw, hfit, rfl⟩ := execHufDec_ended_ok h ⟨v, l, hresp⟩
  cases hresp
  obtain ⟨hend, hnode⟩ := decodeSymbol_eq_some_iff.1 hw
  obtain ⟨hleaf, hclen⟩ := walkEnd_names_leaf (hloaded htree) hend
  obtain ⟨⟨hpos, hmax⟩, -⟩ := hend
  rw [toNat_ofNat_symbolValue, toNat_ofNat_of_lt (by omega)]
  refine ⟨hpos, hmax, rfl, toNat_ofNat_id hfit, _, hleaf, ?_, hclen⟩
  rw [State.symbolValue, hnode]

/-- Settles O58: the walk is the same in both states, so each end of the one is that of the
other. -/
theorem decodeDependsOnlyOnTheStream : Obligations.DecodeDependsOnlyOnTheStream := by
  intro s s' t t' rd rd2 hvalid hn hl hacc hrbit hbits h h'
  have hwalk : s'.decodeSymbol = s.decodeSymbol := by
    rw [State.decodeSymbol, hrbit]
    refine State.walk_congr s s' _ _ _ _ hn fun j hj => ?_
    obtain ⟨hrange, hbit⟩ := hbits j (by simpa using hj)
    exact ⟨hrange.symm, hbit⟩
  have hvalue := symbolValue_congr hn hl
  obtain ⟨htree, rfl⟩ | ⟨htree, hw, rfl⟩ | ⟨w, htree, hw, hsum, rfl⟩ | ⟨w, htree, hw, hsum, rfl⟩ :=
    execHufDec_cases h
  · cases (execHufDec_of_no_tree (hvalid.trans htree)).symm.trans h'
    exact ⟨rfl, hrbit, hacc⟩
  · cases (execHufDec_of_no_symbol (hvalid.trans htree) (hwalk.trans hw)).symm.trans h'
    exact ⟨rfl, hrbit, hacc⟩
  · rw [← hacc, ← hvalue] at hsum
    cases (execHufDec_of_wide_sum (hvalid.trans htree) (hwalk.trans hw) hsum).symm.trans h'
    exact ⟨rfl, hrbit, hacc⟩
  · rw [← hacc, ← hvalue] at hsum
    cases (execHufDec_of_symbol (hvalid.trans htree) (hwalk.trans hw) hsum).symm.trans h'
    simp only [afterDecode, hvalue, hrbit, hacc, and_self]

/-- Settles O59: the first code word is the walk at `RBIT`, and the state after it has the same tree
and the rest of the stream. -/
theorem decodeReproducesTheSymbols : Obligations.DecodeReproducesTheSymbols := by
  intro ws
  induction ws with
  | nil => exact fun s _ _ _ _ => ⟨s, rfl, rfl, rfl⟩
  | cons q ws ih =>
    intro s htree hcodes hstream hsum
    obtain ⟨hcode, hcodes⟩ := List.forall_mem_cons.1 hcodes
    obtain ⟨hhead, hrest⟩ := streamIs_of_append hstream
    simp only [List.map_cons, List.sum_cons, ← Nat.add_assoc] at hsum ⊢
    obtain ⟨w, hvalue, hlen, hdec⟩ :=
      okExec_hufDec_of_codeWord htree hcode hhead (Nat.lt_of_le_of_lt (Nat.le_add_right _ _) hsum)
    have hacc : (afterDecode .x1 .x2 w s).hacc.toNat =
        s.hacc.toNat + (s.leaf q.2).value.toNat :=
      hvalue ▸ toNat_ofNat_id (by omega)
    have hrbit : (afterDecode .x1 .x2 w s).rbit = s.rbit + q.1.length := hlen ▸ rfl
    obtain ⟨u, hall, hrbitu, haccu⟩ := ih (afterDecode .x1 .x2 w s) htree
      (fun r hr => codeWord_congr (hcodes r hr) rfl) (hrbit ▸ hrest) (hacc ▸ hsum)
    refine ⟨u, ?_, hrbit ▸ hrbitu, hacc ▸ haccu⟩
    rw [List.length_cons, decodeAll_succ hdec hall, afterDecode_reg_x1, hvalue]
    rfl

end Sys2Proof.Proofs
end

section
/-! How a command ends, whatever the sticky error is (spec/60_exceptions.md R305, R307): each
command run twice, from states that differ in the sticky error only. `exec_endsAlike` says for all
commands that both runs end alike, and in which state a fault is taken. -/

namespace Sys2Proof.Proofs

open Machine

/-! ### The state with another sticky error -/

/-- `s` with another sticky error. -/
def withError (s : State) (e : Status) (q : BitVec 64) : State := { s with err := e, eseq := q }

/-- What a fault records is another sticky error and nothing else (R306). -/
theorem recordError_eq_withError (s : State) (st : Status) :
    s.recordError st = withError s (if s.err = .ok then st else s.err)
      (if s.err = .ok then s.seq else s.eseq) := by
  unfold State.recordError
  split <;> rfl

section Reads

variable (s : State) (e : Status) (q : BitVec 64)

theorem le_withError (k off : Nat) : (withError s e q).le k off = s.le k off :=
  s.le_congr _ k off off fun _ _ => rfl

theorem sbits_withError (p n : Nat) : (withError s e q).sbits p n = s.sbits p n :=
  s.sbits_congr _ p n fun _ _ => rfl

theorem field_withError (idx : Nat) : (withError s e q).field idx = s.field idx :=
  sbits_withError s e q _ _

theorem fields_withError (first count : Nat) :
    (withError s e q).fields first count = s.fields first count :=
  List.map_congr_left fun _ _ => field_withError s e q _

theorem decVar_withError (off : Nat) : (withError s e q).decVar off = s.decVar off :=
  s.decVar_congr _ off rfl fun _ _ => rfl

theorem readTable_withError (nn nl : Nat) :
    (withError s e q).readTable nn nl = s.readTable nn nl :=
  s.readTable_congr _ nn nl rfl rfl fun _ _ => rfl

theorem decodeSymbol_withError : (withError s e q).decodeSymbol = s.decodeSymbol :=
  s.walk_congr _ s.rbit _ 0 0 rfl fun _ _ => ⟨Iff.rfl, fun _ => rfl⟩

/-- `STATUS` and `ESEQ` are the only CSRs that show the sticky error (R26, R28). -/
theorem csr_withError {k : Nat} (hk : 2 ≤ k) : (withError s e q).csr k = s.csr k := by
  obtain hlt | hge := Nat.lt_or_ge k 20
  · interval_cases k <;> rfl
  · rw [csr_eq_none _ hge, csr_eq_none _ hge]

end Reads

/-! ### What a fault leaves changed, the sticky error apart (R305) -/

/-- The state in which command `i`, begun in `s`, takes a fault: `s` but for the two exceptions of
R305. -/
def faultBase (i : Instr) (s : State) : State :=
  match i with
  | .bcGetvar _ rd2 | .bcGetvaro _ rd2 _ _ => s.setReg rd2 sentinel
  | .hufLoad rs1 rs2 =>
    if s.regNat rs1 ≤ s.cap.maxNodes ∧ s.regNat rs2 ≤ s.cap.maxLeaves then s.clearTree else s
  | _ => s

/-- The second value in the response of a fault of command `i`. -/
def faultValue : Instr → Word
  | .bcGetvar _ _ | .bcGetvaro _ _ _ _ => sentinel
  | _ => 0

/-- `EndsAlike i s e q o o'`: how `i` ends if it answers `o` in `s` and `o'` in `withError s e q`.
Both are successes whose states differ at most in the sticky error, or both are the same fault, each
taken in the state R305 names. -/
inductive EndsAlike (i : Instr) (s : State) (e : Status) (q : BitVec 64) : Out → Out → Prop
  | complete {u u' : State} {v w : Word} (h : u' = withError u u'.err u'.eseq) :
      EndsAlike i s e q (complete u v w) (complete u' v w)
  | fault {u : State} {st : Status} {w : Word} (hu : u = faultBase i s) (hw : w = faultValue i) :
      EndsAlike i s e q (raiseWith st 0 w u) (raiseWith st 0 w (withError u e q))

namespace EndsAlike

variable {i : Instr} {s t u : State} {e : Status} {q : BitVec 64}

theorem ite {c : Prop} [Decidable c] {o₁ o₁' o₂ o₂' : Out} (ht : c → EndsAlike i s e q o₁ o₁')
    (hf : ¬c → EndsAlike i s e q o₂ o₂') :
    EndsAlike i s e q (if c then o₁ else o₂) (if c then o₁' else o₂') := by
  split
  · exact ht ‹_›
  · exact hf ‹_›

theorem deliver {rd : Reg} {v v' : Word} (hv : v' = v) :
    EndsAlike i s e q (deliver rd v u) (deliver rd v' (withError u e q)) := by
  subst hv
  exact .complete rfl

/-- Two such next states differ in the sticky error only. -/
theorem eq_withError (h : EndsAlike i s e q (.next t) (.next u)) :
    u = withError t u.err u.eseq := by
  cases h with
  | complete h => exact congrArg (fun x : State => x.finish .ok _ _) h
  | fault =>
    rw [recordError_eq_withError, recordError_eq_withError]
    rfl

end EndsAlike

/-! ### The shared operations -/

section Shared

variable {i : Instr} {s : State} {e : Status} {q : BitVec 64} (hi : s = faultBase i s)
  (hv : 0 = faultValue i)
include hi hv

theorem withField_endsAlike {idx : Nat} {use use' : Nat → Out}
    (huse : ∀ f, EndsAlike i s e q (use f) (use' f)) :
    EndsAlike i s e q (withField idx s use) (withField idx (withError s e q) use') := by
  refine .ite (fun _ => .fault hi hv) fun _ => .ite (fun _ => .fault hi hv) fun _ =>
    .ite (fun _ => ?_) fun _ => .fault hi hv
  rw [field_withError]
  exact huse _

theorem withRun_endsAlike {first count : Nat} {use use' : List Nat → Out}
    (huse : ∀ fs, EndsAlike i s e q (use fs) (use' fs)) :
    EndsAlike i s e q (withRun first count s use) (withRun first count (withError s e q) use') := by
  refine .ite (fun _ => .fault hi hv) fun _ => .ite (fun _ => .fault hi hv) fun _ =>
    .ite (fun _ => .fault hi hv) fun _ => .ite (fun _ => ?_) fun _ => .fault hi hv
  rw [fields_withError]
  exact huse _

end Shared

/-! ### Every command -/

section Commands

variable (s : State) (e : Status) (q : BitVec 64)

theorem execCsrr_endsAlike {imm : Nat} (rd : Reg) (hcsr : (withError s e q).csr imm = s.csr imm) :
    EndsAlike (.csrr rd imm) s e q (execCsrr rd imm s) (execCsrr rd imm (withError s e q)) := by
  unfold execCsrr
  rw [hcsr]
  split
  · exact .deliver rfl
  · exact .fault rfl rfl

theorem execBcGetvar_endsAlike (rd rd2 : Reg) : EndsAlike (.bcGetvar rd rd2) s e q
    (execBcGetvar rd rd2 s) (execBcGetvar rd rd2 (withError s e q)) := by
  have hdec : (withError s e q).decVar (withError s e q).pos = s.decVar s.pos :=
    decVar_withError s e q s.pos
  unfold execBcGetvar
  rw [hdec]
  split
  · exact .fault rfl rfl
  · exact .complete rfl

theorem execBcGetvaro_endsAlike (rd rd2 rs1 : Reg) (imm : Nat) :
    EndsAlike (.bcGetvaro rd rd2 rs1 imm) s e q (execBcGetvaro rd rd2 rs1 imm s)
      (execBcGetvaro rd rd2 rs1 imm (withError s e q)) := by
  have hdec : (withError s e q).decVar ((withError s e q).effective rs1 imm) =
      s.decVar (s.effective rs1 imm) := decVar_withError s e q _
  unfold execBcGetvaro
  rw [hdec]
  split
  · exact .fault rfl rfl
  · exact .complete rfl

theorem execUnpHdr_endsAlike (rd : Reg) : EndsAlike (.unpHdr rd) s e q (execUnpHdr rd s)
    (execUnpHdr rd (withError s e q)) := by
  have hdec : (withError s e q).decVar ((withError s e q).pos + 1) = s.decVar (s.pos + 1) :=
    decVar_withError s e q _
  refine .ite (fun _ => .ite (fun _ => ?_) fun _ => .fault rfl rfl) fun _ => .fault rfl rfl
  rw [hdec]
  split
  · exact .fault rfl rfl
  · exact .ite (fun _ => .ite (fun _ => .deliver rfl) fun _ => .fault rfl rfl)
      fun _ => .fault rfl rfl

theorem execUnpGet_endsAlike (rd rs1 : Reg) (imm : Nat) : EndsAlike (.unpGet rd rs1 imm) s e q
    (execUnpGet rd rs1 imm s) (execUnpGet rd rs1 imm (withError s e q)) :=
  withField_endsAlike rfl rfl fun _ => .deliver rfl

theorem execUnpAt_endsAlike (rd rs1 : Reg) (imm : Nat) : EndsAlike (.unpAt rd rs1 imm) s e q
    (execUnpAt rd rs1 imm s) (execUnpAt rd rs1 imm (withError s e q)) :=
  withField_endsAlike rfl rfl fun _ => .ite (fun _ => .deliver rfl) fun _ => .fault rfl rfl

theorem execUnpRun_endsAlike (rs1 rs2 : Reg) : EndsAlike (.unpRun rs1 rs2) s e q
    (execUnpRun rs1 rs2 s) (execUnpRun rs1 rs2 (withError s e q)) :=
  withRun_endsAlike rfl rfl fun _ => .complete rfl

theorem execUnpRunref_endsAlike (rs1 rs2 : Reg) : EndsAlike (.unpRunref rs1 rs2) s e q
    (execUnpRunref rs1 rs2 s) (execUnpRunref rs1 rs2 (withError s e q)) :=
  withRun_endsAlike rfl rfl fun _ => .ite (fun _ => .complete rfl) fun _ => .fault rfl rfl

theorem execHufLoad_endsAlike (rs1 rs2 : Reg) : EndsAlike (.hufLoad rs1 rs2) s e q
    (execHufLoad rs1 rs2 s) (execHufLoad rs1 rs2 (withError s e q)) := by
  have htab : (withError s e q).readTable ((withError s e q).regNat rs1)
      ((withError s e q).regNat rs2) = s.readTable (s.regNat rs1) (s.regNat rs2) :=
    readTable_withError s e q _ _
  refine .ite (fun hcap => ?_) fun hcap => .fault (if_neg hcap).symm rfl
  rw [htab]
  split
  · exact .fault (u := s.clearTree) (if_pos hcap).symm rfl
  · exact .complete rfl

theorem execHufDec_endsAlike (rd rd2 : Reg) : EndsAlike (.hufDec rd rd2) s e q
    (execHufDec rd rd2 s) (execHufDec rd rd2 (withError s e q)) := by
  refine .ite (fun _ => ?_) fun _ => .fault rfl rfl
  rw [decodeSymbol_withError]
  split
  · exact .fault rfl rfl
  · exact .ite (fun _ => .complete rfl) fun _ => .fault rfl rfl

variable {s e q}

/-- Every command ends alike in both, but for a `CSRR` that reads the sticky error itself. -/
theorem exec_endsAlike (i : Instr)
    (hcsr : ∀ rd imm, i = .csrr rd imm → (withError s e q).csr imm = s.csr imm) :
    EndsAlike i s e q (exec i s) (exec i (withError s e q)) := by
  cases i with
  | nop | clrerr | bcReset | brOpen => exact .complete rfl
  | li | lih | mov | brHasnext => exact .deliver rfl
  | csrr rd imm => exact execCsrr_endsAlike s e q rd (hcsr rd imm rfl)
  | bcSetrange | bcSeek | brSeek | unpSel | unpBase | unpCount | hufAccset | bcPut8 | bcPut16
  | bcPut32 | bcPut64 | bcPuto8 | bcPuto16 | bcPuto32 | bcPuto64 =>
    exact .ite (fun _ => .complete rfl) fun _ => .fault rfl rfl
  | bcGet8 | bcGet16 | bcGet32 | bcGet64 | bcGeto8 | bcGeto16 | bcGeto32 | bcGeto64 =>
    exact .ite (fun _ => .deliver (congrArg _ (le_withError ..))) fun _ => .fault rfl rfl
  | bcPutvar | unpRd | unpMinw => exact .ite (fun _ => .deliver rfl) fun _ => .fault rfl rfl
  | bcGetvar rd rd2 => exact execBcGetvar_endsAlike s e q rd rd2
  | bcGetvaro rd rd2 rs1 imm => exact execBcGetvaro_endsAlike s e q rd rd2 rs1 imm
  | brNext | brNextv =>
    exact .ite (fun _ => .ite (fun _ => .deliver (congrArg _ (sbits_withError ..)))
      fun _ => .fault rfl rfl) fun _ => .fault rfl rfl
  | bwPush | bwPushv =>
    exact .ite (fun _ => .ite (fun _ => .complete rfl) fun _ => .fault rfl rfl)
      fun _ => .fault rfl rfl
  | bwFlush =>
    exact .ite (fun _ => .complete rfl) fun _ =>
      .ite (fun _ => .complete rfl) fun _ => .fault rfl rfl
  | unpHdr rd => exact execUnpHdr_endsAlike s e q rd
  | unpGet rd rs1 imm => exact execUnpGet_endsAlike s e q rd rs1 imm
  | unpAt rd rs1 imm => exact execUnpAt_endsAlike s e q rd rs1 imm
  | unpRun rs1 rs2 => exact execUnpRun_endsAlike s e q rs1 rs2
  | unpRunref rs1 rs2 => exact execUnpRunref_endsAlike s e q rs1 rs2
  | hufLoad rs1 rs2 => exact execHufLoad_endsAlike s e q rs1 rs2
  | hufDec rd rd2 => exact execHufDec_endsAlike s e q rd rd2

end Commands

/-! ### The obligation -/

/-- Settles O20: both runs end alike, and states that end alike differ in the sticky error only. -/
theorem noCommandDependsOnTheStickyError : Obligations.NoCommandDependsOnTheStickyError := by
  intro i s t u e q hcsr ht hu
  have h : EndsAlike i s e q (exec i s) (exec i (withError s e q)) :=
    exec_endsAlike i fun rd imm hi => csr_withError s e q (hcsr rd imm hi)
  exact (ht ▸ hu ▸ h).eq_withError

end Sys2Proof.Proofs
end

section
/-! The rules of spec/60_exceptions.md over all commands: which statuses end a command (R300, R303,
R310), and what a fault changes (R305) and records (R306). The writes of a command are read off
`exec_runs`, the state a fault is taken in off `exec_endsAlike`. -/

namespace Sys2Proof.Proofs

open Machine

section Commands

variable {i : Instr} {s t u : State} {r : Response}

/-! ### Statuses (R300, R310) -/

theorem exec_responds (i : Instr) (s : State) : ∃ t r, exec i s = .next t ∧ t.resp = some r := by
  generalize ho : exec i s = o
  cases ho ▸ exec_runs s i with
  | ok | fault => exact ⟨_, _, rfl, rfl⟩

theorem exec_status (h : exec i s = .next t) (hr : t.resp = some r) :
    r.status = .ok ∨ r.status ∈ i.mayRaise := by
  cases h ▸ exec_runs s i with
  | ok => cases hr; exact .inl rfl
  | fault _ hst => cases hr; exact .inr hst

theorem Update.input_eq (h : Update i s u) : u.input = s.input := by cases h <;> rfl

/-! ### The sticky error (R306) -/

theorem Update.error_eq (h : Update i s u) (hi : i ≠ .clrerr) :
    (u.err, u.eseq) = (s.err, s.eseq) := by
  cases h with
  | acknowledge hw => exact absurd hw hi
  | _ => rfl

theorem Writes.error_eq (h : Writes i s u) (hi : i ≠ .clrerr) : u.err = s.err ∧ u.eseq = s.eseq :=
  Prod.mk.inj (h.keeps (fun x => (x.err, x.eseq)) fun hu => hu.error_eq hi)

theorem exec_error_of_ok (hi : i ≠ .clrerr) (h : exec i s = .next t) (hr : t.resp = some r)
    (hok : r.status = .ok) : t.err = s.err ∧ t.eseq = s.eseq := by
  cases h ▸ exec_runs s i with
  | ok hw => exact hw.error_eq hi
  | fault _ hst =>
    cases hr
    exact absurd hok (ne_of_mem_of_not_mem hst (ok_notMem_mayRaise i))

/-- `CLRERR` raises nothing, so the fault finds the sticky error as the command did. -/
theorem exec_error_of_fault (h : exec i s = .next t) (hr : t.resp = some r) (hne : r.status ≠ .ok) :
    t.err = (if s.err = .ok then r.status else s.err) ∧
      t.eseq = if s.err = .ok then s.seq else s.eseq := by
  cases h ▸ exec_runs s i with
  | ok =>
    cases hr
    exact absurd rfl hne
  | fault hw hst =>
    cases hr
    have hi : i ≠ .clrerr := by rintro rfl; cases hst
    have hseq := hw.keeps State.seq Update.seq_eq
    obtain ⟨herr, heseq⟩ := hw.error_eq hi
    simp [herr, heseq, hseq]

/-! ### The state after a fault (R305) -/

theorem faultBase_eq_self (hvar : ∀ rd rd2, i ≠ .bcGetvar rd rd2)
    (hvaro : ∀ rd rd2 rs1 imm, i ≠ .bcGetvaro rd rd2 rs1 imm)
    (hload : ∀ rs1 rs2, i = .hufLoad rs1 rs2 →
      s.cap.maxNodes < s.regNat rs1 ∨ s.cap.maxLeaves < s.regNat rs2) : faultBase i s = s := by
  cases i with
  | bcGetvar rd rd2 => exact absurd rfl (hvar rd rd2)
  | bcGetvaro rd rd2 rs1 imm => exact absurd rfl (hvaro rd rd2 rs1 imm)
  | hufLoad rs1 rs2 =>
    have hover := hload rs1 rs2 rfl
    exact if_neg (by omega)
  | _ => rfl

theorem faultValue_eq_zero (hvar : ∀ rd rd2, i ≠ .bcGetvar rd rd2)
    (hvaro : ∀ rd rd2 rs1 imm, i ≠ .bcGetvaro rd rd2 rs1 imm) : faultValue i = 0 := by
  cases i with
  | bcGetvar rd rd2 => exact absurd rfl (hvar rd rd2)
  | bcGetvaro rd rd2 rs1 imm => exact absurd rfl (hvaro rd rd2 rs1 imm)
  | _ => rfl

theorem EndsAlike.eq_raiseWith {e : Status} {q : BitVec 64} {o : Out}
    (h : EndsAlike i s e q (.next t) o) (hr : t.resp = some r) (hne : r.status ≠ .ok) :
    .next t = raiseWith r.status 0 (faultValue i) (faultBase i s) := by
  cases h with
  | complete =>
    cases hr
    exact absurd rfl hne
  | fault hu hw =>
    cases hr
    subst hu hw
    rfl

theorem exec_eq_raiseWith (h : exec i s = .next t) (hr : t.resp = some r) (hne : r.status ≠ .ok) :
    .next t = raiseWith r.status 0 (faultValue i) (faultBase i s) := by
  have hends : EndsAlike i s s.err s.eseq (exec i s) (exec i s) := exec_endsAlike i fun _ _ _ => rfl
  rw [h] at hends
  exact hends.eq_raiseWith hr hne

/-- A varint get raises `CorruptData` only, with the sentinel (R170). -/
theorem eq_varFaultState {rd2 : Reg} (hmay : i.mayRaise = [.corruptData])
    (hbase : faultBase i s = s.setReg rd2 sentinel) (hvalue : faultValue i = sentinel)
    (h : exec i s = .next t) (hr : t.resp = some r) (hne : r.status ≠ .ok) :
    t = varFaultState s rd2 := by
  have hst : r.status = .corruptData :=
    List.mem_singleton.1 (hmay ▸ (exec_status h hr).resolve_left hne)
  have hfault := exec_eq_raiseWith h hr hne
  rw [hst, hbase, hvalue] at hfault
  exact failVar_cases hfault.symm

end Commands

/-! ### The obligations -/

/-- Settles O16: code 4 stands in no column of R310, and no write touches the host's events or the
capacities. -/
theorem everyCommandResponds : Obligations.EveryCommandResponds := by
  intro i s
  obtain ⟨t, r, h, hr⟩ := exec_responds i s
  refine ⟨t, r, h, hr, ?_, exec_keeps State.input Update.input_eq h,
    exec_keeps State.cap Update.cap_eq h⟩
  obtain hok | hmem := exec_status h hr
  · rw [hok]; decide
  · exact ne_of_mem_of_not_mem hmem (unimplementedOperation_notMem_mayRaise i)

/-- Settles O26: `exec_runs` takes the status of each fault from the column of R310. -/
theorem commandsRaiseOnlyTheirStatuses : Obligations.CommandsRaiseOnlyTheirStatuses :=
  fun _ _ _ _ => exec_status

/-- Settles O18: every fault is `raiseWith` in the state `faultBase` names. -/
theorem faultsArePrecise : Obligations.FaultsArePrecise := by
  refine ⟨illegalWordsOnlyRaise, fun i s t r h hr hne => ⟨fun hvar hvaro hload => ?plain,
    fun rd rd2 hi => ?getvar, fun rd rd2 rs1 imm hi => ?getvaro,
    fun rs1 rs2 hi hnodes hleaves => ?load⟩⟩
  case plain =>
    have hfault := exec_eq_raiseWith h hr hne
    rw [faultBase_eq_self hvar hvaro hload, faultValue_eq_zero hvar hvaro] at hfault
    exact (raise_cases hfault.symm).trans (s.recordError_finish _)
  case getvar => subst hi; exact eq_varFaultState rfl rfl rfl h hr hne
  case getvaro => subst hi; exact eq_varFaultState rfl rfl rfl h hr hne
  case load =>
    subst hi
    have hbase : faultBase (.hufLoad rs1 rs2) s = s.clearTree := if_pos ⟨hnodes, hleaves⟩
    have hfault := exec_eq_raiseWith h hr hne
    rw [hbase] at hfault
    have ht : t = faultState s.clearTree r.status :=
      (raise_cases hfault.symm).trans (s.clearTree.recordError_finish _)
    subst ht
    rfl

/-- Settles O19: a success, a first fault and a later one, of a command and of an illegal word. -/
theorem stickyErrorKeepsTheFirstFault : Obligations.StickyErrorKeepsTheFirstFault := by
  refine ⟨fun i s t r h hr => ⟨fun hne hs => ?first, fun hne hs => ?later,
    fun hok hi => exec_error_of_ok hi h hr hok⟩, fun s t c es e hin hd h => ?illegal,
    fun s => complete_eq s.acknowledge 0 0, fun s t es hin h => ?reset⟩
  case first =>
    obtain ⟨herr, heseq⟩ := exec_error_of_fault h hr hne
    exact ⟨herr.trans (if_pos hs), heseq.trans (if_pos hs)⟩
  case later =>
    obtain ⟨herr, heseq⟩ := exec_error_of_fault h hr hne
    exact ⟨herr.trans (if_neg hs), heseq.trans (if_neg hs)⟩
  case illegal =>
    cases (illegalWordsOnlyRaise s c es e hin hd).symm.trans h
    exact ⟨fun hs => ⟨if_pos hs, if_pos hs⟩, fun hs => ⟨if_neg hs, if_neg hs⟩⟩
  case reset =>
    cases (step_of_event hin).symm.trans h
    exact ⟨rfl, rfl⟩

end Sys2Proof.Proofs
end

section
/-! What `Reset` leaves (spec/70_reset_and_hazards.md R330). -/

namespace Sys2Proof.Proofs

open Machine

/-- A step that takes `Reset` answers the power-up state of the same capacities and `MEM`, with the
later events waiting. -/
theorem step_of_reset {s : State} {es : List HostEvent} (hin : s.input = .reset :: es) :
    step s = .next { State.powerUp s.cap s.mem es with draws := s.draws } :=
  step_of_event hin

/-- Every register reads 0 at power-up: `x1` to `x7` by the stored values, `x0` by its wiring (R21). -/
@[simp] theorem powerUp_reg (cap : Capacities) (mem : Memory) (input : List HostEvent) (r : Reg) :
    (State.powerUp cap mem input).reg r = 0 := by
  cases r <;> rfl

/-- Settles O9: the state of `step_of_reset`, its registers by `powerUp_reg` and every other element
by the field `State.powerUp` gives it. -/
theorem resetSetsEveryElement : Obligations.ResetSetsEveryElement := by
  intro s es hin
  refine ⟨_, step_of_reset hin, powerUp_reg s.cap s.mem es, ?_⟩
  and_intros <;> rfl

end Sys2Proof.Proofs
end
